-- ==== Sys2Proof/Word.lean ====
section
/-! DEFINITION. The byte (spec/00_scope.md R7 BYTE_BITS, R9) and the 16-bit field (R9). -/

namespace Sys2Proof

/-- One stream element, field or register element: 8 bits, bit 0 the least significant (R7, R10). -/
abbrev Byte := BitVec 8

/-- An unsigned 16-bit field (R9, R10 `u16le`). -/
abbrev U16 := BitVec 16

end Sys2Proof
end

