-- ==== Sys2Proof/Machine/Constants.lean ====
section
/-! DEFINITION. The fixed constants of spec/00_scope.md R7, under the spec's names. R4: each is "a value under
test". -/

namespace Sys2Proof

/-- Length of every outgoing command frame. -/
abbrev TX_LEN : Nat := 19

/-- Bytes read after header and command byte of an incoming frame. -/
abbrev RX_PAYLOAD_LEN : Nat := 8

/-- Header, command byte and payload. -/
abbrev RX_FRAME_LEN : Nat := 10

/-- First byte of every frame, both directions. -/
def HDR : Byte := 0xAA

/-- Second byte of every outgoing frame. -/
def TX_HDR2 : Byte := 0xB4

/-- Last byte of every frame, both directions. -/
def TAIL : Byte := 0xAB

/-- Incoming command byte of a measurement frame. -/
def CMD_MEAS : Byte := 0xC0

/-- Incoming command byte of an acknowledgment frame. -/
def CMD_ACK : Byte := 0xC5

/-- Value of the ten reserved bytes at TX offsets 5..14. -/
def PAD : Byte := 0x00

/-- Value of the two sentinel bytes at TX offsets 15..16. -/
def SENT : Byte := 0xFF

/-- Mode byte for SET. -/
def MODE_SET : Byte := 0x01

/-- Mode byte for GET. -/
def MODE_GET : Byte := 0x00

/-- Opcode of the set-duty-cycle command. -/
def OP_DUTY_CYCLE : Byte := 0x08

/-- Divisor from raw u16 to micrograms per cubic metre. -/
abbrev SCALE_DIV : Nat := 10

end Sys2Proof
end

