-- ==== Sys2Proof/Config.lean ====
section
/-! DEFINITION. What a model instance fixes (spec/00_scope.md R8) and the answers of the environment
that the spec leaves free (spec/20_memory.md R38, R42; spec/60_exceptions.md R122). Every constant that the
spec leaves open is opaque: nothing in Lean can evaluate it (notes/assumptions 2, 4, 5, 11, 12, 19). -/

namespace Sys2Proof

/-- The cause an underlying I/O failure carries (R38 `Err(cause)`, R41). The spec gives it no structure;
the number is a label. DESIGN CHOICE (log 16). -/
structure Cause where
  label : Nat
  deriving DecidableEq, Repr, Inhabited

/-- The answer of one `SrcRead` (spec/20_memory.md R38). -/
inductive SrcAnswer where
  /-- `Bytes(s)` -/
  | bytes (s : List Byte)
  /-- `Err(cause)` -/
  | err (cause : Cause)
  deriving DecidableEq, Repr, Inhabited

/-- The answer of one `SinkWrite` (spec/20_memory.md R41, R42). -/
inductive SinkAnswer where
  /-- `Ok`: the whole frame is on the outbound stream -/
  | ok
  /-- `Err(cause)` after the first `placed` bytes of the frame (all of them if it is shorter) -/
  | err (cause : Cause) (placed : Nat)
  deriving DecidableEq, Repr, Inhabited

/-- The reported scaled value: the 64-bit pattern of the source's "f64" (R13, R61). DESIGN CHOICE (log 11). -/
abbrev PMValue := BitVec 64

/-- OP_SLEEP_WAKE (R8), OPEN. -/
opaque Config.opSleepWake : Byte

/-- OP_MODE (R8), OPEN. -/
opaque Config.opMode : Byte

/-- Which of 0x00 and 0x01 selects sleep is OPEN (R8): true when PARAM_SLEEP is 0x01. -/
opaque Config.sleepIsOne : Bool

/-- PARAM_SLEEP (R8): 0x00 or 0x01. -/
def Config.paramSleep : Byte := if Config.sleepIsOne then 0x01 else 0x00

/-- PARAM_WAKE (R8): 0x00 or 0x01, and not PARAM_SLEEP. -/
def Config.paramWake : Byte := if Config.sleepIsOne then 0x00 else 0x01

/-- PM_TO_FLOAT (R8, R61): the reported rendering of raw/10, OPEN. -/
opaque Config.pmToFloat : U16 → PMValue

/-- One less than TRANSPORT_TIMEOUT. R8 gives only "positive duration"; a whole number of a unit the spec leaves open is a
DESIGN CHOICE (log 19). -/
opaque Config.transportTimeoutPred : Nat

/-- TRANSPORT_TIMEOUT (R8; spec/60_exceptions.md R124): a positive duration that no rule reads (log 19). -/
def Config.transportTimeout : Nat := Config.transportTimeoutPred + 1

/-- BUDGET_UNIT (R8): the unit of a budget's duration, OPEN; no rule reads it. R8 gives its domain only as "unit of
Duration"; that it is held as a natural number is a DESIGN CHOICE (log 19). -/
opaque Config.budgetUnit : Nat

/-- The free answer of the `k`-th `SrcRead` when it asks for `n` bytes (R38, "any `s` with `|s| <= n`, or any
`Err`"); the machine delivers at most the first `n` of its bytes (log 2). -/
opaque Config.freeRead : Nat → Nat → SrcAnswer

/-- The free answer of the `k`-th `SinkWrite` (R42; log 4). -/
opaque Config.freeWrite : Nat → SinkAnswer

/-- The free draw of `Expired()` at the `k`-th draw of the clock (R122; logs 1, 5). -/
opaque Config.freeExpired : Nat → Bool

end Sys2Proof
end

