-- ==== Sys2Proof/Syntax.lean ====
section
/-! DEFINITION. The operations of the block and the inbound units FSCAN recognises: one constructor for each
row of spec/opcode_table.json (spec/30_encoding.md R51, R57, R58, R62), with their operand types. -/

namespace Sys2Proof

/-- `Mode`: "exactly two values" (spec/30_encoding.md R52). -/
inductive Mode where
  | set
  | get
  deriving DecidableEq, Repr

/-- `CommandKind`: three values, each with its opcode byte (R53; spec/90_conflicts.md C5). -/
inductive CommandKind where
  | mode
  | dutyCycle
  | sleepWake
  deriving DecidableEq, Repr

/-- The time budget of one FSCAN call (spec/10_state.md R21). `finite d` is a Budget only for `d > 0`
(checked in WellFormed); `d` counts BUDGET_UNIT (log 13). -/
inductive Budget where
  | zero
  | finite (d : Nat)
  | unlimited
  deriving DecidableEq, Repr

/-- One operation of the block (R62), or one inbound unit as FSCAN consumes it (R58). -/
inductive Instr where
  /-- ENC op, mode, param (spec/40_encoder.md R73) -/
  | enc (op : Byte) (mode : Mode) (param : Byte)
  /-- ENC.KIND kind, mode, param (R74) -/
  | encKind (kind : CommandKind) (mode : Mode) (param : Byte)
  /-- ENC.DUTY minutes (R75) -/
  | encDuty (minutes : Byte)
  /-- ENC.SLEEP (R76) -/
  | encSleep
  /-- ENC.WAKE (R77) -/
  | encWake
  /-- SEND tx (R80); `tx` must have length 19 -/
  | send (tx : List Byte)
  /-- CSUM s (spec/41_checksum.md R83) -/
  | csum (s : List Byte)
  /-- CSUM.TX op, mode, param (R84) -/
  | csumTx (op : Byte) (mode : Mode) (param : Byte)
  /-- CSUM.RX pay (R85); `pay` must have length 8 -/
  | csumRx (pay : List Byte)
  /-- SCAN budget (spec/42_scanner.md R89) -/
  | scan (budget : Budget)
  /-- READ.MEAS budget (R108) -/
  | readMeas (budget : Budget)
  /-- RXF.MEAS: AA C0 and 8 payload bytes (R93) -/
  | rxfMeas (pay : List Byte)
  /-- RXF.ACK: AA C5 and 8 payload bytes (R94) -/
  | rxfAck (pay : List Byte)
  /-- RXF.FALSEPOS: AA and a byte other than C0 and C5, or no byte (R91) -/
  | rxfFalsePos (k : Option Byte)
  /-- RX.NOISE: one byte other than AA (R90) -/
  | rxNoise (b : Byte)
  deriving DecidableEq, Repr

/-- Whether an instruction is an inbound unit: the unit classes of spec/30_encoding.md R50 that come from the
device. The others are the operations of R62. -/
def Instr.isUnit : Instr → Bool
  | .rxfMeas _ | .rxfAck _ | .rxfFalsePos _ | .rxNoise _ => true
  | .enc _ _ _ | .encKind _ _ _ | .encDuty _ | .encSleep | .encWake | .send _ | .csum _ | .csumTx _ _ _
  | .csumRx _ | .scan _ | .readMeas _ => false

/-- Why bytes are no operation and no inbound unit: the boundary refusals of spec/30_encoding.md R67, by name. -/
inductive DecodeError where
  /-- no token stands on the line -/
  | empty
  /-- the line's first word is none of the mnemonics of R62 -/
  | unknownOperation
  /-- the operand list has not the form of R69 -/
  | badOperands
  /-- an operand is no byte literal (R69) -/
  | notAByte
  /-- a literal wider than a byte (R54, R67) -/
  | widerThanByte
  /-- a mode other than SET and GET (R52, R67) -/
  | notAMode
  /-- a kind other than Mode, DutyCycle and SleepWake (R53) -/
  | notAKind
  /-- a budget that is negative or no duration (R67) -/
  | notABudget
  /-- SEND of a name that stands for no frame (R69) -/
  | unknownName
  /-- an operand of the wrong length: SEND other than 19, CSUM.RX other than 8 (R67) -/
  | illFormed
  /-- bytes that start as a TXF and are not 19, or no well-formed TXF (R50, R56) -/
  | notAFrame
  /-- bytes that are no inbound unit of R50 -/
  | notAUnit
  deriving DecidableEq, Repr

end Sys2Proof
end

