-- ==== Sys2Proof/Machine/Operands.lean ====
section
/-! DEFINITION. Operand values and value assembly: mode and opcode bytes, the checksum sum, the command frame,
16-bit fields and scaled values (spec/30_encoding.md R52, R53, R55, R61; spec/40_encoder.md R72;
spec/41_checksum.md R83-R85; spec/20_memory.md R34). -/

namespace Sys2Proof

/-- `mode_byte` (spec/40_encoder.md R72; spec/30_encoding.md R52). -/
def Mode.byte : Mode → Byte
  | .set => MODE_SET
  | .get => MODE_GET

/-- The Mode a mode byte stands for; any other byte "is not a Mode" (R52). -/
def Mode.ofByte? (b : Byte) : Option Mode :=
  if b = MODE_SET then some .set else if b = MODE_GET then some .get else none

/-- `opcode(kind)` (spec/40_encoder.md R74; spec/30_encoding.md R53). -/
def CommandKind.opcode : CommandKind → Byte
  | .mode => Config.opMode
  | .dutyCycle => OP_DUTY_CYCLE
  | .sleepWake => Config.opSleepWake

/-- The natural-number sum of a byte sequence, before reduction (spec/41_checksum.md R83). -/
def byteSum : List Byte → Nat
  | [] => 0
  | b :: bs => b.toNat + byteSum bs

/-- CSUM: the sum reduced once, modulo 256 (spec/41_checksum.md R83). -/
def checksum (s : List Byte) : Byte := BitVec.ofNat 8 (byteSum s % 256)

/-- The checksum of an outgoing frame, from the values at offsets 2, 3 and 4 and the two sentinels
(spec/41_checksum.md R84). -/
def checksumTx (op mb param : Byte) : Byte := checksum [op, mb, param, SENT, SENT]

/-- `FRAME(op, mb, param)` (spec/40_encoder.md R72), the TXF layout of spec/30_encoding.md R55. -/
def frame (op mb param : Byte) : List Byte :=
  [HDR, TX_HDR2, op, mb, param] ++ List.replicate 10 PAD ++ [SENT, SENT] ++ [checksumTx op mb param] ++ [TAIL]

/-- Whether 19 bytes are a well-formed TXF (spec/30_encoding.md R56): the constant bytes, a mode byte, and the
checksum that R55 fixes. -/
def wellFormedTxf (t : List Byte) : Bool :=
  decide (t = frame (t.getD 2 0) (t.getD 3 0) (t.getD 4 0)) && (Mode.ofByte? (t.getD 3 0)).isSome

/-- The frame an ENC-family operation builds (spec/40_encoder.md R73-R77); none for every other instruction. -/
def Instr.frame? : Instr → Option (List Byte)
  | .enc op mode param => some (frame op mode.byte param)
  | .encKind kind mode param => some (frame kind.opcode mode.byte param)
  | .encDuty minutes => some (frame OP_DUTY_CYCLE MODE_SET minutes)
  | .encSleep => some (frame Config.opSleepWake MODE_SET Config.paramSleep)
  | .encWake => some (frame Config.opSleepWake MODE_SET Config.paramWake)
  | .send _ | .csum _ | .csumTx _ _ _ | .csumRx _ | .scan _ | .readMeas _
  | .rxfMeas _ | .rxfAck _ | .rxfFalsePos _ | .rxNoise _ => none

/-- `u16le(lo, hi) = zext_16(lo) + 256 * zext_16(hi)` (spec/00_scope.md R10). -/
def u16le (lo hi : Byte) : U16 := BitVec.ofNat 16 (lo.toNat + 256 * hi.toNat)

/-- The byte at a fixed offset of a payload. -/
def byteAt (s : List Byte) (i : Nat) : Byte := s.getD i 0

/-- `pm25_raw` (spec/20_memory.md R34; spec/42_scanner.md R100). -/
def pm25Raw (pay : List Byte) : U16 := u16le (byteAt pay 0) (byteAt pay 1)

/-- `pm10_raw` (spec/20_memory.md R34; spec/42_scanner.md R100). -/
def pm10Raw (pay : List Byte) : U16 := u16le (byteAt pay 2) (byteAt pay 3)

/-- The exact scaled value raw/10, in micrograms per cubic metre (spec/30_encoding.md R61). The value a
Measurement reports is `Config.pmToFloat raw`. -/
def pmExact (raw : U16) : Rat := (raw.toNat : Rat) / SCALE_DIV

end Sys2Proof
end

