-- ==== Sys2Proof/WellFormed.lean ====
section
/-! DEFINITION. The checks an instruction must pass beyond its types: the boundary limits of
spec/30_encoding.md R67 and the unit classes of R58. -/

namespace Sys2Proof

/-- A Budget is Zero, Finite(d) with d > 0, or Unlimited (spec/10_state.md R21). -/
def Budget.wf : Budget → Bool
  | .zero => true
  | .finite d => decide (0 < d)
  | .unlimited => true

/-- Whether an instruction's operands lie in their types (spec/30_encoding.md R51, R58, R67). -/
def Instr.wf : Instr → Bool
  | .enc _ _ _ => true
  | .encKind _ _ _ => true
  | .encDuty _ => true
  | .encSleep => true
  | .encWake => true
  | .send tx => decide (tx.length = TX_LEN)
  | .csum _ => true
  | .csumTx _ _ _ => true
  | .csumRx pay => decide (pay.length = RX_PAYLOAD_LEN)
  | .scan b => b.wf
  | .readMeas b => b.wf
  | .rxfMeas pay => decide (pay.length = RX_PAYLOAD_LEN)
  | .rxfAck pay => decide (pay.length = RX_PAYLOAD_LEN)
  | .rxfFalsePos none => true
  | .rxfFalsePos (some k) => decide (k ≠ CMD_MEAS ∧ k ≠ CMD_ACK)
  | .rxNoise b => decide (b ≠ HDR)

end Sys2Proof
end

