-- ==== Sys2Proof/Decode.lean ====
section
/-! DEFINITION. From bytes to instructions and back. Three decoders, each total and rejecting by name:
the caller's operation line (the syntax of spec/30_encoding.md R69), the outgoing frame as a fixed pattern
(R56), and the inbound unit (R50, R57, R58). Then the encoder of the same tables, and the host's
`decodeTableWord`. Conventions the spec leaves open are in notes/assumptions 7, 8 and 9. -/

namespace Sys2Proof

/-! ## Characters and tokens of an operation line -/

/-- ASCII codes of characters. -/
def ascii (cs : List Char) : List Byte := cs.map fun c => BitVec.ofNat 8 c.toNat

def kwEnc : List Byte := ascii ['E', 'N', 'C']
def kwEncKind : List Byte := ascii ['E', 'N', 'C', '.', 'K', 'I', 'N', 'D']
def kwEncDuty : List Byte := ascii ['E', 'N', 'C', '.', 'D', 'U', 'T', 'Y']
def kwEncSleep : List Byte := ascii ['E', 'N', 'C', '.', 'S', 'L', 'E', 'E', 'P']
def kwEncWake : List Byte := ascii ['E', 'N', 'C', '.', 'W', 'A', 'K', 'E']
def kwSend : List Byte := ascii ['S', 'E', 'N', 'D']
def kwCsum : List Byte := ascii ['C', 'S', 'U', 'M']
def kwCsumTx : List Byte := ascii ['C', 'S', 'U', 'M', '.', 'T', 'X']
def kwCsumRx : List Byte := ascii ['C', 'S', 'U', 'M', '.', 'R', 'X']
def kwScan : List Byte := ascii ['S', 'C', 'A', 'N']
def kwReadMeas : List Byte := ascii ['R', 'E', 'A', 'D', '.', 'M', 'E', 'A', 'S']
def kwSet : List Byte := ascii ['S', 'E', 'T']
def kwGet : List Byte := ascii ['G', 'E', 'T']
def kwMode : List Byte := ascii ['M', 'o', 'd', 'e']
def kwDutyCycle : List Byte := ascii ['D', 'u', 't', 'y', 'C', 'y', 'c', 'l', 'e']
def kwSleepWake : List Byte := ascii ['S', 'l', 'e', 'e', 'p', 'W', 'a', 'k', 'e']
def kwUnlimited : List Byte := ascii ['U', 'N', 'L', 'I', 'M', 'I', 'T', 'E', 'D']

/-- A token of an operation line (R69). -/
inductive Token where
  | word (w : List Byte)
  | comma
  | lbracket
  | rbracket
  | lparen
  | rparen
  | equals
  deriving DecidableEq, Repr

/-- The punctuation of R69. -/
def punctuation? (c : Byte) : Option Token :=
  if c = 0x2C then some .comma
  else if c = 0x5B then some .lbracket
  else if c = 0x5D then some .rbracket
  else if c = 0x28 then some .lparen
  else if c = 0x29 then some .rparen
  else if c = 0x3D then some .equals
  else none

/-- Space, tab, line feed and carriage return separate words (log 7). -/
def isBlank (c : Byte) : Bool := decide (c = 0x20 ∨ c = 0x09 ∨ c = 0x0A ∨ c = 0x0D)

/-- A character that belongs to a word: no semicolon, no blank, no punctuation. -/
def isWordChar (c : Byte) : Bool := decide (c ≠ 0x3B) && !isBlank c && (punctuation? c).isNone

/-- Close the word read so far (kept in reverse), if there is one. -/
def flushWord (acc : List Byte) (rest : List Token) : List Token :=
  match acc with
  | [] => rest
  | c :: cs => .word (c :: cs).reverse :: rest

/-- The tokens of a line; a semicolon starts a comment that runs to the end (R69). -/
def tokens : List Byte → List Byte → List Token
  | [], acc => flushWord acc []
  | c :: cs, acc =>
    if c = 0x3B then flushWord acc []
    else if isBlank c then flushWord acc (tokens cs [])
    else match punctuation? c with
      | some t => flushWord acc (t :: tokens cs [])
      | none => tokens cs (c :: acc)

/-! ## Literals -/

/-- The value of a decimal digit. -/
def decDigit? (c : Byte) : Option Nat :=
  if 0x30 ≤ c.toNat ∧ c.toNat ≤ 0x39 then some (c.toNat - 0x30) else none

/-- The value of a hexadecimal digit, in either case. -/
def hexDigit? (c : Byte) : Option Nat :=
  if 0x30 ≤ c.toNat ∧ c.toNat ≤ 0x39 then some (c.toNat - 0x30)
  else if 0x41 ≤ c.toNat ∧ c.toNat ≤ 0x46 then some (c.toNat - 0x37)
  else if 0x61 ≤ c.toNat ∧ c.toNat ≤ 0x66 then some (c.toNat - 0x57)
  else none

/-- The value of a string of digits in a base, most significant first, onto the value read so far. -/
def digitsValue (digit? : Byte → Option Nat) (base : Nat) : Nat → List Byte → Option Nat
  | acc, [] => some acc
  | acc, c :: cs =>
    match digit? c with
    | some d => digitsValue digit? base (acc * base + d) cs
    | none => none

/-- A literal, "decimal or `0x` hexadecimal" (R69). -/
def literal? : List Byte → Option Nat
  | [] => none
  | [c] => digitsValue decDigit? 10 0 [c]
  | c :: x :: rest =>
    if c = 0x30 ∧ x = 0x78 then
      match rest with
      | [] => none
      | d :: ds => digitsValue hexDigit? 16 0 (d :: ds)
    else digitsValue decDigit? 10 0 (c :: x :: rest)

/-- A byte operand; a wider literal is refused (R54, R67). -/
def parseByte (w : List Byte) : Except DecodeError Byte :=
  match literal? w with
  | none => .error .notAByte
  | some n => if n < 256 then .ok (BitVec.ofNat 8 n) else .error .widerThanByte

/-- SET or GET; anything else "is not a Mode" (R52, R67). -/
def parseMode (w : List Byte) : Except DecodeError Mode :=
  if w = kwSet then .ok .set else if w = kwGet then .ok .get else .error .notAMode

/-- Mode, DutyCycle or SleepWake (R53, R69). -/
def parseKind (w : List Byte) : Except DecodeError CommandKind :=
  if w = kwMode then .ok .mode
  else if w = kwDutyCycle then .ok .dutyCycle
  else if w = kwSleepWake then .ok .sleepWake
  else .error .notAKind

/-- `0`, a positive number of BUDGET_UNIT, or UNLIMITED (R69; R67 refuses the rest). R69 gives literals for bytes only: that
a duration is written as a literal of the same two forms, leading zeros allowed, and that every literal of value 0 (`00`,
`0x0`) is Zero, is a DESIGN CHOICE (log 7). -/
def parseBudget (w : List Byte) : Except DecodeError Budget :=
  if w = kwUnlimited then .ok .unlimited
  else match literal? w with
    | none => .error .notABudget
    | some 0 => .ok .zero
    | some (d + 1) => .ok (.finite (d + 1))

/-! ## Operand lists -/

/-- What follows an element of a bracketed list: its end, or a comma and the next element. -/
def parseListTail : List Token → Except DecodeError (List Byte)
  | [.rbracket] => .ok []
  | .comma :: .word w :: rest =>
    match parseByte w with
    | .error e => .error e
    | .ok b =>
      match parseListTail rest with
      | .error e => .error e
      | .ok bs => .ok (b :: bs)
  | _ => .error .badOperands

/-- `[<b>, <b>, ...]` (R69), possibly empty. -/
def parseList : List Token → Except DecodeError (List Byte)
  | [.lbracket, .rbracket] => .ok []
  | .lbracket :: .word w :: rest => parseListTail (.comma :: .word w :: rest)
  | _ => .error .badOperands

/-- `<op8>, SET|GET, <param8>` (R69). -/
def parseEncOperands : List Token → Except DecodeError (Byte × Mode × Byte)
  | [.word op, .comma, .word mode, .comma, .word param] =>
    match parseByte op, parseMode mode, parseByte param with
    | .ok o, .ok m, .ok p => .ok (o, m, p)
    | .error e, _, _ => .error e
    | _, .error e, _ => .error e
    | _, _, .error e => .error e
  | _ => .error .badOperands

/-- `Mode|DutyCycle|SleepWake, SET|GET, <param8>` (R69). -/
def parseKindOperands : List Token → Except DecodeError (CommandKind × Mode × Byte)
  | [.word kind, .comma, .word mode, .comma, .word param] =>
    match parseKind kind, parseMode mode, parseByte param with
    | .ok k, .ok m, .ok p => .ok (k, m, p)
    | .error e, _, _ => .error e
    | _, .error e, _ => .error e
    | _, _, .error e => .error e
  | _ => .error .badOperands

/-- `0 | <duration> | UNLIMITED` (R69). -/
def parseScanOperand : List Token → Except DecodeError Budget
  | [.word w] => parseBudget w
  | _ => .error .badOperands

/-- One byte operand (ENC.DUTY). -/
def parseByteOperand : List Token → Except DecodeError Byte
  | [.word w] => parseByte w
  | _ => .error .badOperands

/-- No operand (ENC.SLEEP, ENC.WAKE). -/
def parseNoOperand : List Token → Except DecodeError Unit
  | [] => .ok ()
  | _ => .error .badOperands

/-! ## Operations -/

/-- An ENC-family operation, from its mnemonic and operands (R62, R69). -/
def parseEncFamily (m : List Byte) (rest : List Token) : Except DecodeError Instr :=
  if m = kwEnc then (parseEncOperands rest).map fun o => .enc o.1 o.2.1 o.2.2
  else if m = kwEncKind then (parseKindOperands rest).map fun o => .encKind o.1 o.2.1 o.2.2
  else if m = kwEncDuty then (parseByteOperand rest).map .encDuty
  else if m = kwEncSleep then (parseNoOperand rest).map fun _ => .encSleep
  else if m = kwEncWake then (parseNoOperand rest).map fun _ => .encWake
  else .error .unknownOperation

/-- The frame a name stands for among the caller's named results (R69): the newest given under it. R69 does not say what a
name given twice stands for. DESIGN CHOICE (log 7). -/
def lookupName (names : List (List Byte × List Byte)) (n : List Byte) : Option (List Byte) :=
  (names.find? fun p => p.1 = n).map Prod.snd

/-- `<tx19>`: "result of an ENC-family line, or 19 literal bytes" (R69): a parenthesised ENC-family line, the
name of an earlier one, or a bracketed list of literals (log 7). -/
def parseTx (names : List (List Byte × List Byte)) : List Token → Except DecodeError (List Byte)
  | [.word n] =>
    match lookupName names n with
    | some f => .ok f
    | none => .error .unknownName
  | .lparen :: .word m :: rest =>
    match rest.getLast? with
    | some .rparen =>
      match parseEncFamily m rest.dropLast with
      | .error e => .error e
      | .ok i =>
        match i.frame? with
        | some f => .ok f
        | none => .error .badOperands
    | _ => .error .badOperands
  | toks => parseList toks

/-- Any operation of R62, from its mnemonic and operands. -/
def parseOperation (names : List (List Byte × List Byte)) (m : List Byte) (rest : List Token) :
    Except DecodeError Instr :=
  if m = kwSend then (parseTx names rest).map .send
  else if m = kwCsum then (parseList rest).map .csum
  else if m = kwCsumTx then (parseEncOperands rest).map fun o => .csumTx o.1 o.2.1 o.2.2
  else if m = kwCsumRx then (parseList rest).map .csumRx
  else if m = kwScan then (parseScanOperand rest).map .scan
  else if m = kwReadMeas then (parseScanOperand rest).map .readMeas
  else parseEncFamily m rest

/-- What the caller asks for: an operation, and the name it gives the result, if any (R69). -/
structure Request where
  name : Option (List Byte)
  op : Instr
  deriving DecidableEq, Repr

/-- A line's tokens: an optional `name =`, a mnemonic, its operands. That any word can be a name, a mnemonic among them, is
a DESIGN CHOICE (log 7). -/
def parseLine (names : List (List Byte × List Byte)) : List Token → Except DecodeError Request
  | [] => .error .empty
  | .word n :: .equals :: .word m :: rest => (parseOperation names m rest).map fun i => ⟨some n, i⟩
  | .word m :: rest => (parseOperation names m rest).map fun i => ⟨none, i⟩
  | _ => .error .badOperands

/-- The boundary check of R67: an operation whose operand lies outside its type is refused. -/
def checkRequest (r : Request) : Except DecodeError Request :=
  if r.op.wf then .ok r else .error .illFormed

/-- One line of the syntax of R69. -/
def decodeLine (names : List (List Byte × List Byte)) (line : List Byte) : Except DecodeError Request :=
  match parseLine names (tokens line []) with
  | .error e => .error e
  | .ok r => checkRequest r

/-! ## Wire formats -/

/-- A well-formed TXF (R56) read back as the operation whose result it is: `ENC op, mode, param`, to which every
ENC-family pseudo-operation expands (R70; log 8). -/
def decodeTxf (t : List Byte) : Except DecodeError Instr :=
  if wellFormedTxf t then
    match Mode.ofByte? (byteAt t 3) with
    | some m => .ok (.enc (byteAt t 2) m (byteAt t 4))
    | none => .error .notAMode
  else .error .notAFrame

/-- The operation a 19-byte word stands for: the ENC whose result it is; where it is no well-formed TXF, the SEND of it,
which takes "19 literal bytes" (R69) and writes them unchanged (log 8). -/
def decodeWord (t : List Byte) : Except DecodeError Instr :=
  if t.length ≠ TX_LEN then .error .notAFrame
  else match decodeTxf t with
    | .ok i => .ok i
    | .error _ => .ok (.send t)

/-- What the caller hands over: a 19-byte word where the first byte is the header, else a line. -/
def decodeRequest (names : List (List Byte × List Byte)) (bs : List Byte) : Except DecodeError Request :=
  if bs.head? = some HDR then (decodeWord bs).map fun i => ⟨none, i⟩ else decodeLine names bs

/-- The length of an inbound unit, "which a decoder knows from at most its first two bytes" (R50). -/
def unitLength : List Byte → Nat
  | [] => 0
  | [_] => 1
  | b :: k :: _ =>
    if b = HDR then (if k = CMD_MEAS ∨ k = CMD_ACK then RX_FRAME_LEN else 2) else 1

/-- The inbound unit a byte sequence is, whole (R50, R57, R58, R64). A header alone is a false positive for which
no command byte arrived. -/
def decodeUnit : List Byte → Except DecodeError Instr
  | [] => .error .notAUnit
  | [b] => .ok (if b = HDR then .rxfFalsePos none else .rxNoise b)
  | b :: k :: pay =>
    if b = HDR then
      if k = CMD_MEAS then (if pay.length = RX_PAYLOAD_LEN then .ok (.rxfMeas pay) else .error .notAUnit)
      else if k = CMD_ACK then (if pay.length = RX_PAYLOAD_LEN then .ok (.rxfAck pay) else .error .notAUnit)
      else if pay = [] then .ok (.rxfFalsePos (some k)) else .error .notAUnit
    else .error .notAUnit

/-! ## The encoder -/

/-- One hexadecimal digit, in upper case. -/
def hexDigit (d : Nat) : Byte := BitVec.ofNat 8 (if d < 10 then 0x30 + d else 0x37 + d)

/-- A byte literal as R69 writes it: `0x` and two digits. -/
def byteText (b : Byte) : List Byte := [0x30, 0x78, hexDigit (b.toNat / 16), hexDigit (b.toNat % 16)]

/-- The decimal digits of a number; `fuel` bounds their count. -/
def decText : Nat → Nat → List Byte
  | 0, _ => []
  | fuel + 1, n =>
    if n < 10 then [BitVec.ofNat 8 (0x30 + n)]
    else decText fuel (n / 10) ++ [BitVec.ofNat 8 (0x30 + n % 10)]

def commaText : List Byte := ascii [',', ' ']

def modeText : Mode → List Byte
  | .set => kwSet
  | .get => kwGet

def kindText : CommandKind → List Byte
  | .mode => kwMode
  | .dutyCycle => kwDutyCycle
  | .sleepWake => kwSleepWake

def budgetText : Budget → List Byte
  | .zero => ascii ['0']
  | .finite d => decText (d + 1) d
  | .unlimited => kwUnlimited

/-- What follows an element of a list: its end, or a comma and the next element. -/
def listTailText : List Byte → List Byte
  | [] => ascii [']']
  | b :: bs => commaText ++ byteText b ++ listTailText bs

/-- `[<b>, <b>, ...]` (R69). -/
def listText : List Byte → List Byte
  | [] => ascii ['[', ']']
  | b :: bs => ascii ['['] ++ byteText b ++ listTailText bs

def space : List Byte := ascii [' ']

/-- The words of an instruction: for an operation its line (R69), for an inbound unit its bytes (R57, R58). -/
def encode : Instr → List Byte
  | .enc op mode param =>
    kwEnc ++ space ++ byteText op ++ commaText ++ modeText mode ++ commaText ++ byteText param
  | .encKind kind mode param =>
    kwEncKind ++ space ++ kindText kind ++ commaText ++ modeText mode ++ commaText ++ byteText param
  | .encDuty minutes => kwEncDuty ++ space ++ byteText minutes
  | .encSleep => kwEncSleep
  | .encWake => kwEncWake
  | .send tx => kwSend ++ space ++ listText tx
  | .csum s => kwCsum ++ space ++ listText s
  | .csumTx op mode param =>
    kwCsumTx ++ space ++ byteText op ++ commaText ++ modeText mode ++ commaText ++ byteText param
  | .csumRx pay => kwCsumRx ++ space ++ listText pay
  | .scan b => kwScan ++ space ++ budgetText b
  | .readMeas b => kwReadMeas ++ space ++ budgetText b
  | .rxfMeas pay => [HDR, CMD_MEAS] ++ pay
  | .rxfAck pay => [HDR, CMD_ACK] ++ pay
  | .rxfFalsePos none => [HDR]
  | .rxfFalsePos (some k) => [HDR, k]
  | .rxNoise b => [b]

/-! ## The host's view of a table row -/

/-- `n` bytes of a number, the least significant first: byte `i` is bits `8i+7..8i`. -/
def wordBytes : Nat → Nat → List Byte
  | 0, _ => []
  | n + 1, w => BitVec.ofNat 8 (w % 256) :: wordBytes n (w / 256)

/-- The bytes of a table row's word, in stream order: 19 bytes for a 152-bit row, else the inbound unit its
first two bytes begin, with zero bytes above `nbits`. -/
def tableBytes (nbits w : Nat) : List Byte :=
  let bs := wordBytes TX_LEN (w % 2 ^ nbits)
  if nbits = 8 * TX_LEN then bs else bs.take (unitLength bs)

/-- The instruction the decoder reads from a table row's word. -/
def decodeTableWord (nbits w : Nat) : Option Instr :=
  let bs := tableBytes nbits w
  (if nbits = 8 * TX_LEN then decodeWord bs else decodeUnit bs).toOption

end Sys2Proof
end

