-- ==== Sys2Proof/Machine/Flags.lean ====
section
/-! DEFINITION. The two flags of a measurement evaluation and the status they give (spec/10_state.md R22;
spec/42_scanner.md R101-R103; spec/41_checksum.md R85). They exist only while that step runs, so they are
functions of the payload and no part of State. -/

namespace Sys2Proof

/-- Packet status (spec/00_scope.md R13; spec/10_state.md R22). -/
inductive Status where
  | valid
  | invalid
  deriving DecidableEq, Repr

/-- `CK_OK = (PAY[6] == CSUM(PAY[0..5]))` (spec/10_state.md R22; spec/41_checksum.md R85). -/
def ckOk (pay : List Byte) : Bool := decide (byteAt pay 6 = checksum (pay.take 6))

/-- `TAIL_OK = (PAY[7] == 0xAB)` (spec/10_state.md R22; spec/42_scanner.md R102). -/
def tailOk (pay : List Byte) : Bool := decide (byteAt pay 7 = TAIL)

/-- `status := Valid if CK_OK and TAIL_OK else Invalid` (spec/42_scanner.md R103). -/
def statusOf (pay : List Byte) : Status := if ckOk pay && tailOk pay then .valid else .invalid

end Sys2Proof
end

