-- ==== Sys2Proof/Machine/State.lean ====
section
/-! DEFINITION. The state of the machine as plain data: the FSCAN registers of spec/10_state.md R16, the two
streams and the clock the block reaches (spec/20_memory.md R31, R38, R41; spec/60_exceptions.md R122), and the
caller's side of the interface (spec/30_encoding.md R69; spec/42_scanner.md R107). Fault, Refusal, reset. -/

namespace Sys2Proof.Machine

/-- `PHASE`, "the block's only sequencing state" (spec/10_state.md R17). -/
inductive Phase where
  /-- no call in progress -/
  | idle
  /-- next action reads 1 byte and compares it with the header -/
  | hunt
  /-- the header has matched; next action reads the command byte -/
  | cmdWait
  /-- a command byte is latched in CMD; next action reads 8 bytes -/
  | payload
  /-- RES holds the call's result -/
  | done
  deriving DecidableEq, Repr

/-- The fields of a Measurement result (spec/00_scope.md R13; spec/42_scanner.md R103). -/
structure Measurement where
  pm25Raw : U16
  pm10Raw : U16
  pm25 : PMValue
  pm10 : PMValue
  status : Status
  deriving DecidableEq, Repr

/-- `FrameResult` (spec/00_scope.md R13). -/
inductive FrameResult where
  | measurement (m : Measurement)
  | acknowledgment
  | noFrame
  | transportError (cause : Cause)
  deriving DecidableEq, Repr

/-- "The block emits exactly two kinds of event" (spec/60_exceptions.md R128). -/
inductive DiagEvent where
  | incompleteRead (cmd : Byte) (raw : List Byte)
  | badPacket (raw : List Byte) (ckOk tailOk : Bool)
  deriving DecidableEq, Repr

/-- What SEND returns (spec/40_encoder.md R80). -/
inductive SendResult where
  | ok
  | err (cause : Cause)
  deriving DecidableEq, Repr

/-- What an operation returns to its caller (spec/10_state.md R25; spec/41_checksum.md R83, R85;
spec/42_scanner.md R107). -/
inductive OpResult where
  /-- TX of an ENC-family operation -/
  | tx (frame : List Byte)
  /-- the result of SEND -/
  | sent (r : SendResult)
  /-- the byte of CSUM and CSUM.TX -/
  | sum (b : Byte)
  /-- the Boolean of CSUM.RX -/
  | check (ok : Bool)
  /-- RES together with DIAG at the end of an FSCAN call -/
  | scanned (res : FrameResult) (diag : List DiagEvent)
  deriving DecidableEq, Repr

/-- What the ByteSource will answer (log 2). `prompt q` is the premise `Prompt(q)` of spec/20_memory.md R44.
`oracle answers` is the oracle of R38: the listed answers in order, and past them a free answer each time. -/
inductive Source where
  | prompt (q : List Byte)
  | oracle (answers : List SrcAnswer)
  deriving DecidableEq, Repr

/-- What the ByteSink will answer (log 4). `accepts` answers Ok each time. `oracle answers` gives the listed
answers in order, and past them a free answer each time (R41, R42). -/
inductive Sink where
  | accepts
  | oracle (answers : List SinkAnswer)
  deriving DecidableEq, Repr

/-- The whole state. BUD, CMD and RES are Options because "unwritten" is the spec's own state of them
(spec/10_state.md R29, R30; log 1). Reading CMD or RES unwritten is a fault (spec/93_implementation_defined.md); a budget
check that finds BUD unwritten runs on a free draw. -/
structure State where
  /-- PHASE (R17) -/
  phase : Phase
  /-- BUD (R21) -/
  bud : Option Budget
  /-- CMD (R18) -/
  cmd : Option Byte
  /-- PAY (R19) -/
  pay : List Byte
  /-- ATT (R20) -/
  att : Nat
  /-- RES (R16) -/
  res : Option FrameResult
  /-- DIAG (R16; spec/60_exceptions.md R127) -/
  diag : List DiagEvent
  /-- the inbound stream as the ByteSource will deliver it -/
  source : Source
  /-- every byte a SrcRead has returned, in arrival order (log 15) -/
  taken : List Byte
  /-- what the ByteSink will answer -/
  sink : Sink
  /-- every byte placed on the outbound stream, in order (R35; log 15) -/
  outbound : List Byte
  /-- the next draws of Expired() for a Finite budget or an unwritten BUD; past them each draw is free (log 5) -/
  clock : List Bool
  /-- the operations the caller has yet to issue (log 6) -/
  requests : List (List Byte)
  /-- result names the caller has given, newest first (spec/30_encoding.md R69; log 7) -/
  names : List (List Byte × List Byte)
  /-- results returned to the caller, oldest first (log 15) -/
  results : List OpResult
  /-- a block reset is asked for (spec/70_reset_and_hazards.md R135; log 14) -/
  resetPending : Bool
  /-- SrcReads made so far: the index of the next free answer of the ByteSource (log 2) -/
  srcReads : Nat
  /-- SinkWrites made so far: the index of the next free answer of the ByteSink (log 4) -/
  sinkWrites : Nat
  /-- draws of the clock made so far: the index of the next free draw (log 5) -/
  clockDraws : Nat
  deriving DecidableEq, Repr

/-- Why the machine stops. The spec's own error classes are results and events, never a stop
(spec/60_exceptions.md R111-R117). -/
inductive Fault where
  /-- The PAYLOAD step read CMD while it is unwritten: "has no meaning for that step and must fault"
  (spec/10_state.md R18). Raised by the PAYLOAD step, RXF.MEAS and RXF.ACK. Safe: no rule does so. -/
  | cmdUnwritten
  /-- The PAYLOAD step found in CMD a byte that no step writes to it (R18: "Only the values 0xC0 and 0xC5 are ever
  written to it"), so neither R93 nor R94 applies. Raised by the PAYLOAD step. Safe: no run reaches it (log 17). -/
  | cmdIllegal
  /-- The end of a call read RES while it is unwritten: "reading faults" (R29). Raised by the DONE step. Safe: no rule
  does so. -/
  | resUnwritten
  deriving DecidableEq, Repr

/-- Why an operation has no meaning. -/
inductive Refusal where
  /-- An arm of exec that has no meaning yet. Raised by Dispatch only. Safe. -/
  | notModelled (mnemonic : String)
  /-- The bytes handed over are no operation (spec/30_encoding.md R67, R69). Raised by the step in IDLE; and for bytes
  that are no inbound unit, by the scanner's steps, which never hand such bytes on. Safe. -/
  | undecodable (e : DecodeError)
  /-- An operand lies outside its type: a SEND of a length other than 19, a CSUM.RX of a length other than 8, a budget
  that is no Budget, a unit outside its class (R67). Raised by SEND, CSUM.RX, SCAN, READ.MEAS and the four units. Safe. -/
  | operandOutsideType
  /-- A second operation started while an FSCAN call is in progress (spec/60_exceptions.md R131; the spec's own decision
  D24). Raised by all eleven operations of spec/30_encoding.md R62. Safe (log 10). -/
  | callInProgress
  /-- An inbound unit outside the FSCAN step whose Condition reads it (spec/42_scanner.md R90, R91, R93, R94). Raised by
  the four units. Safe (log 9). -/
  | outsideItsStep
  deriving DecidableEq, Repr

/-- What a step or a meaning answers. -/
abbrev Result := Host.Outcome State Fault Refusal

/-- Block reset (spec/10_state.md R29; spec/70_reset_and_hazards.md R135). The transport is not block state: its
answers are all free (R29, R137). The fields of the caller's side and of the model's own are DESIGN CHOICE
(logs 2, 4, 5, 6, 7, 14, 15). -/
def State.reset : State where
  phase := .idle
  bud := none
  cmd := none
  pay := []
  att := 0
  res := none
  diag := []
  source := .oracle []
  taken := []
  sink := .oracle []
  outbound := []
  clock := []
  requests := []
  names := []
  results := []
  resetPending := false
  srcReads := 0
  sinkWrites := 0
  clockDraws := 0

end Sys2Proof.Machine
end

