-- ==== Sys2Proof/Machine/Ops.lean ====
section
/-! DEFINITION. The named operations over streams and registers that the meanings and the steps share:
the start of an operation, `SrcRead`, `SinkWrite`, `Expired`, `emit`, the start of a call, the end of an attempt, raising
TransportFault, the end of a call, and block reset (spec/00_scope.md R12; spec/20_memory.md; spec/42_scanner.md;
spec/60_exceptions.md; spec/70_reset_and_hazards.md). -/

namespace Sys2Proof.Machine

/-- An operation returns a result to its caller. -/
def State.deliver (s : State) (r : OpResult) : State := { s with results := s.results ++ [r] }

/-! ## The start of an operation -/

/-- The caller starts an operation: "At most one operation of the block is in progress at any time"
(spec/60_exceptions.md R131), so any second one during an FSCAN call is refused (the spec's own decision D24;
spec/93_implementation_defined.md; log 10). -/
def startOperation (s : State) (run : Result) : Result :=
  if s.phase = .idle then run else .refused .callInProgress

/-- An operation that only computes a result and returns it: the ENC family (spec/40_encoder.md R71) and the checksums
(spec/10_state.md R15). The result is a function of the operands alone. -/
def returnResult (r : OpResult) (s : State) : Result := startOperation s (.next (s.deliver r))

/-! ## The inbound stream -/

/-- Cut an answer of the oracle to the `n` bytes asked for: `0 <= |s| <= n` (R38). -/
def clipAnswer (n : Nat) : SrcAnswer → SrcAnswer
  | .bytes b => .bytes (b.take n)
  | .err c => .err c

/-- What one read of `n` bytes answers, and what the source is afterwards; `k` is the read's number.
`Prompt(q)` answers the first `n` bytes of `q` and removes them (R44). A listed answer longer than `n` leaves
its rest for the next read (log 3). -/
def Source.read (k n : Nat) : Source → SrcAnswer × Source
  | .prompt q => (.bytes (q.take n), .prompt (q.drop n))
  | .oracle [] => (clipAnswer n (Config.freeRead k n), .oracle [])
  | .oracle (.err c :: rest) => (.err c, .oracle rest)
  | .oracle (.bytes b :: rest) =>
    if b.length ≤ n then (.bytes b, .oracle rest)
    else (.bytes (b.take n), .oracle (.bytes (b.drop n) :: rest))

/-- The bytes an answer delivers. -/
def answerBytes : SrcAnswer → List Byte
  | .bytes b => b
  | .err _ => []

/-- `SrcRead(n)` (spec/20_memory.md R38-R40): it always answers, and the bytes it returns are consumed. -/
def srcRead (n : Nat) (s : State) : SrcAnswer × State :=
  let r := s.source.read s.srcReads n
  (r.1, { s with source := r.2, taken := s.taken ++ answerBytes r.1, srcReads := s.srcReads + 1 })

/-! ## The outbound stream -/

/-- What one write answers, and what the sink is afterwards; `k` is the write's number. -/
def Sink.write (k : Nat) : Sink → SinkAnswer × Sink
  | .accepts => (.ok, .accepts)
  | .oracle [] => (Config.freeWrite k, .oracle [])
  | .oracle (a :: rest) => (a, .oracle rest)

/-- The bytes of `tx` that an answered write has placed on the stream: all of them on Ok, some of the first ones on
Err (spec/20_memory.md R42). -/
def placedBytes (tx : List Byte) : SinkAnswer → List Byte
  | .ok => tx
  | .err _ placed => tx.take placed

/-- What SEND returns for an answer of the sink (spec/40_encoder.md R80). -/
def sendResult : SinkAnswer → SendResult
  | .ok => .ok
  | .err c _ => .err c

/-- `SinkWrite(tx)` (spec/20_memory.md R41, R42): it always answers; no retry. -/
def sinkWrite (tx : List Byte) (s : State) : SinkAnswer × State :=
  let r := s.sink.write s.sinkWrites
  (r.1, { s with sink := r.2, outbound := s.outbound ++ placedBytes tx r.1, sinkWrites := s.sinkWrites + 1 })

/-! ## The clock -/

/-- One draw of the clock: the next listed one, and past the list a free one (log 5). -/
def drawClock (s : State) : Bool × State :=
  match s.clock with
  | b :: rest => (b, { s with clock := rest, clockDraws := s.clockDraws + 1 })
  | [] => (Config.freeExpired s.clockDraws, { s with clockDraws := s.clockDraws + 1 })

/-- `Expired()` (spec/60_exceptions.md R122): true for Zero, false for Unlimited, a draw for Finite. A true draw ends the
call, so no later draw of the call contradicts it (log 5). R122 states no value where BUD is unwritten: the check runs all
the same, and its answer is a draw, free like the clock's. DESIGN CHOICE (log 1). -/
def expired (s : State) : Bool × State :=
  match s.bud with
  | some .zero => (true, s)
  | some .unlimited => (false, s)
  | some (.finite _) => drawClock s
  | none => drawClock s

/-! ## One FSCAN call -/

/-- `emit(ev)` (spec/60_exceptions.md R127). -/
def State.emit (s : State) (ev : DiagEvent) : State := { s with diag := s.diag ++ [ev] }

/-- The state at the start of every FSCAN call (spec/10_state.md R30; spec/42_scanner.md R89). -/
def State.startCall (s : State) (b : Budget) : State :=
  { s with phase := .hunt, bud := some b, cmd := none, pay := [], att := 0, res := none, diag := [] }

/-- The start of a call that an operation asks for: refused for a budget that is no Budget (spec/30_encoding.md R67) and
while a call is in progress (spec/60_exceptions.md R131). -/
def beginCall (b : Budget) (s : State) : Result :=
  if b.wf = false then .refused .operandOutsideType
  else startOperation s (.next (s.startCall b))

/-- A call gets its result: `RES <- r; PHASE <- DONE`. -/
def State.finishWith (s : State) (r : FrameResult) : State := { s with res := some r, phase := .done }

/-- `raise TransportFault(cause)` (spec/60_exceptions.md R119; spec/42_scanner.md R98): the one error class that ends
a call by itself. No register is saved, "because there is no handler to return to" (R118). -/
def State.raiseTransportFault (s : State) (c : Cause) : State := s.finishWith (.transportError c)

/-- The end of an attempt (spec/42_scanner.md R96) and the budget check that follows it (R97). It always goes on. -/
def endAttempt (s : State) : Result :=
  let e := expired { s with att := s.att + 1, phase := .hunt }
  .next (if e.1 then e.2.finishWith .noFrame else e.2)

/-- The end of a call (R107): RES and DIAG go to the caller, `PHASE <- IDLE`. Control returns to the caller of SCAN or
READ.MEAS (spec/60_exceptions.md R118). -/
def endCall (s : State) : Result :=
  match s.res with
  | none => .fault .resUnwritten
  | some r => .next ({ s with phase := .idle }.deliver (.scanned r s.diag))

/-- The header has matched (R90). -/
def State.headerMatched (s : State) : State := { s with phase := .cmdWait }

/-- The command byte is latched (R91). -/
def State.latchCommand (s : State) (k : Byte) : State := { s with cmd := some k, phase := .payload }

/-- An incomplete payload (R95): the event, and the end of the attempt. `PAY` holds the bytes read. -/
def incompletePayload (k : Byte) (s : State) : Result :=
  endAttempt (s.emit (.incompleteRead k ([HDR, k] ++ s.pay)))

/-- The Measurement of a payload (R100-R103); its scaled values are PM_TO_FLOAT of the raw ones. -/
def measurementOf (pay : List Byte) : Measurement where
  pm25Raw := Sys2Proof.pm25Raw pay
  pm10Raw := Sys2Proof.pm10Raw pay
  pm25 := Config.pmToFloat (Sys2Proof.pm25Raw pay)
  pm10 := Config.pmToFloat (Sys2Proof.pm10Raw pay)
  status := statusOf pay

/-- The BadPacket event of an Invalid measurement (R104); a Valid one emits nothing. -/
def State.emitBadPacket (s : State) (pay : List Byte) : State :=
  match statusOf pay with
  | .valid => s
  | .invalid => s.emit (.badPacket ([HDR, CMD_MEAS] ++ pay) (ckOk pay) (tailOk pay))

/-- EVAL_MEAS (R99-R104): reads only PAY and always ends the call with a Measurement. -/
def evalMeas (s : State) : State :=
  (s.emitBadPacket s.pay).finishWith (.measurement (measurementOf s.pay))

/-! ## Block reset -/

/-- Block reset (spec/70_reset_and_hazards.md R135; spec/10_state.md R29): every register in its reset state, a call in
progress abandoned without a result, "and the bytes it read stay consumed". The streams and the caller are outside the
block (log 14). -/
def State.blockReset (s : State) : State :=
  { s with phase := .idle, bud := none, cmd := none, pay := [], att := 0, res := none, diag := [],
           resetPending := false }

end Sys2Proof.Machine
end

