-- ==== Sys2Proof/Machine/Checksum.lean ====
section
/-! DEFINITION. CSUM: the checksum operations (spec/41_checksum.md). Combinational functions of their operands
(spec/10_state.md R15); like every operation, one started during an FSCAN call is refused (spec/60_exceptions.md R131;
log 10). -/

namespace Sys2Proof.Machine

/-- CSUM (R83). -/
def execCsum (bs : List Byte) (s : State) : Result :=
  returnResult (.sum (checksum bs)) s

/-- CSUM.TX (R84). -/
def execCsumTx (op : Byte) (mode : Mode) (param : Byte) (s : State) : Result :=
  returnResult (.sum (checksumTx op mode.byte param)) s

/-- CSUM.RX (R85): the Boolean CK_OK; a false result is no exception. -/
def execCsumRx (pay : List Byte) (s : State) : Result :=
  if pay.length ≠ RX_PAYLOAD_LEN then .refused .operandOutsideType
  else returnResult (.check (ckOk pay)) s

end Sys2Proof.Machine
end

