-- ==== Sys2Proof/Machine/Encoder.lean ====
section
/-! DEFINITION. FENC: the ENC family and SEND (spec/40_encoder.md). A frame is a function of the operands alone (R71); like
every operation, one started during an FSCAN call is refused (spec/60_exceptions.md R131; log 10). -/

namespace Sys2Proof.Machine

/-- ENC (R73). -/
def execEnc (op : Byte) (mode : Mode) (param : Byte) (s : State) : Result :=
  returnResult (.tx (frame op mode.byte param)) s

/-- ENC.KIND (R74). -/
def execEncKind (kind : CommandKind) (mode : Mode) (param : Byte) (s : State) : Result :=
  returnResult (.tx (frame kind.opcode mode.byte param)) s

/-- ENC.DUTY (R75). -/
def execEncDuty (minutes : Byte) (s : State) : Result :=
  returnResult (.tx (frame OP_DUTY_CYCLE MODE_SET minutes)) s

/-- ENC.SLEEP (R76). -/
def execEncSleep (s : State) : Result :=
  returnResult (.tx (frame Config.opSleepWake MODE_SET Config.paramSleep)) s

/-- ENC.WAKE (R77). -/
def execEncWake (s : State) : Result :=
  returnResult (.tx (frame Config.opSleepWake MODE_SET Config.paramWake)) s

/-- SEND (R80): the bytes are written as they are; a failed write is returned and not retried. Refused for a length
other than 19 (spec/30_encoding.md R67) and during an FSCAN call (spec/60_exceptions.md R131). -/
def execSend (tx : List Byte) (s : State) : Result :=
  if tx.length ≠ TX_LEN then .refused .operandOutsideType
  else
    let w := sinkWrite tx s
    startOperation s (.next (w.2.deliver (.sent (sendResult w.1))))

end Sys2Proof.Machine
end

