-- ==== Sys2Proof/Machine/Scanner.lean ====
section
/-! DEFINITION. FSCAN: the two operations that start a call (spec/42_scanner.md R89, R108) and the four inbound units
it recognises, each as the step that decides its class (R90, R91, R93, R94; log 9). -/

namespace Sys2Proof.Machine

/-- SCAN (R89): starts a call from the state of spec/10_state.md R30; the steps that follow run it. -/
def execScan (b : Budget) (s : State) : Result := beginCall b s

/-- READ.MEAS (R108): `return SCAN(budget)`, the same start with the same operand. -/
def execReadMeas (b : Budget) (s : State) : Result := beginCall b s

/-- The Condition of R93 and R94: `PHASE = PAYLOAD` and CMD holds the class's command byte. -/
def inPayload (k : Byte) (pay : List Byte) (s : State) (run : Result) : Result :=
  if pay.length ≠ RX_PAYLOAD_LEN then .refused .operandOutsideType
  else if s.phase ≠ .payload then .refused .outsideItsStep
  else match s.cmd with
    | none => .fault .cmdUnwritten
    | some c => if c = k then run else .refused .outsideItsStep

/-- RXF.MEAS (R93, R99-R104): `PAY <- s`, and the evaluation, which ends the call. -/
def execRxfMeas (pay : List Byte) (s : State) : Result :=
  inPayload CMD_MEAS pay s (.next (evalMeas { s with pay := pay }))

/-- RXF.ACK (R94): `PAY <- s; RES <- Acknowledgment; PHASE <- DONE`; no byte is checked. -/
def execRxfAck (pay : List Byte) (s : State) : Result :=
  inPayload CMD_ACK pay s (.next ({ s with pay := pay }.finishWith .acknowledgment))

/-- RXF.FALSEPOS (R91): the header and the byte after it, if one arrived, are dropped and the attempt ends. -/
def execRxfFalsePos (k : Option Byte) (s : State) : Result :=
  if k = some CMD_MEAS ∨ k = some CMD_ACK then .refused .operandOutsideType
  else if s.phase ≠ .cmdWait then .refused .outsideItsStep
  else endAttempt s

/-- RX.NOISE (R90): the byte is discarded and the attempt ends. -/
def execRxNoise (b : Byte) (s : State) : Result :=
  if b = HDR then .refused .operandOutsideType
  else if s.phase ≠ .hunt then .refused .outsideItsStep
  else endAttempt s

end Sys2Proof.Machine
end

