-- ==== Sys2Proof/Machine/Dispatch.lean ====
section
/-! DEFINITION. One arm per constructor of Instr. -/

namespace Sys2Proof.Machine

def exec (i : Instr) (s : State) : Host.Outcome State Fault Refusal :=
  match i with
  | .enc op mode param => Sys2Proof.Machine.execEnc op mode param s
  | .encKind kind mode param => Sys2Proof.Machine.execEncKind kind mode param s
  | .encDuty minutes => Sys2Proof.Machine.execEncDuty minutes s
  | .encSleep => Sys2Proof.Machine.execEncSleep s
  | .encWake => Sys2Proof.Machine.execEncWake s
  | .send tx => Sys2Proof.Machine.execSend tx s
  | .csum bs => Sys2Proof.Machine.execCsum bs s
  | .csumTx op mode param => Sys2Proof.Machine.execCsumTx op mode param s
  | .csumRx pay => Sys2Proof.Machine.execCsumRx pay s
  | .scan b => Sys2Proof.Machine.execScan b s
  | .readMeas b => Sys2Proof.Machine.execReadMeas b s
  | .rxfMeas pay => Sys2Proof.Machine.execRxfMeas pay s
  | .rxfAck pay => Sys2Proof.Machine.execRxfAck pay s
  | .rxfFalsePos k => Sys2Proof.Machine.execRxfFalsePos k s
  | .rxNoise b => Sys2Proof.Machine.execRxNoise b s

end Sys2Proof.Machine
end

