-- ==== Sys2Proof/Machine/Fetch.lean ====
section
/-! DEFINITION. Where the machine gets its next instruction. In IDLE it is the caller's next operation; during an FSCAN
call it is the inbound unit that the bytes of the current attempt make up. One function for each value of PHASE
(spec/10_state.md R17; spec/42_scanner.md R89-R98, R107). -/

namespace Sys2Proof.Machine

/-- Keep the frame of a named ENC-family operation under its name. R69 of spec/30_encoding.md lets a line name its result
and says no more of names. DESIGN CHOICE (log 7): any word is a name; of two frames given one name the newer stands
(`lookupName`); a name given to a result that is no ENC-family frame is dropped, and where the name already stands for a
frame it goes on standing for that frame, so a later SEND of it writes the older frame. -/
def State.bindName (s : State) (r : Request) : State :=
  match r.name, r.op.frame? with
  | some n, some f => { s with names := (n, f) :: s.names }
  | _, _ => s

/-- Keep the name of a request's result where the operation ran. -/
def bindResult (r : Request) : Result → Result
  | .next t => .next (t.bindName r)
  | .fault f => .fault f
  | .refused e => .refused e

/-- IDLE: the caller's next operation; with none the block waits (spec/70_reset_and_hazards.md R135). -/
def idleStep (s : State) : Result :=
  match s.requests with
  | [] => .next s
  | bs :: rest =>
    match decodeRequest s.names bs with
    | .error e => .refused (.undecodable e)
    | .ok r => bindResult r (exec r.op { s with requests := rest })

/-- Run the inbound unit that the bytes of an attempt make up. -/
def runUnit (bs : List Byte) (s : State) : Result :=
  match decodeUnit bs with
  | .error e => .refused (.undecodable e)
  | .ok i => exec i s

/-- HUNT (spec/42_scanner.md R90): one byte. The header moves to CMDWAIT; no byte ends the attempt; any other byte is a
unit of its own. -/
def huntStep (s : State) : Result :=
  match srcRead 1 s with
  | (.err c, t) => .next (t.raiseTransportFault c)
  | (.bytes [], t) => endAttempt t
  | (.bytes (b :: bs), t) => if b = HDR then .next t.headerMatched else runUnit (b :: bs) t

/-- CMDWAIT (R91): one byte. A command byte is latched; any other byte, or none, makes the header a false positive. -/
def cmdWaitStep (s : State) : Result :=
  match srcRead 1 s with
  | (.err c, t) => .next (t.raiseTransportFault c)
  | (.bytes bs, t) =>
    if bs = [CMD_MEAS] ∨ bs = [CMD_ACK] then .next (t.latchCommand (byteAt bs 0)) else runUnit (HDR :: bs) t

/-- PAYLOAD (R93, R94): one read of 8 bytes. A whole payload makes the frame a unit; a short one is incomplete (R95). -/
def payloadStep (s : State) : Result :=
  match s.cmd with
  | none => .fault .cmdUnwritten
  | some k =>
    if k ≠ CMD_MEAS ∧ k ≠ CMD_ACK then .fault .cmdIllegal
    else match srcRead RX_PAYLOAD_LEN s with
      | (.err c, t) => .next (t.raiseTransportFault c)
      | (.bytes bs, t) =>
        if bs.length = RX_PAYLOAD_LEN then runUnit (HDR :: k :: bs) t
        else incompletePayload k { t with pay := bs }

/-- The step of the current PHASE. -/
def phaseStep (s : State) : Result :=
  match s.phase with
  | .idle => idleStep s
  | .hunt => huntStep s
  | .cmdWait => cmdWaitStep s
  | .payload => payloadStep s
  | .done => endCall s

/-! ## Placing an instruction where the step finds it next (for withFetchWord; log 6, log 9) -/

/-- Put bytes at the front of what the source will deliver. -/
def Source.push (bs : List Byte) : Source → Source
  | .prompt q => .prompt (bs ++ q)
  | .oracle answers => .oracle (.bytes bs :: answers)

/-- Put an operation at the front of the caller's list, with no call in progress. -/
def State.placeRequest (s : State) (bs : List Byte) : State :=
  { s with resetPending := false, phase := .idle, requests := bs :: s.requests }

/-- Put an inbound unit where FSCAN reads it: the bytes before its deciding read already read, the others at the front of
the source. A call needs a budget; where none is latched, Unlimited. -/
def State.placeUnit (s : State) (bs : List Byte) : State :=
  let s := { s with resetPending := false, bud := some (s.bud.getD .unlimited) }
  match bs with
  | _ :: k :: p :: pay => { s with phase := .payload, cmd := some k, source := s.source.push (p :: pay) }
  | [_, k] => { s with phase := .cmdWait, source := s.source.push [k] }
  | bs => { s with phase := .hunt, source := s.source.push bs }

/-- Place a table row's word. -/
def State.placeTableWord (s : State) (nbits w : Nat) : State :=
  if nbits = 8 * TX_LEN then s.placeRequest (tableBytes nbits w) else s.placeUnit (tableBytes nbits w)

end Sys2Proof.Machine
end

