-- ==== Sys2Proof/Machine/Step.lean ====
section
/-! DEFINITION. One step of the machine: a block reset where one is asked for, else the step of the current PHASE. -/

namespace Sys2Proof.Machine

/-- One step (spec/42_scanner.md: "Each step performs at most one `SrcRead` and moves `PHASE`";
spec/70_reset_and_hazards.md R135 for the reset). -/
def step (s : State) : Host.Outcome State Fault Refusal :=
  if s.resetPending then .next s.blockReset else phaseStep s

/-- `s` with the instruction of a table row's word stored where the step fetches it next. -/
def State.withFetchWord (s : State) (nbits w : Nat) : State := s.placeTableWord nbits w

end Sys2Proof.Machine
end

