-- ==== Sys2Proof/Machine/Errors.lean ====
section
/-! DEFINITION. The five error classes of spec/60_exceptions.md R111: their codes, what they record, how they are
disposed of, and which of them the next step raises. They are labels over what the steps do: no step reads them. -/

namespace Sys2Proof.Machine

/-- "The block has exactly five error classes" (R111). -/
inductive ErrorClass where
  | protocolDesync
  | checksumMismatch
  | tailMismatch
  | incompleteRead
  | transportFault
  deriving DecidableEq, Repr

/-- The numeric codes of R111. -/
def ErrorClass.code : ErrorClass → Nat
  | .protocolDesync => 1
  | .checksumMismatch => 2
  | .tailMismatch => 3
  | .incompleteRead => 4
  | .transportFault => 5

/-- How a class is disposed of (R111, last column). -/
inductive Disposition where
  /-- recovered inside the call -/
  | recovered
  /-- status Invalid in the Measurement result -/
  | statusInvalid
  /-- the call's result is TransportError -/
  | callResult
  deriving DecidableEq, Repr

/-- The disposition of R111. -/
def ErrorClass.disposition : ErrorClass → Disposition
  | .protocolDesync => .recovered
  | .checksumMismatch => .statusInvalid
  | .tailMismatch => .statusInvalid
  | .incompleteRead => .recovered
  | .transportFault => .callResult

/-- Whether a class is recorded as a diagnostic event (R111, "what it records"). -/
def ErrorClass.logged : ErrorClass → Bool
  | .protocolDesync => false
  | .checksumMismatch => true
  | .tailMismatch => true
  | .incompleteRead => true
  | .transportFault => false

/-- The mismatches of a whole measurement payload (R111 codes 2 and 3; both can hold, R114). -/
def payloadErrors (pay : List Byte) : List ErrorClass :=
  (if ckOk pay then [] else [.checksumMismatch]) ++ (if tailOk pay then [] else [.tailMismatch])

/-- The classes the answer of the current step's read raises (R111, R115). A read that returns no byte at the header or
the command position "is a ProtocolDesync case" (R115; log 20). -/
def answerErrors (phase : Phase) (cmd : Option Byte) : SrcAnswer → List ErrorClass
  | .err _ => [.transportFault]
  | .bytes bs =>
    match phase with
    | .hunt => if bs = [HDR] then [] else [.protocolDesync]
    | .cmdWait => if bs = [CMD_MEAS] ∨ bs = [CMD_ACK] then [] else [.protocolDesync]
    | .payload =>
      if bs.length < RX_PAYLOAD_LEN then [.incompleteRead]
      else if cmd = some CMD_MEAS then payloadErrors bs else []
    | .idle => []
    | .done => []

/-- How many bytes the step of a phase reads (spec/20_memory.md R38). -/
def Phase.readSize : Phase → Nat
  | .hunt => 1
  | .cmdWait => 1
  | .payload => RX_PAYLOAD_LEN
  | .idle => 0
  | .done => 0

/-- The error classes the step from `s` raises; none outside a call's reading phases. -/
def stepErrors (s : State) : List ErrorClass :=
  match s.phase with
  | .idle => []
  | .done => []
  | .hunt => answerErrors .hunt s.cmd (srcRead (Phase.readSize .hunt) s).1
  | .cmdWait => answerErrors .cmdWait s.cmd (srcRead (Phase.readSize .cmdWait) s).1
  | .payload => answerErrors .payload s.cmd (srcRead (Phase.readSize .payload) s).1

end Sys2Proof.Machine
end

