-- ==== Sys2Proof/Safety.lean ====
section
/-! DEFINITION. The terms claims use: the invariant of the registers, runs of several steps, the phases of a call, and
the premises a claim may take about the clock (spec/10_state.md R16-R21; spec/60_exceptions.md R123, R128). -/

namespace Sys2Proof.Machine

/-- `k` steps, stopping at the first fault or refusal. -/
def steps : Nat → State → Result
  | 0, s => .next s
  | k + 1, s =>
    match step s with
    | .next t => steps k t
    | .fault f => .fault f
    | .refused r => .refused r

/-- The phases in which a call reads the inbound stream. -/
def State.scanning (s : State) : Bool := decide (s.phase = .hunt ∨ s.phase = .cmdWait ∨ s.phase = .payload)

/-- Where PHASE can go in one step (spec/10_state.md R17 with spec/42_scanner.md R89-R98, R107). -/
def Phase.successors : Phase → List Phase
  | .idle => [.idle, .hunt]
  | .hunt => [.hunt, .cmdWait, .done]
  | .cmdWait => [.hunt, .payload, .done]
  | .payload => [.hunt, .done]
  | .done => [.idle]

/-- A diagnostic event as spec/60_exceptions.md R128 describes it. -/
def DiagEvent.wf : DiagEvent → Bool
  | .incompleteRead cmd raw =>
    decide ((cmd = CMD_MEAS ∨ cmd = CMD_ACK) ∧ raw.take 2 = [HDR, cmd] ∧ 2 ≤ raw.length ∧ raw.length ≤ 9)
  | .badPacket raw ck tl =>
    decide (raw.take 2 = [HDR, CMD_MEAS] ∧ raw.length = RX_FRAME_LEN ∧ ck = ckOk (raw.drop 2) ∧
      tl = tailOk (raw.drop 2)) && !(ck && tl)

/-- The register invariant: CMD holds only the two command bytes (R18), PAY at most 8 bytes (R19), BUD a Budget (R21),
DIAG the two kinds of event (R128); and each phase finds the registers its step reads (R16). -/
structure State.Inv (s : State) : Prop where
  cmd_legal : ∀ k, s.cmd = some k → k = CMD_MEAS ∨ k = CMD_ACK
  pay_short : s.pay.length ≤ RX_PAYLOAD_LEN
  bud_wf : ∀ b, s.bud = some b → b.wf = true
  diag_wf : ∀ e, e ∈ s.diag → e.wf = true
  bud_written : s.scanning = true → s.bud.isSome = true
  res_unwritten : s.scanning = true → s.res = none
  cmd_written : s.phase = .payload → s.cmd.isSome = true
  res_written : s.phase = .done → s.res.isSome = true

/-- The registers of FSCAN that spec/10_state.md R16 lists hold the same in two states. -/
def sameRegisters (s t : State) : Prop :=
  s.phase = t.phase ∧ s.bud = t.bud ∧ s.cmd = t.cmd ∧ s.pay = t.pay ∧ s.att = t.att ∧ s.res = t.res ∧ s.diag = t.diag

/-- Neither stream has moved: nothing read, nothing written, no draw of the clock. -/
def sameStreams (s t : State) : Prop :=
  s.source = t.source ∧ s.taken = t.taken ∧ s.srcReads = t.srcReads ∧ s.sink = t.sink ∧ s.outbound = t.outbound ∧
  s.sinkWrites = t.sinkWrites ∧ s.clock = t.clock ∧ s.clockDraws = t.clockDraws

/-- The environment of a call answers the same in two states. -/
def sameInputs (s t : State) : Prop :=
  s.source = t.source ∧ s.srcReads = t.srcReads ∧ s.clock = t.clock ∧ s.clockDraws = t.clockDraws

/-- Clock fairness for the free draws (spec/60_exceptions.md R123): no tail of them is false for ever. A premise a claim
takes, not a fact of the model (log 5). -/
def ClockFair : Prop := ∀ n, ∃ m, n ≤ m ∧ Config.freeExpired m = true

/-- A word that can be a name (log 7): it is not empty, no blank, punctuation or semicolon stands in it, and it does not
begin with the header byte, which would make the line a 19-byte word (log 8). -/
def isName (n : List Byte) : Prop := n ≠ [] ∧ n.all isWordChar = true ∧ n.head? ≠ some HDR

/-- A line in the syntax of spec/30_encoding.md R69 that reads as this mnemonic and these operands, named or not. -/
def lineReads (line mnemonic : List Byte) (operands : List Token) : Prop :=
  line.head? ≠ some HDR ∧ ∃ naming : List Token, (naming = [] ∨ ∃ n, naming = [.word n, .equals]) ∧
    tokens line [] = naming ++ .word mnemonic :: operands

/-- A byte literal above 255 (spec/30_encoding.md R54, R69). -/
def wideLiteral (w : List Byte) : Prop := ∃ n, literal? w = some n ∧ 255 < n

/-- Three operands of which the mode is neither SET nor GET, or another is a byte literal above 255. -/
def tripleOutsideWidth (operands : List Token) : Prop :=
  ∃ first mode param, operands = [.word first, .comma, .word mode, .comma, .word param] ∧
    ((mode ≠ kwSet ∧ mode ≠ kwGet) ∨ wideLiteral first ∨ wideLiteral param)

/-- The same of the operands of an ENC-family mnemonic. -/
def encOutsideWidth (mnemonic : List Byte) (operands : List Token) : Prop :=
  ((mnemonic = kwEnc ∨ mnemonic = kwEncKind) ∧ tripleOutsideWidth operands) ∨
  (mnemonic = kwEncDuty ∧ ∃ w, operands = [.word w] ∧ wideLiteral w)

/-- The tokens after a mnemonic of spec/30_encoding.md R69 in which a mode is neither SET nor GET, or a byte literal is above
255: of an ENC-family line, of such a line in the parentheses of SEND, of CSUM.TX, and of the operations that take a list. -/
def operandOutsideWidth (mnemonic : List Byte) (operands : List Token) : Prop :=
  encOutsideWidth mnemonic operands ∨
  (mnemonic = kwCsumTx ∧ tripleOutsideWidth operands) ∨
  ((mnemonic = kwCsum ∨ mnemonic = kwCsumRx ∨ mnemonic = kwSend) ∧
    ∃ elements w, operands = .lbracket :: elements ∧ .word w ∈ elements ∧ wideLiteral w) ∨
  (mnemonic = kwSend ∧ ∃ m inner, operands = .lparen :: .word m :: (inner ++ [.rparen]) ∧ encOutsideWidth m inner)

/-- The tokens after SCAN or READ.MEAS are one word, and it is neither UNLIMITED nor a number: "a Budget that is negative or
not a Duration" (spec/30_encoding.md R67), `-1` among them. -/
def budgetOutsideType (mnemonic : List Byte) (operands : List Token) : Prop :=
  (mnemonic = kwScan ∨ mnemonic = kwReadMeas) ∧ ∃ w, operands = [.word w] ∧ w ≠ kwUnlimited ∧ literal? w = none

/-- The tokens after SEND or CSUM.RX are a list of bytes of another length than 19 or 8 (spec/30_encoding.md R67). -/
def lengthOutsideType (mnemonic : List Byte) (operands : List Token) : Prop :=
  ∃ bs, parseList operands = .ok bs ∧
    ((mnemonic = kwSend ∧ bs.length ≠ TX_LEN) ∨ (mnemonic = kwCsumRx ∧ bs.length ≠ RX_PAYLOAD_LEN))

end Sys2Proof.Machine
end

