-- ==== Sys2Proof/Certificates/Slice0/Obligations.lean ====
section
/-! DEFINITION. The statements for the provers. Each docstring names the rule of spec/ it formalises, or the model's or
the spec's own choice it rests on. The words of a docstring are those of OBLIGATIONS.json. -/

open Sys2Proof Sys2Proof.Machine

/-! ## Reset, waiting, block reset -/

/-- Reset leaves PHASE IDLE, BUD, CMD and RES unwritten, PAY and DIAG empty, ATT 0, and the ByteSource unconstrained; the
block then waits: in IDLE with nothing asked for, a step changes nothing (spec/10_state.md section 8 and
spec/70_reset_and_hazards.md section 1; the spec's own decision D23, and log 6). -/
def Obligations.ResetStateWaitsInIdle : Prop :=
  State.reset.phase = .idle ∧ State.reset.bud = none ∧ State.reset.cmd = none ∧ State.reset.pay = [] ∧
  State.reset.att = 0 ∧ State.reset.res = none ∧ State.reset.diag = [] ∧ State.reset.source = .oracle [] ∧
  (∀ s : State, s.resetPending = false → s.phase = .idle → s.requests = [] → step s = .next s)

/-- A block reset puts every register in its reset state, abandons a call in progress without a result, and leaves the
bytes read consumed (spec/70_reset_and_hazards.md R135; the spec's own decision D23, and log 14). -/
def Obligations.BlockResetAbandonsCall : Prop :=
  ∀ s : State, s.resetPending = true →
    ∃ t, step s = .next t ∧ sameRegisters t State.reset ∧ t.resetPending = false ∧ sameStreams s t ∧
      t.results = s.results ∧ t.requests = s.requests ∧ t.names = s.names

/-! ## The register invariant -/

/-- The register invariant holds at reset (spec/10_state.md R16-R21; log 1). -/
def Obligations.ResetMeetsRegisterInvariant : Prop := State.reset.Inv

/-- Every step keeps the register invariant: CMD holds only 0xC0 or 0xC5, PAY at most 8 bytes, BUD a Budget, DIAG the two
kinds of event, and each phase finds its registers written (spec/10_state.md R16-R21; spec/60_exceptions.md R128). -/
def Obligations.StepKeepsRegisterInvariant : Prop :=
  ∀ s t : State, s.Inv → step s = .next t → t.Inv

/-- From a state that meets the invariant no step faults: no rule reads an unwritten register (spec/10_state.md R18, R29). -/
def Obligations.NoStepFaults : Prop :=
  ∀ (s : State) (f : Fault), s.Inv → step s ≠ .fault f

/-- During a call every step goes on, whatever the ByteSource answers (spec/30_encoding.md R66: "No incoming unit traps";
spec/20_memory.md R40). -/
def Obligations.CallNeverStops : Prop :=
  ∀ s : State, s.Inv → s.phase ≠ .idle → ∃ t, step s = .next t

/-- CMD: unwritten at call start; a step writes it only in CMDWAIT, with the byte 0xC0 or 0xC5 it has just read; a
PAYLOAD step that finds it unwritten faults; no step of a call does so, the invariant holding (spec/10_state.md R18). -/
def Obligations.CommandRegisterRule : Prop :=
  (∀ (s t : State) (b : Budget), exec (.scan b) s = .next t → t.cmd = none) ∧
  (∀ (s t : State) (k : Byte), step s = .next t → t.cmd = some k →
    s.cmd = some k ∨ (s.phase = .cmdWait ∧ (k = 0xC0 ∨ k = 0xC5) ∧ (srcRead 1 s).1 = .bytes [k])) ∧
  (∀ s : State, s.resetPending = false → s.phase = .payload → s.cmd = none → step s = .fault .cmdUnwritten) ∧
  (∀ s : State, s.Inv → step s ≠ .fault .cmdUnwritten)

/-! ## Decoding -/

/-- In IDLE, where the caller's next request decodes, the step is exec of the operation on the state without that request;
a name given to an ENC-family result enters the names with its frame, any other name is dropped; a request that does not
decode is refused with its reason (spec/30_encoding.md R62, R67, R69; the spec's own decision D8, and log 6, log 7). -/
def Obligations.DecodedOperationRuns : Prop :=
  ∀ (s : State) (bs : List Byte) (rest : List (List Byte)),
    s.resetPending = false → s.phase = .idle → s.requests = bs :: rest →
    (∀ r : Request, decodeRequest s.names bs = .ok r →
      step s = bindResult r (exec r.op { s with requests := rest }) ∧
      (r.name = none → step s = exec r.op { s with requests := rest }) ∧
      (r.op.frame? = none → step s = exec r.op { s with requests := rest }) ∧
      (∀ (n f : List Byte), r.name = some n → r.op.frame? = some f →
        step s = .next { s with requests := rest, results := s.results ++ [.tx f], names := (n, f) :: s.names })) ∧
    (∀ e : DecodeError, decodeRequest s.names bs = .error e → step s = .refused (.undecodable e))

/-- During a call, where the bytes of the attempt with the bytes just read make an inbound unit, the step is exec of that
unit on the state after the read (spec/30_encoding.md R58; log 9). -/
def Obligations.DecodedUnitRuns : Prop :=
  ∀ (s t : State) (bs : List Byte) (i : Instr), s.resetPending = false →
    (s.phase = .hunt → srcRead 1 s = (.bytes bs, t) → bs ≠ [0xAA] → decodeUnit bs = .ok i → step s = exec i t) ∧
    (s.phase = .cmdWait → srcRead 1 s = (.bytes bs, t) → decodeUnit (0xAA :: bs) = .ok i → step s = exec i t) ∧
    (∀ k, s.phase = .payload → s.cmd = some k → k = 0xC0 ∨ k = 0xC5 → srcRead 8 s = (.bytes bs, t) →
      decodeUnit (0xAA :: k :: bs) = .ok i → step s = exec i t)

/-- Words written out from the spec's encodings decode to the instructions they stand for: ENC.DUTY 5 and SCAN 0 as lines
(spec/30_encoding.md R69), the frame of ENC.DUTY 5 (spec/40_encoder.md R75), which is read back as ENC 0x08, SET, 5 (the
model's choice, log 8), and one unit of each class (R50). -/
def Obligations.SpecWordsDecode : Prop :=
  decodeRequest [] (ascii ['E', 'N', 'C', '.', 'D', 'U', 'T', 'Y', ' ', '5']) = .ok ⟨none, .encDuty 5⟩ ∧
  decodeRequest [] (ascii ['S', 'C', 'A', 'N', ' ', '0']) = .ok ⟨none, .scan .zero⟩ ∧
  decodeTxf [0xAA, 0xB4, 0x08, 0x01, 0x05, 0, 0, 0, 0, 0, 0, 0, 0, 0, 0, 0xFF, 0xFF, 0x0C, 0xAB] = .ok (.enc 0x08 .set 5) ∧
  decodeUnit [0xAA, 0xC0, 0x7B, 0x00, 0x2D, 0x00, 0x01, 0x02, 0xAB, 0xAB] =
    .ok (.rxfMeas [0x7B, 0x00, 0x2D, 0x00, 0x01, 0x02, 0xAB, 0xAB]) ∧
  decodeUnit [0xAA, 0xC5, 0x08, 0x01, 0x05, 0, 0, 0, 0, 0] = .ok (.rxfAck [0x08, 0x01, 0x05, 0, 0, 0, 0, 0]) ∧
  decodeUnit [0xAA, 0x99] = .ok (.rxfFalsePos (some 0x99)) ∧ decodeUnit [0x01] = .ok (.rxNoise 0x01)

/-- Decoding the line of every well-formed operation gives the operation back, with every operand at every value. Any line
may carry `name = ` in front, and then decodes to the same operation under that name. SEND takes a list of bytes, a name,
which stands for the newest frame given under it, or any ENC-family line in parentheses, which stands for its frame; a name
that stands for no frame is refused (spec/30_encoding.md R69; the syntax is the spec's own decision D28; how SEND's operand
is written, what a name may be and what a name given twice stands for are the model's choices, log 7). -/
def Obligations.OperationLinesRoundTrip : Prop :=
  (∀ (names : List (List Byte × List Byte)) (i : Instr), i.isUnit = false → i.wf = true →
    decodeRequest names (encode i) = .ok ⟨none, i⟩) ∧
  (∀ (names : List (List Byte × List Byte)) (n line : List Byte) (i : Instr), isName n → line.head? ≠ some 0xAA →
    decodeRequest names line = .ok ⟨none, i⟩ →
    decodeRequest names (n ++ ascii [' ', '=', ' '] ++ line) = .ok ⟨some n, i⟩) ∧
  (∀ (names : List (List Byte × List Byte)) (n : List Byte), isName n →
    (∀ f, lookupName names n = some f → f.length = 19 →
      decodeRequest names (kwSend ++ ascii [' '] ++ n) = .ok ⟨none, .send f⟩) ∧
    (∀ f, lookupName names n = some f → f.length ≠ 19 →
      decodeRequest names (kwSend ++ ascii [' '] ++ n) = .error .illFormed) ∧
    (lookupName names n = none → decodeRequest names (kwSend ++ ascii [' '] ++ n) = .error .unknownName) ∧
    (∀ f, lookupName ((n, f) :: names) n = some f) ∧
    (∀ m f, m ≠ n → lookupName ((m, f) :: names) n = lookupName names n)) ∧
  (∀ (names : List (List Byte × List Byte)) (line f : List Byte) (i : Instr), line.head? ≠ some 0xAA →
    0x3B ∉ line → decodeRequest names line = .ok ⟨none, i⟩ → i.frame? = some f →
    decodeRequest names (kwSend ++ ascii [' ', '('] ++ line ++ ascii [')']) = .ok ⟨none, .send f⟩) ∧
  (∀ (names : List (List Byte × List Byte)) (i : Instr) (f : List Byte), i.frame? = some f →
    decodeRequest names (kwSend ++ ascii [' ', '('] ++ encode i ++ ascii [')']) = .ok ⟨none, .send f⟩)

/-- Inbound units decode both ways: every well-formed unit's bytes give it back, and every byte sequence that decodes is
the bytes of the one unit it decodes to (spec/30_encoding.md R50, R57, R58). -/
def Obligations.UnitsRoundTripBothWays : Prop :=
  (∀ i : Instr, i.isUnit = true → i.wf = true → decodeUnit (encode i) = .ok i) ∧
  (∀ (bs : List Byte) (i : Instr), decodeUnit bs = .ok i → i.isUnit = true ∧ i.wf = true ∧ encode i = bs)

/-- A 19-byte word is the ENC whose result it is, offset 17 being the sum over all bytes between the second header byte and
it; any other 19 bytes are the operand of a SEND; a word of another length is refused (spec/30_encoding.md R56;
spec/41_checksum.md R86; log 8). -/
def Obligations.FramePatternIsEnc : Prop :=
  (∀ (op param : Byte) (m : Mode), decodeWord (frame op m.byte param) = .ok (.enc op m param)) ∧
  (∀ t : List Byte, t.length = 19 → (∀ (op param : Byte) (m : Mode), t ≠ frame op m.byte param) →
    decodeWord t = .ok (.send t)) ∧
  (∀ t : List Byte, t.length ≠ 19 → decodeWord t = .error .notAFrame) ∧
  (∀ (t : List Byte) (i : Instr), decodeWord t = .ok i →
    (∃ op m param, i = .enc op m param ∧ t = frame op m.byte param ∧ t.getD 17 0 = checksum ((t.drop 2).take 15)) ∨
    (i = .send t ∧ t.length = 19 ∧ ∀ op m param, t ≠ frame op (Mode.byte m) param))

/-- Whatever bytes the caller hands over, what the decoder accepts is a well-formed operation and no inbound unit
(spec/30_encoding.md R67; the spec's own decision D8). -/
def Obligations.DecodedRequestsAreOperations : Prop :=
  ∀ (names : List (List Byte × List Byte)) (bs : List Byte) (r : Request),
    decodeRequest names bs = .ok r → r.op.wf = true ∧ r.op.isUnit = false

/-- Every unit has a fixed length that at most its first two bytes give, whatever bytes follow; a header with
no byte after it is one byte (spec/30_encoding.md R50, R58). -/
def Obligations.UnitLengthFromTwoBytes : Prop :=
  (∀ op mb param : Byte, (frame op mb param).length = 19) ∧
  (∀ pay rest : List Byte, pay.length = 8 →
    unitLength (encode (.rxfMeas pay) ++ rest) = 10 ∧ (encode (.rxfMeas pay)).length = 10 ∧
    unitLength (encode (.rxfAck pay) ++ rest) = 10 ∧ (encode (.rxfAck pay)).length = 10) ∧
  (∀ (k : Byte) (rest : List Byte), k ≠ 0xC0 → k ≠ 0xC5 →
    unitLength (encode (.rxfFalsePos (some k)) ++ rest) = 2 ∧ (encode (.rxfFalsePos (some k))).length = 2) ∧
  unitLength (encode (.rxfFalsePos none)) = 1 ∧
  (∀ (b : Byte) (rest : List Byte), b ≠ 0xAA → unitLength (encode (.rxNoise b) ++ rest) = 1)

/-! ## FENC -/

/-- The 19 bytes of an outgoing frame (spec/30_encoding.md R55). -/
def Obligations.FrameLayout : Prop :=
  ∀ (op param : Byte) (m : Mode),
    frame op m.byte param =
      [0xAA, 0xB4, op, (match m with | .set => 0x01 | .get => 0x00), param, 0, 0, 0, 0, 0, 0, 0, 0, 0, 0, 0xFF, 0xFF,
       checksum [op, m.byte, param, 0xFF, 0xFF], 0xAB]

/-- ENC in IDLE returns the frame of its operands, changing nothing else. A mode word other than SET and GET is no Mode, and
a line whose mode is such a word, or one of whose byte literals is above 255, is refused, whichever operation it names
(spec/40_encoder.md R73; spec/30_encoding.md R67, the spec's own decision D8; the model's choice log 7). -/
def Obligations.EncReturnsFrame : Prop :=
  (∀ (op param : Byte) (m : Mode) (s : State), s.phase = .idle →
    exec (.enc op m param) s = .next { s with results := s.results ++
      [.tx [0xAA, 0xB4, op, m.byte, param, 0, 0, 0, 0, 0, 0, 0, 0, 0, 0, 0xFF, 0xFF,
        BitVec.ofNat 8 (op.toNat + m.byte.toNat + param.toNat + 255 + 255), 0xAB]] }) ∧
  (∀ w : List Byte, w ≠ ascii ['S', 'E', 'T'] → w ≠ ascii ['G', 'E', 'T'] → parseMode w = .error .notAMode) ∧
  (∀ (s : State) (line : List Byte) (rest : List (List Byte)) (mnemonic : List Byte) (operands : List Token),
    s.resetPending = false → s.phase = .idle → s.requests = line :: rest →
    lineReads line mnemonic operands → operandOutsideWidth mnemonic operands →
    ∃ e, decodeRequest s.names line = .error e ∧ step s = .refused (.undecodable e))

/-- ENC.KIND, ENC.DUTY, ENC.SLEEP and ENC.WAKE in IDLE return their frames, changing nothing else (spec/40_encoder.md
R74-R77; the kinds and the mode SET of sleep and wake are the spec's own decisions D6, D7). -/
def Obligations.EncPseudoOperationsReturnFrames : Prop :=
  (∀ (k : CommandKind) (m : Mode) (param : Byte) (s : State), s.phase = .idle →
    exec (.encKind k m param) s = .next { s with results := s.results ++
      [.tx (frame (match k with | .mode => Config.opMode | .dutyCycle => 0x08 | .sleepWake => Config.opSleepWake)
        m.byte param)] }) ∧
  (∀ (minutes : Byte) (s : State), s.phase = .idle →
    exec (.encDuty minutes) s = .next { s with results := s.results ++
      [.tx [0xAA, 0xB4, 0x08, 0x01, minutes, 0, 0, 0, 0, 0, 0, 0, 0, 0, 0, 0xFF, 0xFF, minutes + 0x07, 0xAB]] }) ∧
  (∀ s : State, s.phase = .idle → exec .encSleep s = .next { s with results := s.results ++
    [.tx (frame Config.opSleepWake 0x01 Config.paramSleep)] }) ∧
  (∀ s : State, s.phase = .idle → exec .encWake s = .next { s with results := s.results ++
    [.tx (frame Config.opSleepWake 0x01 Config.paramWake)] })

/-- Every ENC-family result, of whichever operation, is 19 bytes, starts AA B4, has at offset 17 the sum of offsets 2, 3
and 4 and 255 and 255 modulo 256, and ends AB (spec/40_encoder.md R78). -/
def Obligations.EveryFrameMeetsEncoderLaw : Prop :=
  ∀ (i : Instr) (s t : State) (f : List Byte), exec i s = .next t → t.results = s.results ++ [.tx f] →
    f.length = 19 ∧ f.take 2 = [0xAA, 0xB4] ∧
    (f.getD 17 0).toNat = ((f.getD 2 0).toNat + (f.getD 3 0).toNat + (f.getD 4 0).toNat + 255 + 255) % 256 ∧
    f.getD 18 0 = 0xAB

/-- Each ENC-family operation has one 19-byte result, the same from every state in IDLE, whatever happened before, and
changes no register and no stream (spec/40_encoder.md R79, and section 1 of that file). -/
def Obligations.EncFamilyIsPure : Prop :=
  ∀ i : Instr, i.frame?.isSome = true →
    ∃ f : List Byte, f.length = 19 ∧
      ∀ s : State, s.phase = .idle → ∃ t, exec i s = .next t ∧ t.results = s.results ++ [.tx f] ∧
        sameRegisters s t ∧ sameStreams s t ∧ t.requests = s.requests ∧ t.names = s.names ∧ t.resetPending = s.resetPending

/-- The six expansions are exact: from every state the pseudo-operation does what its expansion does
(spec/30_encoding.md R70). -/
def Obligations.ExpansionsAreExact : Prop :=
  (∀ (m : Byte) (s : State), exec (.encDuty m) s = exec (.enc 0x08 .set m) s) ∧
  (∀ s : State, exec .encSleep s = exec (.enc Config.opSleepWake .set Config.paramSleep) s) ∧
  (∀ s : State, exec .encWake s = exec (.enc Config.opSleepWake .set Config.paramWake) s) ∧
  (∀ (k : CommandKind) (m : Mode) (p : Byte) (s : State), exec (.encKind k m p) s = exec (.enc k.opcode m p) s) ∧
  (∀ (o p : Byte) (m : Mode) (s : State), exec (.csumTx o m p) s = exec (.csum [o, m.byte, p, 0xFF, 0xFF]) s) ∧
  (∀ (b : Budget) (s : State), exec (.readMeas b) s = exec (.scan b) s)

/-- The sleep and the wake frame differ at offsets 4 and 17 and nowhere else, whatever the open parameters are
(spec/40_encoder.md R77). -/
def Obligations.SleepAndWakeFramesDiffer : Prop :=
  ∀ fs fw : List Byte, Instr.encSleep.frame? = some fs → Instr.encWake.frame? = some fw →
    ∀ n, n < 19 → (fs.getD n 0 ≠ fw.getD n 0 ↔ n = 4 ∨ n = 17)

/-- SEND of 19 bytes in IDLE makes one write and completes with what the sink answered: where it answered Ok, Ok, with the
whole sequence on the outbound stream; where it answered Err, Err with that cause, with some of its first bytes there. The
sink is left as that write leaves it. SEND changes no register and reads nothing (spec/40_encoder.md R80, R81;
spec/20_memory.md R41, R42; what a failed write places is the spec's own decision D25; what the sink will answer is log
4). -/
def Obligations.SendCompletes : Prop :=
  ∀ (tx : List Byte) (s : State), tx.length = 19 → s.phase = .idle →
    ∃ t, exec (.send tx) s = .next t ∧
      t.results = s.results ++ [.sent (sendResult (s.sink.write s.sinkWrites).1)] ∧
      t.outbound = s.outbound ++ placedBytes tx (s.sink.write s.sinkWrites).1 ∧
      t.sink = (s.sink.write s.sinkWrites).2 ∧ t.sinkWrites = s.sinkWrites + 1 ∧
      (((s.sink.write s.sinkWrites).1 = .ok ∧ t.results = s.results ++ [.sent .ok] ∧ t.outbound = s.outbound ++ tx) ∨
       (∃ (c : Cause) (n : Nat), (s.sink.write s.sinkWrites).1 = .err c n ∧
         t.results = s.results ++ [.sent (.err c)] ∧ t.outbound = s.outbound ++ tx.take n)) ∧
      (s.sink = .accepts → t.results = s.results ++ [.sent .ok] ∧ t.sink = .accepts) ∧
      sameRegisters s t ∧ t.source = s.source ∧ t.taken = s.taken ∧ t.srcReads = s.srcReads ∧
      t.clock = s.clock ∧ t.clockDraws = s.clockDraws ∧ t.requests = s.requests ∧ t.names = s.names

/-- Every prefix of the frame, the empty one and the whole one among them, is a possible effect of a SEND that returns
Err (spec/20_memory.md R42: "the model must admit every prefix"; the spec's own decision D25). -/
def Obligations.FailedSendAdmitsEveryPrefix : Prop :=
  ∀ (tx pre : List Byte) (c : Cause) (s : State), tx.length = 19 → s.phase = .idle → pre <+: tx →
    ∃ (sink : Sink) (t : State), exec (.send tx) { s with sink := sink } = .next t ∧
      t.results = s.results ++ [.sent (.err c)] ∧ t.outbound = s.outbound ++ pre

/-- The outbound stream changes only where a SEND of 19 bytes is the caller's next operation, and then only by some of
the first bytes of its operand added at the end (spec/20_memory.md R31, R33, R35). -/
def Obligations.OnlySendWritesOutbound : Prop :=
  ∀ s t : State, step s = .next t → t.outbound ≠ s.outbound →
    s.phase = .idle ∧ ∃ (bs : List Byte) (rest : List (List Byte)) (r : Request) (tx pre : List Byte),
      s.requests = bs :: rest ∧ decodeRequest s.names bs = .ok r ∧ r.op = .send tx ∧ tx.length = 19 ∧ pre <+: tx ∧
      t.outbound = s.outbound ++ pre

/-! ## CSUM -/

/-- CSUM in IDLE returns the sum of the bytes as natural numbers, reduced once modulo 256, changing nothing else
(spec/41_checksum.md R83; spec/10_state.md R15). -/
def Obligations.CsumReturnsSum : Prop :=
  ∀ (bs : List Byte) (s : State), s.phase = .idle →
    exec (.csum bs) s = .next { s with results := s.results ++
      [.sum (BitVec.ofNat 8 ((bs.map BitVec.toNat).sum % 256))] }

/-- CSUM.TX in IDLE returns (op + mode + param + 254) mod 256, changing nothing else, and every byte value is some result
(spec/41_checksum.md R84; spec/10_state.md R15). -/
def Obligations.CsumTxReturnsSum : Prop :=
  (∀ (op param : Byte) (m : Mode) (s : State), s.phase = .idle →
    exec (.csumTx op m param) s = .next { s with results := s.results ++
      [.sum (BitVec.ofNat 8 ((op.toNat + m.byte.toNat + param.toNat + 254) % 256))] }) ∧
  (∀ b : Byte, ∃ (op param : Byte) (m : Mode), checksumTx op m.byte param = b)

/-- CSUM.RX of eight bytes in IDLE returns whether the seventh is the sum of the first six modulo 256; the eighth has no
effect; a false result is no exception; nothing else changes (spec/41_checksum.md R85; spec/10_state.md R15). -/
def Obligations.CsumRxReturnsFlag : Prop :=
  ∀ (b0 b1 b2 b3 b4 b5 b6 b7 : Byte) (s : State), s.phase = .idle →
    exec (.csumRx [b0, b1, b2, b3, b4, b5, b6, b7]) s = .next { s with results := s.results ++
      [.check (decide (b6.toNat =
        (b0.toNat + b1.toNat + b2.toNat + b3.toNat + b4.toNat + b5.toNat) % 256))] }

/-- CSUM is additive modulo 256, does not change when bytes are reordered or zero bytes inserted, and over each length
from 1 on takes every byte value (spec/41_checksum.md R87). -/
def Obligations.CsumLaws : Prop :=
  (∀ s t : List Byte, checksum (s ++ t) = checksum s + checksum t) ∧
  (∀ s t : List Byte, s.Perm t → checksum s = checksum t) ∧
  (∀ s t : List Byte, checksum (s ++ 0 :: t) = checksum (s ++ t)) ∧
  (∀ (n : Nat) (b : Byte), 1 ≤ n → ∃ s : List Byte, s.length = n ∧ checksum s = b)

/-! ## Operands and moments outside the rules -/

/-- An operand outside its type is refused from every state: SEND of another length than 19, CSUM.RX of another length
than 8, a budget that is no Budget (spec/30_encoding.md R67; the spec's own decision D8), and, by the model's choice, an
inbound unit outside its class (log 9). So are the lines that write such operands, by the step in IDLE: a SCAN or READ.MEAS
line whose budget word is neither UNLIMITED nor a number, -1 among them, and a SEND or CSUM.RX line whose list has another
length (the syntax of the lines is log 7). -/
def Obligations.OperandOutsideTypeRefused : Prop :=
  (∀ (i : Instr) (s : State), i.wf = false → exec i s = .refused .operandOutsideType) ∧
  (∀ (s : State) (line : List Byte) (rest : List (List Byte)) (mnemonic : List Byte) (operands : List Token),
    s.resetPending = false → s.phase = .idle → s.requests = line :: rest → lineReads line mnemonic operands →
    (budgetOutsideType mnemonic operands →
      decodeRequest s.names line = .error .notABudget ∧ step s = .refused (.undecodable .notABudget)) ∧
    (lengthOutsideType mnemonic operands →
      decodeRequest s.names line = .error .illFormed ∧ step s = .refused (.undecodable .illFormed)))

/-- Every well-formed operation started while an FSCAN call is in progress is refused, whichever of the eleven it is
(spec/60_exceptions.md R131; spec/93_implementation_defined.md; the spec's own decision D24, and log 10). -/
def Obligations.SecondCallRefused : Prop :=
  ∀ (i : Instr) (s : State), i.isUnit = false → i.wf = true → s.phase ≠ .idle →
    exec i s = .refused .callInProgress

/-- A well-formed inbound unit outside the phase whose step reads it is refused: RX.NOISE outside HUNT, RXF.FALSEPOS outside
CMDWAIT, RXF.MEAS and RXF.ACK outside PAYLOAD, and in PAYLOAD where CMD holds another byte than theirs
(spec/42_scanner.md R90, R91, R93, R94, "Condition"; the refusal is the model's choice, log 9). -/
def Obligations.UnitOutsideItsStepRefused : Prop :=
  (∀ (b : Byte) (s : State), b ≠ 0xAA → s.phase ≠ .hunt → exec (.rxNoise b) s = .refused .outsideItsStep) ∧
  (∀ (k : Option Byte) (s : State), k ≠ some 0xC0 → k ≠ some 0xC5 → s.phase ≠ .cmdWait →
    exec (.rxfFalsePos k) s = .refused .outsideItsStep) ∧
  (∀ (pay : List Byte) (s : State), pay.length = 8 → s.phase ≠ .payload →
    exec (.rxfMeas pay) s = .refused .outsideItsStep ∧ exec (.rxfAck pay) s = .refused .outsideItsStep) ∧
  (∀ (pay : List Byte) (c : Byte) (s : State), pay.length = 8 → s.phase = .payload → s.cmd = some c →
    (c ≠ 0xC0 → exec (.rxfMeas pay) s = .refused .outsideItsStep) ∧
    (c ≠ 0xC5 → exec (.rxfAck pay) s = .refused .outsideItsStep))

/-! ## FSCAN: the call and its steps -/

/-- SCAN and READ.MEAS in IDLE start the call from one fixed state, whatever the previous call left (spec/10_state.md
R30). -/
def Obligations.ScanStartsFromFixedState : Prop :=
  ∀ (b : Budget) (s : State), b.wf = true → s.phase = .idle →
    exec (.scan b) s = .next { s with phase := .hunt, bud := some b, cmd := none, pay := [], att := 0, res := none,
                                      diag := [] } ∧
    exec (.readMeas b) s = .next { s with phase := .hunt, bud := some b, cmd := none, pay := [], att := 0, res := none,
                                          diag := [] }

/-- The HUNT step: the header moves to CMDWAIT; any other byte, or no byte, ends the attempt; a read failure ends the
call; nothing is logged (spec/42_scanner.md R90, R98; the budget check after a stray byte is the spec's own decision
D10). -/
def Obligations.HuntStepRule : Prop :=
  ∀ (s t : State) (a : SrcAnswer), s.resetPending = false → s.phase = .hunt → srcRead 1 s = (a, t) →
    (a = .bytes [0xAA] ∧ step s = .next { t with phase := .cmdWait }) ∨
    (∃ b, b ≠ 0xAA ∧ a = .bytes [b] ∧ step s = endAttempt t) ∨
    (a = .bytes [] ∧ step s = endAttempt t) ∨
    (∃ c, a = .err c ∧ step s = .next { t with res := some (.transportError c), phase := .done })

/-- The CMDWAIT step: 0xC0 or 0xC5 is latched and PAYLOAD follows; any other byte, 0xAA among them, is dropped with the
header and ends the attempt, as no byte does; a read failure ends the call (spec/42_scanner.md R91, R98; the missing byte
is the spec's own decision D12). -/
def Obligations.CmdWaitStepRule : Prop :=
  ∀ (s t : State) (a : SrcAnswer), s.resetPending = false → s.phase = .cmdWait → srcRead 1 s = (a, t) →
    (∃ k, (k = 0xC0 ∨ k = 0xC5) ∧ a = .bytes [k] ∧ step s = .next { t with cmd := some k, phase := .payload }) ∨
    (∃ k, k ≠ 0xC0 ∧ k ≠ 0xC5 ∧ a = .bytes [k] ∧ step s = endAttempt t) ∨
    (a = .bytes [] ∧ step s = endAttempt t) ∨
    (∃ c, a = .err c ∧ step s = .next { t with res := some (.transportError c), phase := .done })

/-- The PAYLOAD step: eight bytes after 0xC0 are evaluated and after 0xC5 are an Acknowledgment with no byte checked; a
short payload emits IncompleteRead and ends the attempt; a read failure ends the call (spec/42_scanner.md R93-R95, R98;
the single read is the spec's own decision D13). -/
def Obligations.PayloadStepRule : Prop :=
  ∀ (s t : State) (a : SrcAnswer) (k : Byte), s.resetPending = false → s.phase = .payload → s.cmd = some k →
    k = 0xC0 ∨ k = 0xC5 → srcRead 8 s = (a, t) →
    (∃ bs, a = .bytes bs ∧ bs.length = 8 ∧ k = 0xC0 ∧ step s = .next (evalMeas { t with pay := bs })) ∨
    (∃ bs, a = .bytes bs ∧ bs.length = 8 ∧ k = 0xC5 ∧
      step s = .next { t with pay := bs, res := some .acknowledgment, phase := .done }) ∨
    (∃ bs, a = .bytes bs ∧ bs.length < 8 ∧
      step s = endAttempt { t with pay := bs, diag := t.diag ++ [.incompleteRead k ([0xAA, k] ++ bs)] }) ∨
    (∃ c, a = .err c ∧ step s = .next { t with res := some (.transportError c), phase := .done })

/-- The end of an attempt and its budget check: ATT goes up by one; with Zero the call ends with NoFrame; with Unlimited
the next attempt starts; with Finite the clock's draw decides, a listed draw or a free one (spec/42_scanner.md R96, R97;
spec/60_exceptions.md R122; the spec's own decisions D10, D11, and log 5). An unwritten BUD is checked as a Finite one is,
which is the model's choice (log 1). -/
def Obligations.AttemptEndRule : Prop :=
  ∀ s : State,
    (s.bud = some .zero →
      endAttempt s = .next { s with att := s.att + 1, phase := .done, res := some .noFrame }) ∧
    (s.bud = some .unlimited → endAttempt s = .next { s with att := s.att + 1, phase := .hunt }) ∧
    ((∃ d, s.bud = some (.finite d)) ∨ s.bud = none →
      (∀ rest, s.clock = true :: rest →
        endAttempt s = .next { s with att := s.att + 1, phase := .done, res := some .noFrame, clock := rest,
                                      clockDraws := s.clockDraws + 1 }) ∧
      (∀ rest, s.clock = false :: rest →
        endAttempt s = .next { s with att := s.att + 1, phase := .hunt, clock := rest,
                                      clockDraws := s.clockDraws + 1 }) ∧
      (s.clock = [] →
        (Config.freeExpired s.clockDraws = true →
          endAttempt s = .next { s with att := s.att + 1, phase := .done, res := some .noFrame,
                                        clockDraws := s.clockDraws + 1 }) ∧
        (Config.freeExpired s.clockDraws = false →
          endAttempt s = .next { s with att := s.att + 1, phase := .hunt, clockDraws := s.clockDraws + 1 })))

/-- A measurement payload: the raw fields little-endian, the scaled values PM_TO_FLOAT of them whichever the status, the
two flags, the status Valid only if both hold, PHASE DONE, nothing else changed (spec/42_scanner.md R99-R103). The
BadPacket event of an Invalid one is the spec's own decision D17. -/
def Obligations.MeasurementEvaluation : Prop :=
  ∀ (b0 b1 b2 b3 b4 b5 b6 b7 : Byte) (s : State), s.phase = .payload → s.cmd = some 0xC0 →
    ∀ ck tl : Bool,
      ck = decide (b6.toNat = (b0.toNat + b1.toNat + b2.toNat + b3.toNat + b4.toNat + b5.toNat) % 256) →
      tl = decide (b7 = 0xAB) →
      exec (.rxfMeas [b0, b1, b2, b3, b4, b5, b6, b7]) s = .next { s with
        pay := [b0, b1, b2, b3, b4, b5, b6, b7]
        res := some (.measurement { pm25Raw := b1 ++ b0, pm10Raw := b3 ++ b2, pm25 := Config.pmToFloat (b1 ++ b0),
                                    pm10 := Config.pmToFloat (b3 ++ b2),
                                    status := if ck = true ∧ tl = true then .valid else .invalid })
        diag := if ck = true ∧ tl = true then s.diag
                else s.diag ++ [.badPacket [0xAA, 0xC0, b0, b1, b2, b3, b4, b5, b6, b7] ck tl]
        phase := .done }

/-- An acknowledgment payload of eight bytes, whatever they are: PAY holds them, RES is Acknowledgment, the call ends,
nothing else changes (spec/42_scanner.md R94; spec/30_encoding.md R60). -/
def Obligations.AcknowledgmentCompletes : Prop :=
  ∀ (pay : List Byte) (s : State), pay.length = 8 → s.phase = .payload → s.cmd = some 0xC5 →
    exec (.rxfAck pay) s = .next { s with pay := pay, res := some .acknowledgment, phase := .done }

/-- A stray byte in HUNT and a false positive in CMDWAIT end the attempt and no more: ATT goes up by one, the next attempt
starts in HUNT or the call ends with NoFrame, and CMD, PAY, BUD, DIAG, both streams and the caller's side stay
(spec/42_scanner.md R90, R91, R96; the spec's own decisions D10, D12). -/
def Obligations.StrayBytesEndTheAttempt : Prop :=
  ∀ (i : Instr) (s : State), i.wf = true →
    ((∃ b, i = .rxNoise b) ∧ s.phase = .hunt) ∨ ((∃ k, i = .rxfFalsePos k) ∧ s.phase = .cmdWait) →
    ∃ t, exec i s = .next t ∧ t.att = s.att + 1 ∧
      ((t.phase = .hunt ∧ t.res = s.res) ∨ (t.phase = .done ∧ t.res = some .noFrame)) ∧
      (s.bud = some .zero → t.phase = .done) ∧ (s.bud = some .unlimited → t.phase = .hunt) ∧
      t.cmd = s.cmd ∧ t.pay = s.pay ∧ t.bud = s.bud ∧ t.diag = s.diag ∧ t.source = s.source ∧ t.taken = s.taken ∧
      t.srcReads = s.srcReads ∧ t.sink = s.sink ∧ t.outbound = s.outbound ∧ t.results = s.results ∧
      t.requests = s.requests ∧ t.names = s.names

/-- raise TransportFault(cause): RES holds TransportError(cause), PHASE is DONE, nothing of the attempt is delivered and no
byte is counted as read by the failing read; the next step returns the result with DIAG and goes to IDLE
(spec/60_exceptions.md R119). -/
def Obligations.TransportFaultEndsCall : Prop :=
  ∀ (s : State) (c : Cause), s.resetPending = false → s.scanning = true → s.Inv →
    (srcRead s.phase.readSize s).1 = .err c →
    ∃ t, step s = .next t ∧ t.res = some (.transportError c) ∧ t.phase = .done ∧ t.taken = s.taken ∧ t.att = s.att ∧
      t.diag = s.diag ∧ t.pay = s.pay ∧ t.cmd = s.cmd ∧ t.bud = s.bud ∧ t.outbound = s.outbound ∧
      t.results = s.results ∧
      step t = .next { t with phase := .idle, results := s.results ++ [.scanned (.transportError c) s.diag] }

/-- TransportFault is the only error class that ends a call by itself: a step raises it exactly where it ends the call
with TransportError; every other end of a call is a whole frame or an expired budget (spec/60_exceptions.md R116). -/
def Obligations.OnlyTransportFaultEndsCall : Prop :=
  ∀ s t : State, s.resetPending = false → s.scanning = true → step s = .next t →
    ((t.phase = .done ∧ ∃ c, t.res = some (.transportError c)) ↔ stepErrors s = [.transportFault]) ∧
    (t.phase = .done →
      stepErrors s = [.transportFault] ∨
      (s.phase = .payload ∧ ((∃ m, t.res = some (.measurement m)) ∨ t.res = some .acknowledgment)) ∨
      (t.res = some .noFrame ∧ t.att = s.att + 1 ∧ s.bud ≠ some .unlimited))

/-- ChecksumMismatch and TailMismatch, one or both, are reported as one Invalid status and one BadPacket event in a
Measurement result that is returned all the same, and in no other way (spec/60_exceptions.md R113, R114; the event and its
flags are the spec's own decision D17). -/
def Obligations.MismatchesGiveInvalidMeasurement : Prop :=
  ∀ (s t : State) (bs : List Byte), s.resetPending = false → s.phase = .payload → s.cmd = some 0xC0 →
    srcRead 8 s = (.bytes bs, t) → bs.length = 8 →
    ∃ (u : State) (m : Measurement), step s = .next u ∧ u.phase = .done ∧ u.res = some (.measurement m) ∧
      m.pm25Raw = u16le (byteAt bs 0) (byteAt bs 1) ∧ m.pm10Raw = u16le (byteAt bs 2) (byteAt bs 3) ∧
      (∀ e, e ∈ stepErrors s → e = .checksumMismatch ∨ e = .tailMismatch) ∧
      (m.status = .valid ↔ stepErrors s = []) ∧
      (stepErrors s = [] → u.diag = s.diag) ∧
      (stepErrors s ≠ [] → u.diag = s.diag ++ [.badPacket ([0xAA, 0xC0] ++ bs)
        (decide (ErrorClass.checksumMismatch ∉ stepErrors s)) (decide (ErrorClass.tailMismatch ∉ stepErrors s))])

/-- The five classes have the codes 1 to 5, and the disposition each is given (spec/60_exceptions.md R111; the codes are
the spec's own decision D18). -/
def Obligations.ErrorClassTable : Prop :=
  ErrorClass.protocolDesync.code = 1 ∧ ErrorClass.checksumMismatch.code = 2 ∧ ErrorClass.tailMismatch.code = 3 ∧
  ErrorClass.incompleteRead.code = 4 ∧ ErrorClass.transportFault.code = 5 ∧
  (∀ e : ErrorClass, e.disposition = .callResult ↔ e = .transportFault) ∧
  (∀ e : ErrorClass, e.disposition = .statusInvalid ↔ e = .checksumMismatch ∨ e = .tailMismatch) ∧
  (∀ e : ErrorClass, e.logged = false ↔ e = .protocolDesync ∨ e = .transportFault)

/-- When PHASE is DONE the call returns RES with DIAG and goes to IDLE, and nothing else changes; RES is one of the four
results; the registers of the next call do not depend on what this one left (spec/42_scanner.md R107). -/
def Obligations.EndOfCallReturnsResult : Prop :=
  ∀ (s : State) (r : FrameResult), s.resetPending = false → s.phase = .done → s.res = some r →
    step s = .next { s with phase := .idle, results := s.results ++ [.scanned r s.diag] } ∧
    ((∃ m, r = .measurement m) ∨ r = .acknowledgment ∨ r = .noFrame ∨ ∃ c, r = .transportError c) ∧
    (∀ (b : Budget) (t u v : State), step s = .next t → exec (.scan b) t = .next u → exec (.scan b) State.reset = .next v →
      sameRegisters u v)

/-! ## FSCAN: properties of whole calls -/

/-- PHASE moves only along the arrows of the scanner's rules (spec/10_state.md R17; the phases are the spec's own decision
D2). -/
def Obligations.PhaseFollowsTheScanner : Prop :=
  ∀ s t : State, s.resetPending = false → step s = .next t → t.phase ∈ s.phase.successors

/-- During a call BUD is read-only, and no step touches the outbound stream, the sink, the caller's requests and names, or
(before the end of the call) the results returned (spec/10_state.md R21; spec/20_memory.md R33). -/
def Obligations.CallTouchesOnlyItsOwnState : Prop :=
  ∀ s t : State, s.resetPending = false → s.phase ≠ .idle → step s = .next t →
    t.bud = s.bud ∧ t.outbound = s.outbound ∧ t.sink = s.sink ∧ t.sinkWrites = s.sinkWrites ∧
    t.requests = s.requests ∧ t.names = s.names ∧ (s.phase ≠ .done → t.results = s.results)

/-- A step makes at most one SrcRead. In HUNT, CMDWAIT and PAYLOAD, where no reset is asked for, it makes exactly one, of 1, 1
and 8 bytes: the bytes that read returns, at most those asked for, are added in order to those taken from the inbound
stream, and the ByteSource is left as that read leaves it. Any other step takes nothing and leaves the ByteSource alone
(spec/42_scanner.md; spec/20_memory.md R33, R38, R39; what the ByteSource will answer is log 2). -/
def Obligations.StepReadsAtMostOnce : Prop :=
  ∀ s t : State, step s = .next t →
    (s.scanning = true → s.resetPending = false →
      t.taken = s.taken ++ answerBytes (srcRead s.phase.readSize s).1 ∧
      t.source = (srcRead s.phase.readSize s).2.source ∧ t.srcReads = s.srcReads + 1 ∧
      (answerBytes (srcRead s.phase.readSize s).1).length ≤ s.phase.readSize ∧
      s.phase.readSize = (if s.phase = .payload then 8 else 1)) ∧
    (s.scanning = false ∨ s.resetPending = true →
      t.taken = s.taken ∧ t.source = s.source ∧ t.srcReads = s.srcReads)

/-- Under Prompt(q) nothing is lost, repeated or reordered: the bytes a step takes and the bytes left are q, and no step
ends the call with TransportError (spec/20_memory.md R39, R44; the premise is the spec's own decision D15). -/
def Obligations.PromptStreamIsConserved : Prop :=
  ∀ (s t : State) (q : List Byte), s.source = .prompt q → step s = .next t →
    (∃ bs q' : List Byte, q = bs ++ q' ∧ t.source = .prompt q' ∧ t.taken = s.taken ++ bs) ∧
    (s.scanning = true → s.resetPending = false → ∀ c, s.res = none → t.res ≠ some (.transportError c))

/-- A call with an Unlimited budget never returns NoFrame (spec/42_scanner.md R97; the spec's own decision D10). -/
def Obligations.UnlimitedNeverReturnsNoFrame : Prop :=
  ∀ (n : Nat) (s t : State), s.resetPending = false → s.phase = .idle →
    steps n (s.startCall .unlimited) = .next t → (∀ m u, m < n → steps m (s.startCall .unlimited) = .next u →
      u.phase ≠ .done) → t.res ≠ some .noFrame

/-- A call with an Unlimited budget on a stream that holds no header byte, the empty stream among them, runs for ever: after
any number of steps it is in HUNT, one attempt further each time, the noise consumed byte by byte and empty reads after it
(spec/42_scanner.md R109: "a hang a model must keep"). -/
def Obligations.UnlimitedCallHangsOnSilence : Prop :=
  ∀ (n : Nat) (q : List Byte) (s : State), s.resetPending = false → s.phase = .hunt → s.bud = some .unlimited →
    s.source = .prompt q → (∀ b, b ∈ q → b ≠ 0xAA) →
    steps n s = .next { s with att := s.att + n, srcReads := s.srcReads + n, source := .prompt (q.drop n),
                               taken := s.taken ++ q.take n }

/-- A call with budget Zero ends after at most one attempt, three SrcReads and 10 consumed bytes, whatever the ByteSource
answers (spec/42_scanner.md R109). -/
def Obligations.ZeroBudgetEndsInOneAttempt : Prop :=
  ∀ s : State, s.resetPending = false →
    ∃ (n : Nat) (t : State), 1 ≤ n ∧ n ≤ 3 ∧ steps n (s.startCall .zero) = .next t ∧ t.phase = .done ∧
      t.res.isSome = true ∧ t.att ≤ 1 ∧ t.srcReads ≤ s.srcReads + 3 ∧
      ∃ bs : List Byte, t.taken = s.taken ++ bs ∧ bs.length ≤ 10

/-- A call with a Finite budget ends within three steps an attempt of the first true draw of the clock, whatever the
ByteSource answers (spec/42_scanner.md R109; spec/60_exceptions.md R122; the listed draws are the model's choice, log 5). -/
def Obligations.FiniteBudgetEndsWithTheClock : Prop :=
  ∀ (s : State) (d : Nat) (early later : List Bool), s.resetPending = false → s.clock = early ++ true :: later →
    ∃ (n : Nat) (t : State), n ≤ 3 * (early.length + 1) ∧ steps n (s.startCall (.finite d)) = .next t ∧
      t.phase = .done ∧ t.res.isSome = true ∧ t.att ≤ early.length + 1

/-- Under clock fairness every call with a Finite budget ends, whatever the ByteSource answers and whatever draws are listed
(spec/60_exceptions.md R123; the premise is the spec's own decision D34, and log 5). -/
def Obligations.FairClockEndsFiniteCall : Prop :=
  ClockFair → ∀ (s : State) (d : Nat), s.resetPending = false →
    ∃ (n : Nat) (t : State), steps n (s.startCall (.finite d)) = .next t ∧ t.phase = .done ∧ t.res.isSome = true

/-- Resynchronisation: noise without a header byte before a frame changes no register but ATT. The frame, a measurement or an
acknowledgment, gives the registers it gives on the clean stream, DIAG among them, and the stream is consumed up to its last
byte and no further. So for Unlimited, for Finite while the clock's listed draws are false, and for every budget where there
is no noise (spec/42_scanner.md R90, R110; the event of an Invalid measurement is the spec's own decision D17, the budget
check after a stray byte D10, the listed draws log 5). -/
def Obligations.ScanResynchronises : Prop :=
  ∀ (noise pay rest : List Byte) (b : Budget) (k : Byte) (s : State),
    s.resetPending = false → (∀ c, c ∈ noise → c ≠ 0xAA) → pay.length = 8 → k = 0xC0 ∨ k = 0xC5 →
    s.source = .prompt (noise ++ [0xAA, k] ++ pay ++ rest) →
    b = .unlimited ∨ (∃ d later, b = .finite d ∧ s.clock = List.replicate noise.length false ++ later) ∨ noise = [] →
    ∃ t, steps (noise.length + 3) (s.startCall b) = .next t ∧ t.phase = .done ∧ t.bud = some b ∧ t.cmd = some k ∧
      t.pay = pay ∧ t.att = noise.length ∧ t.source = .prompt rest ∧
      t.taken = s.taken ++ (noise ++ [0xAA, k] ++ pay) ∧
      (k = 0xC0 → t.res = some (.measurement (measurementOf pay)) ∧
        t.diag = if ckOk pay && tailOk pay then [] else [.badPacket ([0xAA, 0xC0] ++ pay) (ckOk pay) (tailOk pay)]) ∧
      (k = 0xC5 → t.res = some .acknowledgment ∧ t.diag = [])

/-- A frame met in HUNT is returned whatever the budget and the clock say, and whatever its payload bytes are, a 0xAA
among them (spec/42_scanner.md R105, R106; spec/70_reset_and_hazards.md R143; the spec's own decision D10). -/
def Obligations.FrameIsReturnedWhateverTheClock : Prop :=
  ∀ (pay rest : List Byte) (s : State), s.resetPending = false → s.phase = .hunt → pay.length = 8 →
    (s.source = .prompt ([0xAA, 0xC0] ++ pay ++ rest) →
      ∃ t, steps 3 s = .next t ∧ t.phase = .done ∧ t.res = some (.measurement (measurementOf pay)) ∧
        t.source = .prompt rest ∧ t.att = s.att ∧ t.clock = s.clock ∧ t.clockDraws = s.clockDraws) ∧
    (s.source = .prompt ([0xAA, 0xC5] ++ pay ++ rest) →
      ∃ t, steps 3 s = .next t ∧ t.phase = .done ∧ t.res = some .acknowledgment ∧
        t.source = .prompt rest ∧ t.att = s.att ∧ t.clock = s.clock ∧ t.clockDraws = s.clockDraws)

/-- A header straight after a header is lost with it: the next attempt starts at the byte after both
(spec/70_reset_and_hazards.md R140; spec/90_conflicts.md C3). -/
def Obligations.HeaderAfterHeaderIsLost : Prop :=
  ∀ (q : List Byte) (s : State), s.resetPending = false → s.phase = .hunt → s.bud = some .unlimited →
    s.source = .prompt (0xAA :: 0xAA :: q) →
    steps 2 s = .next { s with source := .prompt q, taken := s.taken ++ [0xAA, 0xAA], srcReads := s.srcReads + 2,
                               att := s.att + 1 }

/-- A call's course and result depend on its budget and on what the ByteSource and the clock answer, and on nothing an
earlier call, a reset, an encode or a SEND has left (spec/70_reset_and_hazards.md R136; spec/10_state.md R30). -/
def Obligations.CallsAreIndependent : Prop :=
  ∀ (n : Nat) (b : Budget) (s t u : State), s.resetPending = false → t.resetPending = false → sameInputs s t →
    (∀ m v, m < n → steps m (s.startCall b) = .next v → v.phase ≠ .idle) →
    steps n (s.startCall b) = .next u →
    ∃ v, steps n (t.startCall b) = .next v ∧ sameRegisters u v ∧ sameInputs u v

/-! ## Values -/

/-- The 16-bit fields are little-endian and unsigned, and the exact scaled value is the raw value over ten
(spec/20_memory.md R34; spec/30_encoding.md R61). -/
def Obligations.RawFieldsLittleEndian : Prop :=
  ∀ b0 b1 b2 b3 : Byte, ∀ rest : List Byte,
    (pm25Raw (b0 :: b1 :: b2 :: b3 :: rest)).toNat = b0.toNat + 256 * b1.toNat ∧
    (pm10Raw (b0 :: b1 :: b2 :: b3 :: rest)).toNat = b2.toNat + 256 * b3.toNat ∧
    10 * pmExact (pm25Raw (b0 :: b1 :: b2 :: b3 :: rest)) = ((b0.toNat + 256 * b1.toNat : Nat) : Rat)

/-- One SrcRead of n bytes answers at most n bytes or a failure, adds exactly the bytes it returns to those taken, and
changes no register (spec/20_memory.md R38-R40; log 3). -/
def Obligations.ReadAnswersAtMostWhatIsAsked : Prop :=
  ∀ (n : Nat) (s : State),
    ((∃ bs, (srcRead n s).1 = .bytes bs ∧ bs.length ≤ n ∧ (srcRead n s).2.taken = s.taken ++ bs) ∨
     (∃ c, (srcRead n s).1 = .err c ∧ (srcRead n s).2.taken = s.taken)) ∧
    sameRegisters s (srcRead n s).2 ∧
    (∀ q, s.source = .prompt q →
      (srcRead n s).1 = .bytes (q.take n) ∧ (srcRead n s).2.source = .prompt (q.drop n))
end

