-- ==== Sys2Proof/Laws/Config.lean ====
section
/-! SUPPORT. What is known of the open parameters (spec/00_scope.md R8). -/

namespace Sys2Proof

theorem Config.paramSleep_ne_paramWake : Config.paramSleep ≠ Config.paramWake := by
  unfold Config.paramSleep Config.paramWake
  cases Config.sleepIsOne <;> decide

theorem Config.paramSleep_bit : Config.paramSleep = 0x00 ∨ Config.paramSleep = 0x01 := by
  unfold Config.paramSleep
  cases Config.sleepIsOne <;> decide

theorem Config.paramWake_bit : Config.paramWake = 0x00 ∨ Config.paramWake = 0x01 := by
  unfold Config.paramWake
  cases Config.sleepIsOne <;> decide

theorem Config.transportTimeout_pos : 0 < Config.transportTimeout := Nat.succ_pos _

end Sys2Proof
end

