-- ==== Sys2Proof/Laws/Decode.lean ====
section
/-! SUPPORT. What the decoder's pieces read from the encoder's pieces: tokens, literals, operand lists. -/

namespace Sys2Proof

/-! ## Tokens -/

/-- Word characters are collected. -/
theorem tokens_word (w rest acc : List Byte) (h : w.all isWordChar = true) :
    tokens (w ++ rest) acc = tokens rest (w.reverse ++ acc) := by
  induction w generalizing acc with
  | nil => rfl
  | cons c w ih =>
    simp only [List.all_cons, Bool.and_eq_true] at h
    obtain ⟨hc, hw⟩ := h
    simp only [isWordChar, Bool.and_eq_true, decide_eq_true_eq, Bool.not_eq_true', Option.isNone_iff_eq_none] at hc
    obtain ⟨⟨h1, h2⟩, h3⟩ := hc
    simp only [List.cons_append, tokens, h1, if_false, h2, Bool.false_eq_true, h3]
    rw [ih _ hw]
    simp

/-- A blank ends a word. -/
theorem tokens_blank (c : Byte) (rest acc : List Byte) (h : isBlank c = true) (hs : c ≠ 0x3B) :
    tokens (c :: rest) acc = flushWord acc (tokens rest []) := by
  simp only [tokens, hs, if_false, h, if_true]

/-- Punctuation ends a word and is a token. -/
theorem tokens_punctuation (c : Byte) (t : Token) (rest acc : List Byte) (hb : isBlank c = false) (hs : c ≠ 0x3B)
    (h : punctuation? c = some t) : tokens (c :: rest) acc = flushWord acc (t :: tokens rest []) := by
  simp only [tokens, hs, if_false, hb, Bool.false_eq_true, h]

theorem tokens_nil (acc : List Byte) : tokens [] acc = flushWord acc [] := rfl

theorem flushWord_reverse (w : List Byte) (rest : List Token) (h : w ≠ []) :
    flushWord (w.reverse ++ []) rest = .word w :: rest := by
  rw [List.append_nil]
  cases hw : w.reverse with
  | nil => simp_all
  | cons c cs => simp only [flushWord, ← hw, List.reverse_reverse]

/-- A word and the comma and blank after it. -/
theorem tokens_comma (w rest : List Byte) (h : w.all isWordChar = true) (hw : w ≠ []) :
    tokens (w ++ (commaText ++ rest)) [] = .word w :: .comma :: tokens rest [] := by
  rw [tokens_word w _ _ h]
  show tokens (0x2C :: 0x20 :: rest) _ = _
  rw [tokens_punctuation 0x2C .comma _ _ (by decide) (by decide) (by decide), flushWord_reverse w _ hw,
    tokens_blank 0x20 _ _ (by decide) (by decide)]
  rfl

/-- A word and the blank after it. -/
theorem tokens_space (w rest : List Byte) (h : w.all isWordChar = true) (hw : w ≠ []) :
    tokens (w ++ (space ++ rest)) [] = .word w :: tokens rest [] := by
  rw [tokens_word w _ _ h]
  show tokens (0x20 :: rest) _ = _
  rw [tokens_blank 0x20 _ _ (by decide) (by decide), flushWord_reverse w _ hw]

/-- A word at the end of the line. -/
theorem tokens_end (w : List Byte) (h : w.all isWordChar = true) (hw : w ≠ []) : tokens w [] = [.word w] := by
  have := tokens_word w [] [] h
  rw [List.append_nil] at this
  rw [this, tokens_nil, flushWord_reverse w _ hw]

/-- A name and the equals sign after it. -/
theorem tokens_name (n line : List Byte) (h : n.all isWordChar = true) (hn : n ≠ []) :
    tokens (n ++ ascii [' ', '=', ' '] ++ line) [] = .word n :: .equals :: tokens line [] := by
  rw [List.append_assoc]
  show tokens (n ++ (space ++ (0x3D :: 0x20 :: line))) [] = _
  rw [tokens_space n _ h hn, tokens_punctuation 0x3D .equals _ _ (by decide) (by decide) (by decide),
    tokens_blank 0x20 _ _ (by decide) (by decide)]
  rfl

theorem flushWord_append (acc : List Byte) (u v : List Token) : flushWord acc (u ++ v) = flushWord acc u ++ v := by
  cases acc <;> rfl

/-- A closing parenthesis after a text without a comment is its last token. -/
theorem tokens_close (line acc : List Byte) (h : 0x3B ∉ line) :
    tokens (line ++ ascii [')']) acc = tokens line acc ++ [.rparen] := by
  induction line generalizing acc with
  | nil =>
    show tokens [0x29] acc = _
    rw [tokens_punctuation 0x29 .rparen _ _ (by decide) (by decide) (by decide), tokens_nil, tokens_nil, ← flushWord_append]
    rfl
  | cons c cs ih =>
    simp only [List.mem_cons, not_or] at h
    simp only [List.cons_append, tokens, Ne.symm h.1, if_false, ih _ h.2, flushWord_append]
    split
    · rfl
    · split
      · rename_i p _; exact flushWord_append acc (p :: tokens cs []) _
      · rfl

/-! ## Literals -/

theorem byteText_word (b : Byte) : (byteText b).all isWordChar = true := by
  revert b; decide +kernel

theorem byteText_ne_nil (b : Byte) : byteText b ≠ [] := by simp [byteText]

theorem parseByte_byteText (b : Byte) : parseByte (byteText b) = .ok b := by
  revert b; decide +kernel

theorem modeText_word (m : Mode) : (modeText m).all isWordChar = true ∧ modeText m ≠ [] := by
  cases m <;> decide

theorem parseMode_modeText (m : Mode) : parseMode (modeText m) = .ok m := by
  cases m <;> decide

theorem kindText_word (k : CommandKind) : (kindText k).all isWordChar = true ∧ kindText k ≠ [] := by
  cases k <;> decide

theorem parseKind_kindText (k : CommandKind) : parseKind (kindText k) = .ok k := by
  cases k <;> decide

/-- A literal above 255 is no byte. -/
theorem parseByte_wide (w : List Byte) (n : Nat) (h : literal? w = some n) (hn : 255 < n) :
    parseByte w = .error .widerThanByte := by
  have hn' : ¬ n < 256 := by omega
  simp only [parseByte, h, hn', if_false]

/-- A word other than SET and GET is no mode. -/
theorem parseMode_other (w : List Byte) (hs : w ≠ kwSet) (hg : w ≠ kwGet) : parseMode w = .error .notAMode := by
  simp only [parseMode, hs, hg, if_false]

/-- No literal names a kind. -/
theorem parseKind_literal (w : List Byte) (n : Nat) (h : literal? w = some n) : parseKind w = .error .notAKind := by
  have hm : w ≠ kwMode := fun e => by rw [e] at h; exact absurd h (by decide +revert)
  have hd : w ≠ kwDutyCycle := fun e => by rw [e] at h; exact absurd h (by decide +revert)
  have hs : w ≠ kwSleepWake := fun e => by rw [e] at h; exact absurd h (by decide +revert)
  simp only [parseKind, hm, hd, hs, if_false]

/-! ## Decimal numbers -/

/-- The digit of a number below ten. -/
theorem decDigit_digit (n : Nat) (h : n < 10) : decDigit? (BitVec.ofNat 8 (0x30 + n)) = some n := by
  interval_cases n <;> rfl

theorem digit_word (n : Nat) (h : n < 10) : isWordChar (BitVec.ofNat 8 (0x30 + n)) = true := by
  interval_cases n <;> decide

theorem digitsValue_append (digit? : Byte → Option Nat) (base acc : Nat) (u v : List Byte) :
    digitsValue digit? base acc (u ++ v) =
      (digitsValue digit? base acc u).bind fun a => digitsValue digit? base a v := by
  induction u generalizing acc with
  | nil => rfl
  | cons c u ih =>
    simp only [List.cons_append, digitsValue]
    cases digit? c with
    | none => rfl
    | some d => exact ih _

/-- The digits of a number read back as the number. -/
theorem digitsValue_decText (fuel n : Nat) (h : n < fuel) :
    digitsValue decDigit? 10 0 (decText fuel n) = some n := by
  induction fuel generalizing n with
  | zero => omega
  | succ fuel ih =>
    simp only [decText]
    split
    · rename_i hn
      simp [digitsValue, decDigit_digit n hn]
    · rw [digitsValue_append, ih (n / 10) (by omega)]
      simp only [Option.bind_some, digitsValue, decDigit_digit (n % 10) (by omega)]
      congr 1
      omega

theorem decText_word (fuel n : Nat) : (decText fuel n).all isWordChar = true := by
  induction fuel generalizing n with
  | zero => rfl
  | succ fuel ih =>
    simp only [decText]
    split
    · rename_i hn; simp [digit_word n hn]
    · rw [List.all_append, ih]; simp [digit_word (n % 10) (by omega)]

theorem decText_ne_nil (fuel n : Nat) (h : 0 < fuel) : decText fuel n ≠ [] := by
  cases fuel with
  | zero => omega
  | succ fuel => simp only [decText]; split <;> simp

/-- Only digits stand in a decimal number. -/
theorem decText_digits (fuel n : Nat) : ∀ c ∈ decText fuel n, ∃ d, d < 10 ∧ c = BitVec.ofNat 8 (0x30 + d) := by
  induction fuel generalizing n with
  | zero => simp [decText]
  | succ fuel ih =>
    intro c hc
    simp only [decText] at hc
    split at hc
    · rename_i hn; exact ⟨n, hn, by simpa using hc⟩
    · rcases List.mem_append.mp hc with h | h
      · exact ih _ c h
      · exact ⟨n % 10, by omega, by simpa using h⟩

/-- A decimal number as a literal. -/
theorem literal_decText (n : Nat) : literal? (decText (n + 1) n) = some n := by
  have hv := digitsValue_decText (n + 1) n (by omega)
  have hd := decText_digits (n + 1) n
  have hne := decText_ne_nil (n + 1) n (by omega)
  match h : decText (n + 1) n with
  | [] => exact absurd h hne
  | [c] => rw [h] at hv; exact hv
  | c :: x :: rest =>
    rw [h] at hv hd
    obtain ⟨d, hd10, rfl⟩ := hd x (by simp)
    have hx : BitVec.ofNat 8 (0x30 + d) ≠ (0x78 : Byte) := by interval_cases d <;> decide
    simp only [literal?, hx, and_false, if_false]
    exact hv

theorem budgetText_word (b : Budget) : (budgetText b).all isWordChar = true ∧ budgetText b ≠ [] := by
  cases b with
  | zero => decide
  | finite d => exact ⟨decText_word _ _, decText_ne_nil _ _ (by omega)⟩
  | unlimited => decide

theorem parseBudget_budgetText (b : Budget) (h : b.wf = true) : parseBudget (budgetText b) = .ok b := by
  cases b with
  | zero => rfl
  | unlimited => rfl
  | finite d =>
    have hd : 0 < d := by simpa [Budget.wf] using h
    have hu : decText (d + 1) d ≠ kwUnlimited := by
      intro e
      have := literal_decText d
      have hn : literal? kwUnlimited = none := by decide
      rw [e, hn] at this
      cases this
    simp only [budgetText, parseBudget, hu, if_false, literal_decText]
    cases d with
    | zero => omega
    | succ d => rfl

/-! ## Operand lists -/

theorem tokens_listTail (bs : List Byte) (w : List Byte) (h : w.all isWordChar = true) (hw : w ≠ []) :
    tokens (w ++ listTailText bs) [] =
      .word w :: (bs.flatMap fun b => [.comma, .word (byteText b)]) ++ [.rbracket] := by
  induction bs generalizing w with
  | nil =>
    simp only [listTailText]
    rw [tokens_word w _ _ h]
    show tokens [0x5D] _ = _
    rw [tokens_punctuation 0x5D .rbracket _ _ (by decide) (by decide) (by decide), flushWord_reverse w _ hw]
    rfl
  | cons b bs ih =>
    simp only [listTailText, List.append_assoc]
    rw [tokens_comma w _ h hw, ih _ (byteText_word b) (byteText_ne_nil b)]
    rfl

theorem parseListTail_tokens (bs : List Byte) :
    parseListTail ((bs.flatMap fun b => [.comma, .word (byteText b)]) ++ [.rbracket]) = .ok bs := by
  induction bs with
  | nil => rfl
  | cons b bs ih =>
    simp only [List.flatMap_cons, List.cons_append, List.nil_append, parseListTail, parseByte_byteText, ih]

/-- Every word of a list that is read is a byte. -/
theorem parseListTail_words (toks : List Token) (bs : List Byte) (h : parseListTail toks = .ok bs) (w : List Byte)
    (hw : .word w ∈ toks) : ∃ b, parseByte w = .ok b := by
  induction toks using parseListTail.induct generalizing bs with
  | case1 => simp at hw
  | case2 v rest e he => simp [parseListTail, he] at h
  | case3 v rest b hb e he ih => simp [parseListTail, hb, he] at h
  | case4 v rest b hb bs' he ih =>
    simp only [List.mem_cons, reduceCtorEq, Token.word.injEq, false_or] at hw
    rcases hw with rfl | hw
    · exact ⟨b, hb⟩
    · exact ih bs' he hw
  | case5 t h1 h2 =>
    unfold parseListTail at h
    split at h <;> simp_all

/-- A bracketed list read back. -/
theorem parseList_listText (bs : List Byte) : parseList (tokens (listText bs) []) = .ok bs := by
  cases bs with
  | nil => rfl
  | cons b bs =>
    have ht : tokens (listText (b :: bs)) [] = .lbracket :: tokens (byteText b ++ listTailText bs) [] := by
      show tokens (0x5B :: (byteText b ++ listTailText bs)) [] = _
      rw [tokens_punctuation 0x5B .lbracket _ _ (by decide) (by decide) (by decide)]
      rfl
    rw [ht, tokens_listTail bs _ (byteText_word b) (byteText_ne_nil b)]
    simp only [List.cons_append, parseList]
    exact parseListTail_tokens (b :: bs)

/-- The tokens of a bracketed list begin with the bracket. -/
theorem tokens_listText_head (bs : List Byte) : ∃ rest, tokens (listText bs) [] = .lbracket :: rest := by
  cases bs with
  | nil => exact ⟨_, rfl⟩
  | cons b bs =>
    refine ⟨tokens (byteText b ++ listTailText bs) [], ?_⟩
    show tokens (0x5B :: (byteText b ++ listTailText bs)) [] = _
    rw [tokens_punctuation 0x5B .lbracket _ _ (by decide) (by decide) (by decide)]
    rfl

/-- SEND of a bracketed list, whatever names are known. -/
theorem parseTx_listText (names : List (List Byte × List Byte)) (bs : List Byte) :
    parseTx names (tokens (listText bs) []) = .ok bs := by
  obtain ⟨rest, h⟩ := tokens_listText_head bs
  have := parseList_listText bs
  rw [h] at this ⊢
  simpa [parseTx] using this

/-- The tokens of three operands. -/
theorem tokens_operands (u v w : List Byte) (hu : u.all isWordChar = true ∧ u ≠ []) (hv : v.all isWordChar = true ∧ v ≠ [])
    (hw : w.all isWordChar = true ∧ w ≠ []) :
    tokens (u ++ (commaText ++ (v ++ (commaText ++ w)))) [] = [.word u, .comma, .word v, .comma, .word w] := by
  rw [tokens_comma u _ hu.1 hu.2, tokens_comma v _ hv.1 hv.2, tokens_end w hw.1 hw.2]

/-! ## Frames -/

theorem Mode.ofByte_byte (m : Mode) : Mode.ofByte? m.byte = some m := by
  cases m <;> decide

theorem Mode.byte_of_ofByte (b : Byte) (m : Mode) (h : Mode.ofByte? b = some m) : m.byte = b := by
  unfold Mode.ofByte? at h
  split at h
  · cases h; simp_all [Mode.byte]
  · split at h
    · cases h; simp_all [Mode.byte]
    · cases h

/-- A frame is read as the ENC whose result it is. -/
theorem decodeTxf_frame (op param : Byte) (m : Mode) : decodeTxf (frame op m.byte param) = .ok (.enc op m param) := by
  have h2 : (frame op m.byte param).getD 2 0 = op := rfl
  have h3 : (frame op m.byte param).getD 3 0 = m.byte := rfl
  have h4 : (frame op m.byte param).getD 4 0 = param := rfl
  simp only [decodeTxf, wellFormedTxf, byteAt, h2, h3, h4, Mode.ofByte_byte, decide_true, Option.isSome_some,
    Bool.and_self, if_true]

/-- Only a frame is read so. -/
theorem decodeTxf_ok (t : List Byte) (i : Instr) (h : decodeTxf t = .ok i) :
    ∃ op m param, i = .enc op m param ∧ t = frame op (Mode.byte m) param := by
  unfold decodeTxf at h
  split at h
  · rename_i hw
    split at h
    · rename_i m hm
      cases h
      simp only [wellFormedTxf, Bool.and_eq_true, decide_eq_true_eq] at hw
      exact ⟨_, _, _, rfl, by rw [Mode.byte_of_ofByte _ _ hm]; exact hw.1⟩
    · cases h
  · cases h

/-! ## Mnemonics -/

section Mnemonics

variable (names : List (List Byte × List Byte)) (rest : List Token)

theorem parseOperation_enc :
    parseOperation names kwEnc rest = (parseEncOperands rest).map fun o => .enc o.1 o.2.1 o.2.2 := rfl

theorem parseOperation_encKind :
    parseOperation names kwEncKind rest = (parseKindOperands rest).map fun o => .encKind o.1 o.2.1 o.2.2 := rfl

theorem parseOperation_encDuty :
    parseOperation names kwEncDuty rest = (parseByteOperand rest).map .encDuty := rfl

theorem parseOperation_encSleep :
    parseOperation names kwEncSleep rest = (parseNoOperand rest).map fun _ => .encSleep := rfl

theorem parseOperation_encWake :
    parseOperation names kwEncWake rest = (parseNoOperand rest).map fun _ => .encWake := rfl

theorem parseOperation_send : parseOperation names kwSend rest = (parseTx names rest).map .send := rfl

theorem parseOperation_csum : parseOperation names kwCsum rest = (parseList rest).map .csum := rfl

theorem parseOperation_csumTx :
    parseOperation names kwCsumTx rest = (parseEncOperands rest).map fun o => .csumTx o.1 o.2.1 o.2.2 := rfl

theorem parseOperation_csumRx : parseOperation names kwCsumRx rest = (parseList rest).map .csumRx := rfl

theorem parseOperation_scan : parseOperation names kwScan rest = (parseScanOperand rest).map .scan := rfl

theorem parseOperation_readMeas :
    parseOperation names kwReadMeas rest = (parseScanOperand rest).map .readMeas := rfl

end Mnemonics

/-! ## Whole lines -/

/-- A line that is a mnemonic and its operands. -/
theorem decodeRequest_line (names : List (List Byte × List Byte)) (line m : List Byte) (rest : List Token) (i : Instr)
    (ht : tokens line [] = .word m :: rest) (hn : ∀ r, rest ≠ .equals :: r) (h : parseOperation names m rest = .ok i)
    (hw : i.wf = true) (hl : line.head? ≠ some HDR) : decodeRequest names line = .ok ⟨none, i⟩ := by
  have hp : parseLine names (.word m :: rest) = .ok ⟨none, i⟩ := by
    unfold parseLine
    split
    · rename_i e; cases e
    · rename_i e; simp only [List.cons.injEq] at e; exact absurd e.2 (hn _)
    · rename_i e; cases e; rw [h]; rfl
    · rename_i e; exact absurd rfl (e _ _)
  simp only [decodeRequest, hl, if_false, decodeLine, ht, hp, checkRequest, hw, if_true]

/-- A line that decodes without a name is a mnemonic and operands that parse. -/
theorem decodeRequest_unnamed (names : List (List Byte × List Byte)) (line : List Byte) (i : Instr)
    (hl : line.head? ≠ some HDR) (h : decodeRequest names line = .ok ⟨none, i⟩) :
    ∃ m rest, tokens line [] = .word m :: rest ∧ parseOperation names m rest = .ok i ∧ i.wf = true := by
  simp only [decodeRequest, hl, if_false, decodeLine] at h
  split at h
  · cases h
  · rename_i r hr
    have hc : r = ⟨none, i⟩ ∧ i.wf = true := by
      unfold checkRequest at h
      split at h
      · rename_i hw; cases h; exact ⟨rfl, hw⟩
      · cases h
    obtain ⟨rfl, hw⟩ := hc
    unfold parseLine at hr
    split at hr
    · cases hr
    · rename_i n m rest _
      cases hx : parseOperation names m rest <;> rw [hx] at hr <;> cases hr
    · rename_i m rest _ ht
      cases hx : parseOperation names m rest <;> rw [hx] at hr <;> cases hr
      exact ⟨m, rest, ht, hx, hw⟩
    · cases hr

/-- What a line with a mnemonic and operands decodes to, named or not. -/
theorem decodeRequest_lineReads (names : List (List Byte × List Byte)) (line m : List Byte) (rest : List Token)
    (h : Machine.lineReads line m rest) (hn : ∀ r, rest ≠ .equals :: r) :
    (∀ e, parseOperation names m rest = .error e → decodeRequest names line = .error e) ∧
    (∀ i, parseOperation names m rest = .ok i → i.wf = false → decodeRequest names line = .error .illFormed) := by
  obtain ⟨hl, naming, hnm, ht⟩ := h
  have hp : ∃ nm, parseLine names (tokens line []) = (parseOperation names m rest).map fun i => ⟨nm, i⟩ := by
    rw [ht]
    rcases hnm with rfl | ⟨n, rfl⟩
    · refine ⟨none, ?_⟩
      simp only [List.nil_append]
      unfold parseLine
      split
      · rename_i e; cases e
      · rename_i e; simp only [List.cons.injEq] at e; exact absurd e.2 (hn _)
      · rename_i e; cases e; rfl
      · rename_i e; exact absurd rfl (e _ _)
    · exact ⟨some n, rfl⟩
  obtain ⟨nm, hp⟩ := hp
  refine ⟨fun e he => ?_, fun i hi hw => ?_⟩
  · simp only [decodeRequest, hl, if_false, decodeLine, hp, he]
    rfl
  · simp only [decodeRequest, hl, if_false, decodeLine, hp, hi, Except.map, checkRequest, hw, Bool.false_eq_true]

/-- What has a frame is in the ENC family, and its operation line parses as such. -/
theorem parseOperation_frame (names : List (List Byte × List Byte)) (m : List Byte) (rest : List Token) (i : Instr)
    (f : List Byte) (h : parseOperation names m rest = .ok i) (hf : i.frame? = some f) : parseEncFamily m rest = .ok i := by
  unfold parseOperation at h
  split at h
  · cases hx : parseTx names rest <;> rw [hx] at h <;> cases h; cases hf
  · split at h
    · cases hx : parseList rest <;> rw [hx] at h <;> cases h; cases hf
    · split at h
      · cases hx : parseEncOperands rest <;> rw [hx] at h <;> cases h; cases hf
      · split at h
        · cases hx : parseList rest <;> rw [hx] at h <;> cases h; cases hf
        · split at h
          · cases hx : parseScanOperand rest <;> rw [hx] at h <;> cases h; cases hf
          · split at h
            · cases hx : parseScanOperand rest <;> rw [hx] at h <;> cases h; cases hf
            · exact h

/-- SEND of an ENC-family line in parentheses takes its frame. -/
theorem parseTx_parenthesised (names : List (List Byte × List Byte)) (m : List Byte) (rest : List Token) (i : Instr)
    (f : List Byte) (h : parseEncFamily m rest = .ok i) (hf : i.frame? = some f) :
    parseTx names (.lparen :: .word m :: (rest ++ [.rparen])) = .ok f := by
  simp [parseTx, h, hf]

/-- Of two frames given one name the newer is found; another name changes nothing. -/
theorem lookupName_cons (names : List (List Byte × List Byte)) (m n f : List Byte) :
    lookupName ((m, f) :: names) n = if m = n then some f else lookupName names n := by
  by_cases h : m = n <;> simp [lookupName, List.find?, h]

end Sys2Proof
end

