-- ==== Sys2Proof/Laws/State.lean ====
section
/-! SUPPORT. One lemma per field per named update of State, each true by rfl, so that no later proof unfolds a record
update. -/

namespace Sys2Proof.Machine

/-! ### deliver -/

@[simp] theorem State.deliver_phase (s : State) (r : OpResult) : (s.deliver r).phase = s.phase := rfl
@[simp] theorem State.deliver_bud (s : State) (r : OpResult) : (s.deliver r).bud = s.bud := rfl
@[simp] theorem State.deliver_cmd (s : State) (r : OpResult) : (s.deliver r).cmd = s.cmd := rfl
@[simp] theorem State.deliver_pay (s : State) (r : OpResult) : (s.deliver r).pay = s.pay := rfl
@[simp] theorem State.deliver_att (s : State) (r : OpResult) : (s.deliver r).att = s.att := rfl
@[simp] theorem State.deliver_res (s : State) (r : OpResult) : (s.deliver r).res = s.res := rfl
@[simp] theorem State.deliver_diag (s : State) (r : OpResult) : (s.deliver r).diag = s.diag := rfl
@[simp] theorem State.deliver_source (s : State) (r : OpResult) : (s.deliver r).source = s.source := rfl
@[simp] theorem State.deliver_taken (s : State) (r : OpResult) : (s.deliver r).taken = s.taken := rfl
@[simp] theorem State.deliver_sink (s : State) (r : OpResult) : (s.deliver r).sink = s.sink := rfl
@[simp] theorem State.deliver_outbound (s : State) (r : OpResult) : (s.deliver r).outbound = s.outbound := rfl
@[simp] theorem State.deliver_clock (s : State) (r : OpResult) : (s.deliver r).clock = s.clock := rfl
@[simp] theorem State.deliver_requests (s : State) (r : OpResult) : (s.deliver r).requests = s.requests := rfl
@[simp] theorem State.deliver_names (s : State) (r : OpResult) : (s.deliver r).names = s.names := rfl
@[simp] theorem State.deliver_results (s : State) (r : OpResult) : (s.deliver r).results = s.results ++ [r] := rfl
@[simp] theorem State.deliver_resetPending (s : State) (r : OpResult) : (s.deliver r).resetPending = s.resetPending := rfl
@[simp] theorem State.deliver_srcReads (s : State) (r : OpResult) : (s.deliver r).srcReads = s.srcReads := rfl
@[simp] theorem State.deliver_sinkWrites (s : State) (r : OpResult) : (s.deliver r).sinkWrites = s.sinkWrites := rfl
@[simp] theorem State.deliver_clockDraws (s : State) (r : OpResult) : (s.deliver r).clockDraws = s.clockDraws := rfl

/-! ### emit -/

@[simp] theorem State.emit_phase (s : State) (e : DiagEvent) : (s.emit e).phase = s.phase := rfl
@[simp] theorem State.emit_bud (s : State) (e : DiagEvent) : (s.emit e).bud = s.bud := rfl
@[simp] theorem State.emit_cmd (s : State) (e : DiagEvent) : (s.emit e).cmd = s.cmd := rfl
@[simp] theorem State.emit_pay (s : State) (e : DiagEvent) : (s.emit e).pay = s.pay := rfl
@[simp] theorem State.emit_att (s : State) (e : DiagEvent) : (s.emit e).att = s.att := rfl
@[simp] theorem State.emit_res (s : State) (e : DiagEvent) : (s.emit e).res = s.res := rfl
@[simp] theorem State.emit_diag (s : State) (e : DiagEvent) : (s.emit e).diag = s.diag ++ [e] := rfl
@[simp] theorem State.emit_source (s : State) (e : DiagEvent) : (s.emit e).source = s.source := rfl
@[simp] theorem State.emit_taken (s : State) (e : DiagEvent) : (s.emit e).taken = s.taken := rfl
@[simp] theorem State.emit_sink (s : State) (e : DiagEvent) : (s.emit e).sink = s.sink := rfl
@[simp] theorem State.emit_outbound (s : State) (e : DiagEvent) : (s.emit e).outbound = s.outbound := rfl
@[simp] theorem State.emit_clock (s : State) (e : DiagEvent) : (s.emit e).clock = s.clock := rfl
@[simp] theorem State.emit_requests (s : State) (e : DiagEvent) : (s.emit e).requests = s.requests := rfl
@[simp] theorem State.emit_names (s : State) (e : DiagEvent) : (s.emit e).names = s.names := rfl
@[simp] theorem State.emit_results (s : State) (e : DiagEvent) : (s.emit e).results = s.results := rfl
@[simp] theorem State.emit_resetPending (s : State) (e : DiagEvent) : (s.emit e).resetPending = s.resetPending := rfl
@[simp] theorem State.emit_srcReads (s : State) (e : DiagEvent) : (s.emit e).srcReads = s.srcReads := rfl
@[simp] theorem State.emit_sinkWrites (s : State) (e : DiagEvent) : (s.emit e).sinkWrites = s.sinkWrites := rfl
@[simp] theorem State.emit_clockDraws (s : State) (e : DiagEvent) : (s.emit e).clockDraws = s.clockDraws := rfl

/-! ### startCall -/

@[simp] theorem State.startCall_phase (s : State) (b : Budget) : (s.startCall b).phase = .hunt := rfl
@[simp] theorem State.startCall_bud (s : State) (b : Budget) : (s.startCall b).bud = some b := rfl
@[simp] theorem State.startCall_cmd (s : State) (b : Budget) : (s.startCall b).cmd = none := rfl
@[simp] theorem State.startCall_pay (s : State) (b : Budget) : (s.startCall b).pay = [] := rfl
@[simp] theorem State.startCall_att (s : State) (b : Budget) : (s.startCall b).att = 0 := rfl
@[simp] theorem State.startCall_res (s : State) (b : Budget) : (s.startCall b).res = none := rfl
@[simp] theorem State.startCall_diag (s : State) (b : Budget) : (s.startCall b).diag = [] := rfl
@[simp] theorem State.startCall_source (s : State) (b : Budget) : (s.startCall b).source = s.source := rfl
@[simp] theorem State.startCall_taken (s : State) (b : Budget) : (s.startCall b).taken = s.taken := rfl
@[simp] theorem State.startCall_sink (s : State) (b : Budget) : (s.startCall b).sink = s.sink := rfl
@[simp] theorem State.startCall_outbound (s : State) (b : Budget) : (s.startCall b).outbound = s.outbound := rfl
@[simp] theorem State.startCall_clock (s : State) (b : Budget) : (s.startCall b).clock = s.clock := rfl
@[simp] theorem State.startCall_requests (s : State) (b : Budget) : (s.startCall b).requests = s.requests := rfl
@[simp] theorem State.startCall_names (s : State) (b : Budget) : (s.startCall b).names = s.names := rfl
@[simp] theorem State.startCall_results (s : State) (b : Budget) : (s.startCall b).results = s.results := rfl
@[simp] theorem State.startCall_resetPending (s : State) (b : Budget) : (s.startCall b).resetPending = s.resetPending := rfl
@[simp] theorem State.startCall_srcReads (s : State) (b : Budget) : (s.startCall b).srcReads = s.srcReads := rfl
@[simp] theorem State.startCall_sinkWrites (s : State) (b : Budget) : (s.startCall b).sinkWrites = s.sinkWrites := rfl
@[simp] theorem State.startCall_clockDraws (s : State) (b : Budget) : (s.startCall b).clockDraws = s.clockDraws := rfl

/-! ### finishWith -/

@[simp] theorem State.finishWith_phase (s : State) (r : FrameResult) : (s.finishWith r).phase = .done := rfl
@[simp] theorem State.finishWith_bud (s : State) (r : FrameResult) : (s.finishWith r).bud = s.bud := rfl
@[simp] theorem State.finishWith_cmd (s : State) (r : FrameResult) : (s.finishWith r).cmd = s.cmd := rfl
@[simp] theorem State.finishWith_pay (s : State) (r : FrameResult) : (s.finishWith r).pay = s.pay := rfl
@[simp] theorem State.finishWith_att (s : State) (r : FrameResult) : (s.finishWith r).att = s.att := rfl
@[simp] theorem State.finishWith_res (s : State) (r : FrameResult) : (s.finishWith r).res = some r := rfl
@[simp] theorem State.finishWith_diag (s : State) (r : FrameResult) : (s.finishWith r).diag = s.diag := rfl
@[simp] theorem State.finishWith_source (s : State) (r : FrameResult) : (s.finishWith r).source = s.source := rfl
@[simp] theorem State.finishWith_taken (s : State) (r : FrameResult) : (s.finishWith r).taken = s.taken := rfl
@[simp] theorem State.finishWith_sink (s : State) (r : FrameResult) : (s.finishWith r).sink = s.sink := rfl
@[simp] theorem State.finishWith_outbound (s : State) (r : FrameResult) : (s.finishWith r).outbound = s.outbound := rfl
@[simp] theorem State.finishWith_clock (s : State) (r : FrameResult) : (s.finishWith r).clock = s.clock := rfl
@[simp] theorem State.finishWith_requests (s : State) (r : FrameResult) : (s.finishWith r).requests = s.requests := rfl
@[simp] theorem State.finishWith_names (s : State) (r : FrameResult) : (s.finishWith r).names = s.names := rfl
@[simp] theorem State.finishWith_results (s : State) (r : FrameResult) : (s.finishWith r).results = s.results := rfl
@[simp] theorem State.finishWith_resetPending (s : State) (r : FrameResult) : (s.finishWith r).resetPending = s.resetPending := rfl
@[simp] theorem State.finishWith_srcReads (s : State) (r : FrameResult) : (s.finishWith r).srcReads = s.srcReads := rfl
@[simp] theorem State.finishWith_sinkWrites (s : State) (r : FrameResult) : (s.finishWith r).sinkWrites = s.sinkWrites := rfl
@[simp] theorem State.finishWith_clockDraws (s : State) (r : FrameResult) : (s.finishWith r).clockDraws = s.clockDraws := rfl

/-! ### raiseTransportFault -/

@[simp] theorem State.raiseTransportFault_phase (s : State) (c : Cause) : (s.raiseTransportFault c).phase = .done := rfl
@[simp] theorem State.raiseTransportFault_bud (s : State) (c : Cause) : (s.raiseTransportFault c).bud = s.bud := rfl
@[simp] theorem State.raiseTransportFault_cmd (s : State) (c : Cause) : (s.raiseTransportFault c).cmd = s.cmd := rfl
@[simp] theorem State.raiseTransportFault_pay (s : State) (c : Cause) : (s.raiseTransportFault c).pay = s.pay := rfl
@[simp] theorem State.raiseTransportFault_att (s : State) (c : Cause) : (s.raiseTransportFault c).att = s.att := rfl
@[simp] theorem State.raiseTransportFault_res (s : State) (c : Cause) : (s.raiseTransportFault c).res = some (.transportError c) := rfl
@[simp] theorem State.raiseTransportFault_diag (s : State) (c : Cause) : (s.raiseTransportFault c).diag = s.diag := rfl
@[simp] theorem State.raiseTransportFault_source (s : State) (c : Cause) : (s.raiseTransportFault c).source = s.source := rfl
@[simp] theorem State.raiseTransportFault_taken (s : State) (c : Cause) : (s.raiseTransportFault c).taken = s.taken := rfl
@[simp] theorem State.raiseTransportFault_sink (s : State) (c : Cause) : (s.raiseTransportFault c).sink = s.sink := rfl
@[simp] theorem State.raiseTransportFault_outbound (s : State) (c : Cause) : (s.raiseTransportFault c).outbound = s.outbound := rfl
@[simp] theorem State.raiseTransportFault_clock (s : State) (c : Cause) : (s.raiseTransportFault c).clock = s.clock := rfl
@[simp] theorem State.raiseTransportFault_requests (s : State) (c : Cause) : (s.raiseTransportFault c).requests = s.requests := rfl
@[simp] theorem State.raiseTransportFault_names (s : State) (c : Cause) : (s.raiseTransportFault c).names = s.names := rfl
@[simp] theorem State.raiseTransportFault_results (s : State) (c : Cause) : (s.raiseTransportFault c).results = s.results := rfl
@[simp] theorem State.raiseTransportFault_resetPending (s : State) (c : Cause) : (s.raiseTransportFault c).resetPending = s.resetPending := rfl
@[simp] theorem State.raiseTransportFault_srcReads (s : State) (c : Cause) : (s.raiseTransportFault c).srcReads = s.srcReads := rfl
@[simp] theorem State.raiseTransportFault_sinkWrites (s : State) (c : Cause) : (s.raiseTransportFault c).sinkWrites = s.sinkWrites := rfl
@[simp] theorem State.raiseTransportFault_clockDraws (s : State) (c : Cause) : (s.raiseTransportFault c).clockDraws = s.clockDraws := rfl

/-! ### headerMatched -/

@[simp] theorem State.headerMatched_phase (s : State) : (s.headerMatched).phase = .cmdWait := rfl
@[simp] theorem State.headerMatched_bud (s : State) : (s.headerMatched).bud = s.bud := rfl
@[simp] theorem State.headerMatched_cmd (s : State) : (s.headerMatched).cmd = s.cmd := rfl
@[simp] theorem State.headerMatched_pay (s : State) : (s.headerMatched).pay = s.pay := rfl
@[simp] theorem State.headerMatched_att (s : State) : (s.headerMatched).att = s.att := rfl
@[simp] theorem State.headerMatched_res (s : State) : (s.headerMatched).res = s.res := rfl
@[simp] theorem State.headerMatched_diag (s : State) : (s.headerMatched).diag = s.diag := rfl
@[simp] theorem State.headerMatched_source (s : State) : (s.headerMatched).source = s.source := rfl
@[simp] theorem State.headerMatched_taken (s : State) : (s.headerMatched).taken = s.taken := rfl
@[simp] theorem State.headerMatched_sink (s : State) : (s.headerMatched).sink = s.sink := rfl
@[simp] theorem State.headerMatched_outbound (s : State) : (s.headerMatched).outbound = s.outbound := rfl
@[simp] theorem State.headerMatched_clock (s : State) : (s.headerMatched).clock = s.clock := rfl
@[simp] theorem State.headerMatched_requests (s : State) : (s.headerMatched).requests = s.requests := rfl
@[simp] theorem State.headerMatched_names (s : State) : (s.headerMatched).names = s.names := rfl
@[simp] theorem State.headerMatched_results (s : State) : (s.headerMatched).results = s.results := rfl
@[simp] theorem State.headerMatched_resetPending (s : State) : (s.headerMatched).resetPending = s.resetPending := rfl
@[simp] theorem State.headerMatched_srcReads (s : State) : (s.headerMatched).srcReads = s.srcReads := rfl
@[simp] theorem State.headerMatched_sinkWrites (s : State) : (s.headerMatched).sinkWrites = s.sinkWrites := rfl
@[simp] theorem State.headerMatched_clockDraws (s : State) : (s.headerMatched).clockDraws = s.clockDraws := rfl

/-! ### latchCommand -/

@[simp] theorem State.latchCommand_phase (s : State) (k : Byte) : (s.latchCommand k).phase = .payload := rfl
@[simp] theorem State.latchCommand_bud (s : State) (k : Byte) : (s.latchCommand k).bud = s.bud := rfl
@[simp] theorem State.latchCommand_cmd (s : State) (k : Byte) : (s.latchCommand k).cmd = some k := rfl
@[simp] theorem State.latchCommand_pay (s : State) (k : Byte) : (s.latchCommand k).pay = s.pay := rfl
@[simp] theorem State.latchCommand_att (s : State) (k : Byte) : (s.latchCommand k).att = s.att := rfl
@[simp] theorem State.latchCommand_res (s : State) (k : Byte) : (s.latchCommand k).res = s.res := rfl
@[simp] theorem State.latchCommand_diag (s : State) (k : Byte) : (s.latchCommand k).diag = s.diag := rfl
@[simp] theorem State.latchCommand_source (s : State) (k : Byte) : (s.latchCommand k).source = s.source := rfl
@[simp] theorem State.latchCommand_taken (s : State) (k : Byte) : (s.latchCommand k).taken = s.taken := rfl
@[simp] theorem State.latchCommand_sink (s : State) (k : Byte) : (s.latchCommand k).sink = s.sink := rfl
@[simp] theorem State.latchCommand_outbound (s : State) (k : Byte) : (s.latchCommand k).outbound = s.outbound := rfl
@[simp] theorem State.latchCommand_clock (s : State) (k : Byte) : (s.latchCommand k).clock = s.clock := rfl
@[simp] theorem State.latchCommand_requests (s : State) (k : Byte) : (s.latchCommand k).requests = s.requests := rfl
@[simp] theorem State.latchCommand_names (s : State) (k : Byte) : (s.latchCommand k).names = s.names := rfl
@[simp] theorem State.latchCommand_results (s : State) (k : Byte) : (s.latchCommand k).results = s.results := rfl
@[simp] theorem State.latchCommand_resetPending (s : State) (k : Byte) : (s.latchCommand k).resetPending = s.resetPending := rfl
@[simp] theorem State.latchCommand_srcReads (s : State) (k : Byte) : (s.latchCommand k).srcReads = s.srcReads := rfl
@[simp] theorem State.latchCommand_sinkWrites (s : State) (k : Byte) : (s.latchCommand k).sinkWrites = s.sinkWrites := rfl
@[simp] theorem State.latchCommand_clockDraws (s : State) (k : Byte) : (s.latchCommand k).clockDraws = s.clockDraws := rfl

/-! ### blockReset -/

@[simp] theorem State.blockReset_phase (s : State) : (s.blockReset).phase = .idle := rfl
@[simp] theorem State.blockReset_bud (s : State) : (s.blockReset).bud = none := rfl
@[simp] theorem State.blockReset_cmd (s : State) : (s.blockReset).cmd = none := rfl
@[simp] theorem State.blockReset_pay (s : State) : (s.blockReset).pay = [] := rfl
@[simp] theorem State.blockReset_att (s : State) : (s.blockReset).att = 0 := rfl
@[simp] theorem State.blockReset_res (s : State) : (s.blockReset).res = none := rfl
@[simp] theorem State.blockReset_diag (s : State) : (s.blockReset).diag = [] := rfl
@[simp] theorem State.blockReset_source (s : State) : (s.blockReset).source = s.source := rfl
@[simp] theorem State.blockReset_taken (s : State) : (s.blockReset).taken = s.taken := rfl
@[simp] theorem State.blockReset_sink (s : State) : (s.blockReset).sink = s.sink := rfl
@[simp] theorem State.blockReset_outbound (s : State) : (s.blockReset).outbound = s.outbound := rfl
@[simp] theorem State.blockReset_clock (s : State) : (s.blockReset).clock = s.clock := rfl
@[simp] theorem State.blockReset_requests (s : State) : (s.blockReset).requests = s.requests := rfl
@[simp] theorem State.blockReset_names (s : State) : (s.blockReset).names = s.names := rfl
@[simp] theorem State.blockReset_results (s : State) : (s.blockReset).results = s.results := rfl
@[simp] theorem State.blockReset_resetPending (s : State) : (s.blockReset).resetPending = false := rfl
@[simp] theorem State.blockReset_srcReads (s : State) : (s.blockReset).srcReads = s.srcReads := rfl
@[simp] theorem State.blockReset_sinkWrites (s : State) : (s.blockReset).sinkWrites = s.sinkWrites := rfl
@[simp] theorem State.blockReset_clockDraws (s : State) : (s.blockReset).clockDraws = s.clockDraws := rfl

/-! ### srcRead and sinkWrite -/

@[simp] theorem srcRead_answer (n : Nat) (s : State) : (srcRead n s).1 = (s.source.read s.srcReads n).1 := rfl
@[simp] theorem srcRead_phase (n : Nat) (s : State) : (srcRead n s).2.phase = s.phase := rfl
@[simp] theorem srcRead_bud (n : Nat) (s : State) : (srcRead n s).2.bud = s.bud := rfl
@[simp] theorem srcRead_cmd (n : Nat) (s : State) : (srcRead n s).2.cmd = s.cmd := rfl
@[simp] theorem srcRead_pay (n : Nat) (s : State) : (srcRead n s).2.pay = s.pay := rfl
@[simp] theorem srcRead_att (n : Nat) (s : State) : (srcRead n s).2.att = s.att := rfl
@[simp] theorem srcRead_res (n : Nat) (s : State) : (srcRead n s).2.res = s.res := rfl
@[simp] theorem srcRead_diag (n : Nat) (s : State) : (srcRead n s).2.diag = s.diag := rfl
@[simp] theorem srcRead_source (n : Nat) (s : State) : (srcRead n s).2.source = (s.source.read s.srcReads n).2 := rfl
@[simp] theorem srcRead_taken (n : Nat) (s : State) : (srcRead n s).2.taken = s.taken ++ answerBytes (s.source.read s.srcReads n).1 := rfl
@[simp] theorem srcRead_sink (n : Nat) (s : State) : (srcRead n s).2.sink = s.sink := rfl
@[simp] theorem srcRead_outbound (n : Nat) (s : State) : (srcRead n s).2.outbound = s.outbound := rfl
@[simp] theorem srcRead_clock (n : Nat) (s : State) : (srcRead n s).2.clock = s.clock := rfl
@[simp] theorem srcRead_requests (n : Nat) (s : State) : (srcRead n s).2.requests = s.requests := rfl
@[simp] theorem srcRead_names (n : Nat) (s : State) : (srcRead n s).2.names = s.names := rfl
@[simp] theorem srcRead_results (n : Nat) (s : State) : (srcRead n s).2.results = s.results := rfl
@[simp] theorem srcRead_resetPending (n : Nat) (s : State) : (srcRead n s).2.resetPending = s.resetPending := rfl
@[simp] theorem srcRead_srcReads (n : Nat) (s : State) : (srcRead n s).2.srcReads = s.srcReads + 1 := rfl
@[simp] theorem srcRead_sinkWrites (n : Nat) (s : State) : (srcRead n s).2.sinkWrites = s.sinkWrites := rfl
@[simp] theorem srcRead_clockDraws (n : Nat) (s : State) : (srcRead n s).2.clockDraws = s.clockDraws := rfl

@[simp] theorem sinkWrite_answer (tx : List Byte) (s : State) : (sinkWrite tx s).1 = (s.sink.write s.sinkWrites).1 := rfl
@[simp] theorem sinkWrite_phase (tx : List Byte) (s : State) : (sinkWrite tx s).2.phase = s.phase := rfl
@[simp] theorem sinkWrite_bud (tx : List Byte) (s : State) : (sinkWrite tx s).2.bud = s.bud := rfl
@[simp] theorem sinkWrite_cmd (tx : List Byte) (s : State) : (sinkWrite tx s).2.cmd = s.cmd := rfl
@[simp] theorem sinkWrite_pay (tx : List Byte) (s : State) : (sinkWrite tx s).2.pay = s.pay := rfl
@[simp] theorem sinkWrite_att (tx : List Byte) (s : State) : (sinkWrite tx s).2.att = s.att := rfl
@[simp] theorem sinkWrite_res (tx : List Byte) (s : State) : (sinkWrite tx s).2.res = s.res := rfl
@[simp] theorem sinkWrite_diag (tx : List Byte) (s : State) : (sinkWrite tx s).2.diag = s.diag := rfl
@[simp] theorem sinkWrite_source (tx : List Byte) (s : State) : (sinkWrite tx s).2.source = s.source := rfl
@[simp] theorem sinkWrite_taken (tx : List Byte) (s : State) : (sinkWrite tx s).2.taken = s.taken := rfl
@[simp] theorem sinkWrite_sink (tx : List Byte) (s : State) : (sinkWrite tx s).2.sink = (s.sink.write s.sinkWrites).2 := rfl
@[simp] theorem sinkWrite_outbound (tx : List Byte) (s : State) : (sinkWrite tx s).2.outbound = s.outbound ++ placedBytes tx (s.sink.write s.sinkWrites).1 := rfl
@[simp] theorem sinkWrite_clock (tx : List Byte) (s : State) : (sinkWrite tx s).2.clock = s.clock := rfl
@[simp] theorem sinkWrite_requests (tx : List Byte) (s : State) : (sinkWrite tx s).2.requests = s.requests := rfl
@[simp] theorem sinkWrite_names (tx : List Byte) (s : State) : (sinkWrite tx s).2.names = s.names := rfl
@[simp] theorem sinkWrite_results (tx : List Byte) (s : State) : (sinkWrite tx s).2.results = s.results := rfl
@[simp] theorem sinkWrite_resetPending (tx : List Byte) (s : State) : (sinkWrite tx s).2.resetPending = s.resetPending := rfl
@[simp] theorem sinkWrite_srcReads (tx : List Byte) (s : State) : (sinkWrite tx s).2.srcReads = s.srcReads := rfl
@[simp] theorem sinkWrite_sinkWrites (tx : List Byte) (s : State) : (sinkWrite tx s).2.sinkWrites = s.sinkWrites + 1 := rfl
@[simp] theorem sinkWrite_clockDraws (tx : List Byte) (s : State) : (sinkWrite tx s).2.clockDraws = s.clockDraws := rfl

end Sys2Proof.Machine
end

