-- ==== Sys2Proof/Laws/Ops.lean ====
section
/-! SUPPORT. What each shared operation can do, said once; provers cite these and do not unfold. -/

namespace Sys2Proof.Machine

/-! ## Reads -/

theorem Source.read_cases (k n : Nat) (src : Source) :
    (∃ bs, (src.read k n).1 = .bytes bs ∧ bs.length ≤ n) ∨ (∃ c, (src.read k n).1 = .err c) := by
  unfold Source.read
  split
  · exact .inl ⟨_, rfl, by simp⟩
  · cases Config.freeRead k n with
    | bytes b => exact .inl ⟨b.take n, rfl, by simp⟩
    | err c => exact .inr ⟨c, rfl⟩
  · exact .inr ⟨_, rfl⟩
  · split
    · exact .inl ⟨_, rfl, ‹_›⟩
    · exact .inl ⟨_, rfl, by simp⟩

@[simp] theorem Source.read_prompt (k n : Nat) (q : List Byte) :
    (Source.prompt q).read k n = (.bytes (q.take n), .prompt (q.drop n)) := rfl

/-- A read either returns at most the bytes asked for or fails; the state after it is the state before with the stream
moved on. -/
theorem srcRead_cases (n : Nat) (s : State) :
    (∃ bs t, srcRead n s = (.bytes bs, t) ∧ bs.length ≤ n ∧
      t = { s with source := (s.source.read s.srcReads n).2, taken := s.taken ++ bs, srcReads := s.srcReads + 1 }) ∨
    (∃ c t, srcRead n s = (.err c, t) ∧
      t = { s with source := (s.source.read s.srcReads n).2, srcReads := s.srcReads + 1 }) := by
  rcases Source.read_cases s.srcReads n s.source with ⟨bs, h, hl⟩ | ⟨c, h⟩
  · exact .inl ⟨bs, _, by simp only [srcRead, h]; rfl, hl, by simp [answerBytes]⟩
  · exact .inr ⟨c, _, by simp only [srcRead, h]; rfl, by simp [answerBytes]⟩

theorem srcRead_prompt (n : Nat) (s : State) (q : List Byte) (h : s.source = .prompt q) :
    srcRead n s = (.bytes (q.take n),
      { s with source := .prompt (q.drop n), taken := s.taken ++ q.take n, srcReads := s.srcReads + 1 }) := by
  simp only [srcRead, h, Source.read_prompt, answerBytes]

/-! ## The budget check -/

@[simp] theorem expired_zero (s : State) (h : s.bud = some .zero) : expired s = (true, s) := by
  simp [expired, h]

@[simp] theorem expired_unlimited (s : State) (h : s.bud = some .unlimited) : expired s = (false, s) := by
  simp [expired, h]

/-- Where the budget is neither Zero nor Unlimited, the check is a draw of the clock. -/
theorem expired_draw (s : State) (hz : s.bud ≠ some .zero) (hu : s.bud ≠ some .unlimited) : expired s = drawClock s := by
  unfold expired
  split <;> simp_all

/-- A draw changes nothing but the clock. -/
theorem drawClock_cases (s : State) : ∃ b cl n, drawClock s = (b, { s with clock := cl, clockDraws := n }) := by
  unfold drawClock
  split <;> exact ⟨_, _, _, rfl⟩

/-- A budget check changes nothing but the clock. -/
theorem expired_cases (s : State) :
    ∃ b cl n, expired s = (b, { s with clock := cl, clockDraws := n }) ∧
      (s.bud = some .zero → b = true) ∧ (s.bud = some .unlimited → b = false) := by
  by_cases hz : s.bud = some .zero
  · exact ⟨true, s.clock, s.clockDraws, expired_zero s hz, fun _ => rfl, by simp [hz]⟩
  · by_cases hu : s.bud = some .unlimited
    · exact ⟨false, s.clock, s.clockDraws, expired_unlimited s hu, by simp [hu], fun _ => rfl⟩
    · obtain ⟨b, cl, n, h⟩ := drawClock_cases s
      exact ⟨b, cl, n, (expired_draw s hz hu).trans h, fun h => absurd h hz, fun h => absurd h hu⟩

/-- The end of an attempt always goes on: the next attempt starts in HUNT, or the call ends with NoFrame; ATT goes up and
only the clock moves otherwise. -/
theorem endAttempt_cases (s : State) :
    ∃ cl n, (endAttempt s = .next { s with att := s.att + 1, phase := .hunt, clock := cl, clockDraws := n } ∧
        s.bud ≠ some .zero) ∨
      (endAttempt s = .next { s with att := s.att + 1, phase := .done, res := some .noFrame, clock := cl, clockDraws := n } ∧
        s.bud ≠ some .unlimited) := by
  obtain ⟨b, cl, n, he, hz, hu⟩ := expired_cases { s with att := s.att + 1, phase := .hunt }
  refine ⟨cl, n, ?_⟩
  unfold endAttempt
  rw [he]
  cases b with
  | false => exact .inl ⟨rfl, fun h => by simpa using hz h⟩
  | true => exact .inr ⟨rfl, fun h => by simpa using hu h⟩

/-- The end of a call goes on only with a result, and returns it. -/
theorem endCall_next (s t : State) (h : endCall s = .next t) :
    ∃ r, s.res = some r ∧ t = { s with phase := .idle }.deliver (.scanned r s.diag) := by
  unfold endCall at h
  split at h
  · cases h
  · rename_i r hr; cases h; exact ⟨r, hr, rfl⟩

/-! ## Units -/

@[simp] theorem CMD_ACK_ne_CMD_MEAS : CMD_ACK ≠ CMD_MEAS := by decide

@[simp] theorem CMD_MEAS_ne_CMD_ACK : CMD_MEAS ≠ CMD_ACK := by decide

@[simp] theorem decodeUnit_noise (b : Byte) (h : b ≠ HDR) : decodeUnit [b] = .ok (.rxNoise b) := by
  simp [decodeUnit, h]

@[simp] theorem decodeUnit_header : decodeUnit [HDR] = .ok (.rxfFalsePos none) := by
  simp [decodeUnit]

@[simp] theorem decodeUnit_falsePos (k : Byte) (hm : k ≠ CMD_MEAS) (ha : k ≠ CMD_ACK) :
    decodeUnit [HDR, k] = .ok (.rxfFalsePos (some k)) := by
  simp [decodeUnit, hm, ha]

@[simp] theorem decodeUnit_meas (pay : List Byte) (h : pay.length = RX_PAYLOAD_LEN) :
    decodeUnit (HDR :: CMD_MEAS :: pay) = .ok (.rxfMeas pay) := by
  simp [decodeUnit, h]

@[simp] theorem decodeUnit_ack (pay : List Byte) (h : pay.length = RX_PAYLOAD_LEN) :
    decodeUnit (HDR :: CMD_ACK :: pay) = .ok (.rxfAck pay) := by
  simp [decodeUnit, h]

theorem exec_rxNoise (b : Byte) (s : State) (hb : b ≠ HDR) (hp : s.phase = .hunt) :
    exec (.rxNoise b) s = endAttempt s := by
  simp [exec, execRxNoise, hb, hp]

theorem exec_rxfFalsePos (k : Option Byte) (s : State) (hm : k ≠ some CMD_MEAS) (ha : k ≠ some CMD_ACK)
    (hp : s.phase = .cmdWait) : exec (.rxfFalsePos k) s = endAttempt s := by
  simp [exec, execRxfFalsePos, hm, ha, hp]

theorem exec_rxfMeas (pay : List Byte) (s : State) (hl : pay.length = RX_PAYLOAD_LEN) (hp : s.phase = .payload)
    (hc : s.cmd = some CMD_MEAS) : exec (.rxfMeas pay) s = .next (evalMeas { s with pay := pay }) := by
  simp [exec, execRxfMeas, inPayload, hl, hp, hc]

theorem exec_rxfAck (pay : List Byte) (s : State) (hl : pay.length = RX_PAYLOAD_LEN) (hp : s.phase = .payload)
    (hc : s.cmd = some CMD_ACK) :
    exec (.rxfAck pay) s = .next ({ s with pay := pay }.finishWith .acknowledgment) := by
  simp [exec, execRxfAck, inPayload, hl, hp, hc]

/-- A measurement evaluation changes RES, PHASE and, for an Invalid one, DIAG. -/
theorem evalMeas_eq (s : State) :
    evalMeas s = { s with
      res := some (.measurement (measurementOf s.pay))
      diag := if statusOf s.pay = .valid then s.diag
              else s.diag ++ [.badPacket ([HDR, CMD_MEAS] ++ s.pay) (ckOk s.pay) (tailOk s.pay)]
      phase := .done } := by
  unfold evalMeas State.emitBadPacket
  cases h : statusOf s.pay <;> simp [State.finishWith, State.emit]

/-! ## The step of each phase -/

theorem step_reset (s : State) (h : s.resetPending = true) : step s = .next s.blockReset := by
  simp [step, h]

theorem step_phase (s : State) (h : s.resetPending = false) : step s = phaseStep s := by
  simp [step, h]

theorem step_idle (s : State) (h : s.resetPending = false) (hp : s.phase = .idle) : step s = idleStep s := by
  rw [step_phase s h, phaseStep, hp]

theorem step_hunt (s : State) (h : s.resetPending = false) (hp : s.phase = .hunt) : step s = huntStep s := by
  rw [step_phase s h, phaseStep, hp]

theorem step_cmdWait (s : State) (h : s.resetPending = false) (hp : s.phase = .cmdWait) : step s = cmdWaitStep s := by
  rw [step_phase s h, phaseStep, hp]

theorem step_payload (s : State) (h : s.resetPending = false) (hp : s.phase = .payload) : step s = payloadStep s := by
  rw [step_phase s h, phaseStep, hp]

theorem step_done (s : State) (h : s.resetPending = false) (hp : s.phase = .done) : step s = endCall s := by
  rw [step_phase s h, phaseStep, hp]

/-- HUNT, by the answer of its read. -/
theorem huntStep_cases (s : State) (hp : s.phase = .hunt) :
    (∃ t, srcRead 1 s = (.bytes [HDR], t) ∧ huntStep s = .next t.headerMatched) ∨
    (∃ b t, b ≠ HDR ∧ srcRead 1 s = (.bytes [b], t) ∧ huntStep s = endAttempt t) ∨
    (∃ t, srcRead 1 s = (.bytes [], t) ∧ huntStep s = endAttempt t) ∨
    (∃ c t, srcRead 1 s = (.err c, t) ∧ huntStep s = .next (t.raiseTransportFault c)) := by
  rcases srcRead_cases 1 s with ⟨bs, t, h, hl, ht⟩ | ⟨c, t, h, -⟩
  · match bs, hl with
    | [], _ => exact .inr (.inr (.inl ⟨t, h, by simp [huntStep, h]⟩))
    | [b], _ =>
      by_cases hb : b = HDR
      · subst hb; exact .inl ⟨t, h, by simp [huntStep, h]⟩
      · have hpt : t.phase = .hunt := by rw [ht]; exact hp
        exact .inr (.inl ⟨b, t, hb, h, by
          simp only [huntStep, h, hb, if_false, runUnit, decodeUnit_noise b hb, exec_rxNoise b t hb hpt]⟩)
  · exact .inr (.inr (.inr ⟨c, t, h, by simp [huntStep, h]⟩))

/-- CMDWAIT, by the answer of its read. -/
theorem cmdWaitStep_cases (s : State) (hp : s.phase = .cmdWait) :
    (∃ k t, (k = CMD_MEAS ∨ k = CMD_ACK) ∧ srcRead 1 s = (.bytes [k], t) ∧ cmdWaitStep s = .next (t.latchCommand k)) ∨
    (∃ k t, k ≠ CMD_MEAS ∧ k ≠ CMD_ACK ∧ srcRead 1 s = (.bytes [k], t) ∧ cmdWaitStep s = endAttempt t) ∨
    (∃ t, srcRead 1 s = (.bytes [], t) ∧ cmdWaitStep s = endAttempt t) ∨
    (∃ c t, srcRead 1 s = (.err c, t) ∧ cmdWaitStep s = .next (t.raiseTransportFault c)) := by
  rcases srcRead_cases 1 s with ⟨bs, t, h, hl, ht⟩ | ⟨c, t, h, -⟩
  · have hpt : t.phase = .cmdWait := by rw [ht]; exact hp
    match bs, hl with
    | [], _ =>
      exact .inr (.inr (.inl ⟨t, h, by
        simp only [cmdWaitStep, h, List.nil_eq, reduceCtorEq, or_self, if_false, runUnit, decodeUnit_header]
        exact exec_rxfFalsePos none t (by simp) (by simp) hpt⟩))
    | [k], _ =>
      by_cases hk : k = CMD_MEAS ∨ k = CMD_ACK
      · exact .inl ⟨k, t, hk, h, by simp [cmdWaitStep, h, byteAt, hk]⟩
      · have hm : k ≠ CMD_MEAS := fun e => hk (.inl e)
        have ha : k ≠ CMD_ACK := fun e => hk (.inr e)
        exact .inr (.inl ⟨k, t, hm, ha, h, by
          simp only [cmdWaitStep, h, List.cons.injEq, and_true, hk, if_false, runUnit, decodeUnit_falsePos k hm ha]
          exact exec_rxfFalsePos (some k) t (by simpa using hm) (by simpa using ha) hpt⟩)
  · exact .inr (.inr (.inr ⟨c, t, h, by simp [cmdWaitStep, h]⟩))

/-- PAYLOAD with a command byte latched, by the answer of its read. -/
theorem payloadStep_cases (s : State) (k : Byte) (hp : s.phase = .payload) (hc : s.cmd = some k)
    (hk : k = CMD_MEAS ∨ k = CMD_ACK) :
    (∃ bs t, srcRead RX_PAYLOAD_LEN s = (.bytes bs, t) ∧ bs.length = RX_PAYLOAD_LEN ∧ k = CMD_MEAS ∧
      payloadStep s = .next (evalMeas { t with pay := bs })) ∨
    (∃ bs t, srcRead RX_PAYLOAD_LEN s = (.bytes bs, t) ∧ bs.length = RX_PAYLOAD_LEN ∧ k = CMD_ACK ∧
      payloadStep s = .next ({ t with pay := bs }.finishWith .acknowledgment)) ∨
    (∃ bs t, srcRead RX_PAYLOAD_LEN s = (.bytes bs, t) ∧ bs.length < RX_PAYLOAD_LEN ∧
      payloadStep s = incompletePayload k { t with pay := bs }) ∨
    (∃ c t, srcRead RX_PAYLOAD_LEN s = (.err c, t) ∧ payloadStep s = .next (t.raiseTransportFault c)) := by
  have hk' : ¬ (k ≠ CMD_MEAS ∧ k ≠ CMD_ACK) := fun h => hk.elim h.1 h.2
  rcases srcRead_cases RX_PAYLOAD_LEN s with ⟨bs, t, h, hl, ht⟩ | ⟨c, t, h, -⟩
  · have hpt : t.phase = .payload := by rw [ht]; exact hp
    have hct : t.cmd = some k := by rw [ht]; exact hc
    by_cases hlen : bs.length = RX_PAYLOAD_LEN
    · rcases hk with rfl | rfl
      · exact .inl ⟨bs, t, h, hlen, rfl, by
          simp only [payloadStep, hc, hk', if_false, h, hlen, if_true, runUnit, decodeUnit_meas bs hlen]
          exact exec_rxfMeas bs t hlen hpt hct⟩
      · exact .inr (.inl ⟨bs, t, h, hlen, rfl, by
          simp only [payloadStep, hc, hk', if_false, h, hlen, if_true, runUnit, decodeUnit_ack bs hlen]
          exact exec_rxfAck bs t hlen hpt hct⟩)
    · exact .inr (.inr (.inl ⟨bs, t, h, by omega, by simp only [payloadStep, hc, hk', if_false, h, hlen]⟩))
  · exact .inr (.inr (.inr ⟨c, t, h, by simp only [payloadStep, hc, hk', if_false, h]⟩))

/-- PAYLOAD goes on only with a command byte latched. -/
theorem payloadStep_next_cmd (s t : State) (h : payloadStep s = .next t) :
    ∃ k, s.cmd = some k ∧ (k = CMD_MEAS ∨ k = CMD_ACK) := by
  unfold payloadStep at h
  cases hc : s.cmd with
  | none => simp [hc] at h
  | some k =>
    refine ⟨k, rfl, ?_⟩
    by_contra hk
    have hk' : k ≠ CMD_MEAS ∧ k ≠ CMD_ACK := ⟨fun e => hk (.inl e), fun e => hk (.inr e)⟩
    simp [hc, hk'] at h

/-! ## Operations -/

/-- In IDLE an operation runs. -/
@[simp] theorem startOperation_idle (s : State) (run : Result) (h : s.phase = .idle) : startOperation s run = run := by
  simp [startOperation, h]

/-- During a call it is refused. -/
@[simp] theorem startOperation_busy (s : State) (run : Result) (h : s.phase ≠ .idle) :
    startOperation s run = .refused .callInProgress := by
  simp [startOperation, h]

@[simp] theorem returnResult_idle (r : OpResult) (s : State) (h : s.phase = .idle) :
    returnResult r s = .next (s.deliver r) := startOperation_idle s _ h

/-- An operation that goes on was started in IDLE. -/
theorem startOperation_next (s t : State) (run : Result) (h : startOperation s run = .next t) :
    s.phase = .idle ∧ run = .next t := by
  by_cases hp : s.phase = .idle
  · exact ⟨hp, by rwa [startOperation_idle s run hp] at h⟩
  · rw [startOperation_busy s run hp] at h; cases h

/-- Any well-formed operation during a call is refused. -/
theorem exec_busy (i : Instr) (s : State) (hu : i.isUnit = false) (hw : i.wf = true) (hp : s.phase ≠ .idle) :
    exec i s = .refused .callInProgress := by
  cases i <;> simp_all [Instr.isUnit, Instr.wf, exec, execEnc, execEncKind, execEncDuty, execEncSleep, execEncWake, execSend,
    execCsum, execCsumTx, execCsumRx, execScan, execReadMeas, beginCall, returnResult]

/-- An ENC-family operation in IDLE returns its frame and does nothing else. -/
theorem exec_frame (i : Instr) (f : List Byte) (s : State) (h : i.frame? = some f) (hp : s.phase = .idle) :
    exec i s = .next (s.deliver (.tx f)) := by
  cases i <;> simp only [Instr.frame?, Option.some.injEq, reduceCtorEq] at h <;> subst h <;> exact returnResult_idle _ s hp

/-- What an operation can do to a state in IDLE: return a result and leave the rest, write the sink, or start a call. -/
theorem exec_idle_cases (i : Instr) (s t : State) (hp : s.phase = .idle) (h : exec i s = .next t) :
    (∃ r, t = s.deliver r ∧ (∀ tx, i ≠ .send tx)) ∨
    (∃ tx, i = .send tx ∧ tx.length = TX_LEN ∧
      t = (sinkWrite tx s).2.deliver (.sent (sendResult (sinkWrite tx s).1))) ∨
    (∃ b, b.wf = true ∧ t = s.startCall b ∧ (∀ tx, i ≠ .send tx)) := by
  cases i with
  | enc op m p => cases (returnResult_idle _ s hp).symm.trans h; exact .inl ⟨_, rfl, by simp⟩
  | encKind k m p => cases (returnResult_idle _ s hp).symm.trans h; exact .inl ⟨_, rfl, by simp⟩
  | encDuty m => cases (returnResult_idle _ s hp).symm.trans h; exact .inl ⟨_, rfl, by simp⟩
  | encSleep => cases (returnResult_idle _ s hp).symm.trans h; exact .inl ⟨_, rfl, by simp⟩
  | encWake => cases (returnResult_idle _ s hp).symm.trans h; exact .inl ⟨_, rfl, by simp⟩
  | send tx =>
    simp only [exec, execSend] at h
    split at h
    · cases h
    · cases (startOperation_next _ _ _ h).2; exact .inr (.inl ⟨tx, rfl, by simp_all, rfl⟩)
  | csum bs => cases (returnResult_idle _ s hp).symm.trans h; exact .inl ⟨_, rfl, by simp⟩
  | csumTx op m p => cases (returnResult_idle _ s hp).symm.trans h; exact .inl ⟨_, rfl, by simp⟩
  | csumRx pay =>
    simp only [exec, execCsumRx] at h
    split at h
    · cases h
    · cases (startOperation_next _ _ _ h).2; exact .inl ⟨_, rfl, by simp⟩
  | scan b =>
    simp only [exec, execScan, beginCall] at h
    split at h
    · cases h
    · cases (startOperation_next _ _ _ h).2; exact .inr (.inr ⟨b, by simp_all, rfl, by simp⟩)
  | readMeas b =>
    simp only [exec, execReadMeas, beginCall] at h
    split at h
    · cases h
    · cases (startOperation_next _ _ _ h).2; exact .inr (.inr ⟨b, by simp_all, rfl, by simp⟩)
  | rxfMeas pay =>
    simp only [exec, execRxfMeas, inPayload, hp] at h
    split at h <;> simp at h
  | rxfAck pay =>
    simp only [exec, execRxfAck, inPayload, hp] at h
    split at h <;> simp at h
  | rxfFalsePos k =>
    simp only [exec, execRxfFalsePos, hp] at h
    split at h <;> simp at h
  | rxNoise b =>
    simp only [exec, execRxNoise, hp] at h
    split at h <;> simp at h

/-- No operation faults in IDLE. -/
theorem exec_idle_no_fault (i : Instr) (s : State) (hp : s.phase = .idle) (f : Fault) : exec i s ≠ .fault f := by
  cases i <;>
    simp only [exec, execEnc, execEncKind, execEncDuty, execEncSleep, execEncWake, execSend, execCsum, execCsumTx,
      execCsumRx, execScan, execReadMeas, beginCall, returnResult, startOperation, execRxfMeas, execRxfAck, execRxfFalsePos,
      execRxNoise, inPayload, hp] <;>
    (repeat' split) <;> simp_all

/-- Keeping a name changes only the names. -/
theorem State.bindName_eq (s : State) (r : Request) : ∃ ns, s.bindName r = { s with names := ns } := by
  unfold State.bindName
  split
  · exact ⟨_, rfl⟩
  · exact ⟨s.names, rfl⟩

/-- The IDLE step: it waits, or it runs the caller's next operation and drops it from the list. -/
theorem idleStep_cases (s t : State) (h : idleStep s = .next t) :
    (s.requests = [] ∧ t = s) ∨
    (∃ bs rest r u, s.requests = bs :: rest ∧ decodeRequest s.names bs = .ok r ∧
      exec r.op { s with requests := rest } = .next u ∧ t = u.bindName r) := by
  unfold idleStep at h
  split at h
  · cases h; exact .inl ⟨‹_›, rfl⟩
  · rename_i bs rest hr
    split at h
    · cases h
    · rename_i r hd
      cases hx : exec r.op { s with requests := rest } with
      | next u => rw [hx] at h; cases h; exact .inr ⟨bs, rest, r, u, hr, hd, hx, rfl⟩
      | fault f => rw [hx] at h; cases h
      | refused e => rw [hx] at h; cases h

end Sys2Proof.Machine
end

