-- ==== Sys2Proof/Laws/PerInstr.lean ====
section
/-! SUPPORT. One family of statements made per instruction: how the first bytes of an instruction's encoding tell an
operation's line from a frame, and give an inbound unit's length (spec/30_encoding.md R50, R69; log 8). -/

namespace Sys2Proof.Laws.EncodeHead

/-- A well-formed inbound unit's length is what its first two bytes give; an operation's line never begins with the
header, so it is never read as a frame. -/
def Statement (i : Instr) : Prop :=
  i.wf = true →
    (i.isUnit = true → unitLength (encode i) = (encode i).length) ∧
    (i.isUnit = false → (encode i).head? ≠ some HDR)

/-- The shape shared by the operations. -/
theorem of_operation (i : Instr) (hu : i.isUnit = false) (h : (encode i).head? ≠ some HDR) : Statement i :=
  fun _ => ⟨fun e => absurd (hu.symm.trans e) (by decide), fun _ => h⟩

/-- The shape shared by the units. -/
theorem of_unit (i : Instr) (hu : i.isUnit = true) (h : i.wf = true → unitLength (encode i) = (encode i).length) :
    Statement i :=
  fun hw => ⟨fun _ => h hw, fun e => absurd (hu.symm.trans e) (by decide)⟩

theorem enc (op : Byte) (mode : Mode) (param : Byte) : Statement (.enc op mode param) :=
  of_operation _ rfl (by simp [encode, kwEnc, ascii, HDR])

theorem encKind (kind : CommandKind) (mode : Mode) (param : Byte) : Statement (.encKind kind mode param) :=
  of_operation _ rfl (by simp [encode, kwEncKind, ascii, HDR])

theorem encDuty (minutes : Byte) : Statement (.encDuty minutes) :=
  of_operation _ rfl (by simp [encode, kwEncDuty, ascii, HDR])

theorem encSleep : Statement .encSleep :=
  of_operation _ rfl (by decide)

theorem encWake : Statement .encWake :=
  of_operation _ rfl (by decide)

theorem send (tx : List Byte) : Statement (.send tx) :=
  of_operation _ rfl (by simp [encode, kwSend, ascii, HDR])

theorem csum (s : List Byte) : Statement (.csum s) :=
  of_operation _ rfl (by simp [encode, kwCsum, ascii, HDR])

theorem csumTx (op : Byte) (mode : Mode) (param : Byte) : Statement (.csumTx op mode param) :=
  of_operation _ rfl (by simp [encode, kwCsumTx, ascii, HDR])

theorem csumRx (pay : List Byte) : Statement (.csumRx pay) :=
  of_operation _ rfl (by simp [encode, kwCsumRx, ascii, HDR])

theorem scan (budget : Budget) : Statement (.scan budget) :=
  of_operation _ rfl (by simp [encode, kwScan, ascii, HDR])

theorem readMeas (budget : Budget) : Statement (.readMeas budget) :=
  of_operation _ rfl (by simp [encode, kwReadMeas, ascii, HDR])

theorem rxfMeas (pay : List Byte) : Statement (.rxfMeas pay) :=
  of_unit _ rfl fun h => by
    have hl : pay.length = RX_PAYLOAD_LEN := by simpa [Instr.wf] using h
    simp [encode, unitLength, hl]

theorem rxfAck (pay : List Byte) : Statement (.rxfAck pay) :=
  of_unit _ rfl fun h => by
    have hl : pay.length = RX_PAYLOAD_LEN := by simpa [Instr.wf] using h
    simp [encode, unitLength, hl]

theorem rxfFalsePos (k : Option Byte) : Statement (.rxfFalsePos k) :=
  of_unit _ rfl fun h => by
    cases k with
    | none => rfl
    | some k =>
      have hk : k ≠ CMD_MEAS ∧ k ≠ CMD_ACK := by simpa [Instr.wf] using h
      simp [encode, unitLength, hk.1, hk.2]

theorem rxNoise (b : Byte) : Statement (.rxNoise b) :=
  of_unit _ rfl fun _ => rfl

end Sys2Proof.Laws.EncodeHead
end

