-- ==== Sys2Proof/Laws/Step.lean ====
section
/-! SUPPORT. What one step can do, said once: `StepTo s t` lists the ways from `s` to `t`, and `step_to` says that a step
that goes on goes one of them. Invariants and frames are case splits over it. -/

namespace Sys2Proof.Machine

/-- The state after a read: `u` is `s` with `bs` taken from the source. -/
def AfterRead (s u : State) (bs : List Byte) : Prop :=
  u = { s with source := u.source, taken := s.taken ++ bs, srcReads := s.srcReads + 1 }

/-- The state after an attempt without a frame: the next attempt, or the end of the call. -/
def AfterAttempt (u t : State) : Prop :=
  ∃ cl n,
    (t = { u with att := u.att + 1, phase := .hunt, clock := cl, clockDraws := n } ∧ u.bud ≠ some .zero) ∨
    (t = { u with att := u.att + 1, phase := .done, res := some .noFrame, clock := cl, clockDraws := n } ∧
      u.bud ≠ some .unlimited)

/-- The ways a step can go on. -/
inductive StepTo (s : State) : State → Prop where
  | reset (h : s.resetPending = true) : StepTo s s.blockReset
  | wait (h : s.resetPending = false) (hp : s.phase = .idle) (hr : s.requests = []) : StepTo s s
  | operation (h : s.resetPending = false) (hp : s.phase = .idle) (bs : List Byte) (rest : List (List Byte))
      (r : Request) (u : State) (ns : List (List Byte × List Byte)) (hr : s.requests = bs :: rest)
      (hd : decodeRequest s.names bs = .ok r) (hx : exec r.op { s with requests := rest } = .next u) :
      StepTo s { u with names := ns }
  | header (h : s.resetPending = false) (hp : s.phase = .hunt) (u : State) (hr : srcRead 1 s = (.bytes [HDR], u))
      (hu : AfterRead s u [HDR]) : StepTo s u.headerMatched
  | command (h : s.resetPending = false) (hp : s.phase = .cmdWait) (k : Byte) (hk : k = CMD_MEAS ∨ k = CMD_ACK)
      (u : State) (hr : srcRead 1 s = (.bytes [k], u)) (hu : AfterRead s u [k]) : StepTo s (u.latchCommand k)
  | stray (h : s.resetPending = false) (hp : s.phase = .hunt) (bs : List Byte) (hb : bs ≠ [HDR]) (hl : bs.length ≤ 1)
      (u t : State) (hr : srcRead 1 s = (.bytes bs, u)) (hu : AfterRead s u bs) (ht : AfterAttempt u t) : StepTo s t
  | falsePositive (h : s.resetPending = false) (hp : s.phase = .cmdWait) (bs : List Byte)
      (hb : bs ≠ [CMD_MEAS] ∧ bs ≠ [CMD_ACK]) (hl : bs.length ≤ 1)
      (u t : State) (hr : srcRead 1 s = (.bytes bs, u)) (hu : AfterRead s u bs) (ht : AfterAttempt u t) : StepTo s t
  | incomplete (h : s.resetPending = false) (hp : s.phase = .payload) (k : Byte) (hc : s.cmd = some k)
      (hk : k = CMD_MEAS ∨ k = CMD_ACK) (bs : List Byte) (hl : bs.length < RX_PAYLOAD_LEN) (u t : State)
      (hr : srcRead RX_PAYLOAD_LEN s = (.bytes bs, u)) (hu : AfterRead s u bs)
      (ht : AfterAttempt ({ u with pay := bs }.emit (.incompleteRead k ([HDR, k] ++ bs))) t) : StepTo s t
  | measured (h : s.resetPending = false) (hp : s.phase = .payload) (hc : s.cmd = some CMD_MEAS) (bs : List Byte)
      (hl : bs.length = RX_PAYLOAD_LEN) (u : State) (hr : srcRead RX_PAYLOAD_LEN s = (.bytes bs, u))
      (hu : AfterRead s u bs) : StepTo s (evalMeas { u with pay := bs })
  | acknowledged (h : s.resetPending = false) (hp : s.phase = .payload) (hc : s.cmd = some CMD_ACK) (bs : List Byte)
      (hl : bs.length = RX_PAYLOAD_LEN) (u : State) (hr : srcRead RX_PAYLOAD_LEN s = (.bytes bs, u))
      (hu : AfterRead s u bs) : StepTo s ({ u with pay := bs }.finishWith .acknowledgment)
  | faulted (h : s.resetPending = false) (hs : s.scanning = true) (c : Cause) (u : State)
      (hr : srcRead s.phase.readSize s = (.err c, u)) (hu : AfterRead s u []) : StepTo s (u.raiseTransportFault c)
  | returned (h : s.resetPending = false) (hp : s.phase = .done) (r : FrameResult) (hr : s.res = some r) :
      StepTo s ({ s with phase := .idle }.deliver (.scanned r s.diag))

theorem srcRead_after (n : Nat) (s u : State) (a : SrcAnswer) (h : srcRead n s = (a, u)) :
    AfterRead s u (answerBytes a) := by
  simp only [srcRead] at h
  cases h
  rfl

theorem endAttempt_after (u t : State) (h : endAttempt u = .next t) : AfterAttempt u t := by
  obtain ⟨cl, n, ⟨he, hz⟩ | ⟨he, hz⟩⟩ := endAttempt_cases u
  · rw [he] at h; cases h; exact ⟨cl, n, .inl ⟨rfl, hz⟩⟩
  · rw [he] at h; cases h; exact ⟨cl, n, .inr ⟨rfl, hz⟩⟩

/-- A step that goes on goes one of the ways of `StepTo`. -/
theorem step_to (s t : State) (h : step s = .next t) : StepTo s t := by
  cases h0 : s.resetPending with
  | true => rw [step_reset s h0] at h; cases h; exact .reset h0
  | false =>
    rw [step_phase s h0] at h
    simp only [phaseStep] at h
    cases hp : s.phase with
    | idle =>
      simp only [hp] at h
      rcases idleStep_cases s t h with ⟨hr, rfl⟩ | ⟨bs, rest, r, u, hr, hd, hx, rfl⟩
      · exact .wait h0 hp hr
      · obtain ⟨ns, he⟩ := u.bindName_eq r
        rw [he]
        exact .operation h0 hp bs rest r u ns hr hd hx
    | hunt =>
      simp only [hp] at h
      have hs : s.scanning = true := by simp [State.scanning, hp]
      rcases huntStep_cases s hp with ⟨u, hr, e⟩ | ⟨b, u, hb, hr, e⟩ | ⟨u, hr, e⟩ | ⟨c, u, hr, e⟩ <;> rw [e] at h
      · cases h; exact .header h0 hp u hr (srcRead_after _ _ _ _ hr)
      · exact .stray h0 hp [b] (by simpa using hb) (by simp) u t hr (srcRead_after _ _ _ _ hr) (endAttempt_after u t h)
      · exact .stray h0 hp [] (by simp) (by simp) u t hr (srcRead_after _ _ _ _ hr) (endAttempt_after u t h)
      · cases h; exact .faulted h0 hs c u (by simpa [hp, Phase.readSize] using hr) (srcRead_after _ _ _ _ hr)
    | cmdWait =>
      simp only [hp] at h
      have hs : s.scanning = true := by simp [State.scanning, hp]
      rcases cmdWaitStep_cases s hp with ⟨k, u, hk, hr, e⟩ | ⟨k, u, hm, ha, hr, e⟩ | ⟨u, hr, e⟩ | ⟨c, u, hr, e⟩ <;>
        rw [e] at h
      · cases h; exact .command h0 hp k hk u hr (srcRead_after _ _ _ _ hr)
      · exact .falsePositive h0 hp [k] ⟨by simpa using hm, by simpa using ha⟩ (by simp) u t hr (srcRead_after _ _ _ _ hr)
          (endAttempt_after u t h)
      · exact .falsePositive h0 hp [] (by simp) (by simp) u t hr (srcRead_after _ _ _ _ hr) (endAttempt_after u t h)
      · cases h; exact .faulted h0 hs c u (by simpa [hp, Phase.readSize] using hr) (srcRead_after _ _ _ _ hr)
    | payload =>
      simp only [hp] at h
      have hs : s.scanning = true := by simp [State.scanning, hp]
      obtain ⟨k, hc, hk⟩ := payloadStep_next_cmd s t h
      rcases payloadStep_cases s k hp hc hk with
        ⟨bs, u, hr, hl, hk', e⟩ | ⟨bs, u, hr, hl, hk', e⟩ | ⟨bs, u, hr, hl, e⟩ | ⟨c, u, hr, e⟩ <;> rw [e] at h
      · cases h; exact .measured h0 hp (hk' ▸ hc) bs hl u hr (srcRead_after _ _ _ _ hr)
      · cases h; exact .acknowledged h0 hp (hk' ▸ hc) bs hl u hr (srcRead_after _ _ _ _ hr)
      · exact .incomplete h0 hp k hc hk bs hl u t hr (srcRead_after _ _ _ _ hr) (endAttempt_after _ t h)
      · cases h; exact .faulted h0 hs c u (by simpa [hp, Phase.readSize] using hr) (srcRead_after _ _ _ _ hr)
    | done =>
      simp only [hp] at h
      obtain ⟨r, hr, rfl⟩ := endCall_next s t h
      exact .returned h0 hp r hr

/-- Runs compose. -/
theorem steps_add (m n : Nat) (s t : State) (h : steps m s = .next t) : steps (m + n) s = steps n t := by
  induction m generalizing s with
  | zero => cases h; simp
  | succ m ih =>
    rw [Nat.succ_add]
    simp only [steps] at h ⊢
    cases hs : step s with
    | next u => rw [hs] at h; exact ih u h
    | fault f => rw [hs] at h; cases h
    | refused r => rw [hs] at h; cases h

/-- A run that begins with a step that goes on. -/
theorem steps_succ (n : Nat) (s t : State) (h : step s = .next t) : steps (n + 1) s = steps n t := by
  simp only [steps, h]

theorem steps_one (s : State) : steps 1 s = step s := by
  simp only [steps]
  cases step s <;> rfl

end Sys2Proof.Machine
end

