-- ==== Sys2Proof/Laws/Prompt.lean ====
section
/-! SUPPORT. The steps of a call under the premise `Prompt(q)` (spec/20_memory.md R44), by the next bytes of `q`. -/

namespace Sys2Proof.Machine

/-- HUNT reads the header. -/
theorem step_hunt_header (q : List Byte) (s : State) (h0 : s.resetPending = false) (hp : s.phase = .hunt)
    (hq : s.source = .prompt (HDR :: q)) :
    step s = .next { s with source := .prompt q, taken := s.taken ++ [HDR], srcReads := s.srcReads + 1,
                            phase := .cmdWait } := by
  have hr := srcRead_prompt 1 s _ hq
  simp only [List.take_succ_cons, List.take_zero, List.drop_succ_cons, List.drop_zero] at hr
  rw [step_hunt s h0 hp]
  simp only [huntStep, hr, if_true, State.headerMatched]

/-- HUNT reads a byte of noise. -/
theorem step_hunt_noise (b : Byte) (q : List Byte) (s : State) (h0 : s.resetPending = false) (hp : s.phase = .hunt)
    (hq : s.source = .prompt (b :: q)) (hb : b ≠ HDR) :
    step s = endAttempt { s with source := .prompt q, taken := s.taken ++ [b], srcReads := s.srcReads + 1 } := by
  have hr := srcRead_prompt 1 s _ hq
  simp only [List.take_succ_cons, List.take_zero, List.drop_succ_cons, List.drop_zero] at hr
  rw [step_hunt s h0 hp]
  simp only [huntStep, hr, hb, if_false, runUnit, decodeUnit_noise b hb]
  exact exec_rxNoise b _ hb hp

/-- HUNT finds the stream empty. -/
theorem step_hunt_empty (s : State) (h0 : s.resetPending = false) (hp : s.phase = .hunt) (hq : s.source = .prompt []) :
    step s = endAttempt { s with srcReads := s.srcReads + 1 } := by
  have hr := srcRead_prompt 1 s _ hq
  rw [step_hunt s h0 hp]
  simp only [huntStep, hr, List.take_nil, List.drop_nil, List.append_nil, ← hq]

/-- CMDWAIT reads a command byte. -/
theorem step_cmdWait_command (k : Byte) (hk : k = CMD_MEAS ∨ k = CMD_ACK) (q : List Byte) (s : State)
    (h0 : s.resetPending = false) (hp : s.phase = .cmdWait) (hq : s.source = .prompt (k :: q)) :
    step s = .next { s with source := .prompt q, taken := s.taken ++ [k], srcReads := s.srcReads + 1,
                            phase := .payload, cmd := some k } := by
  have hr := srcRead_prompt 1 s _ hq
  simp only [List.take_succ_cons, List.take_zero, List.drop_succ_cons, List.drop_zero] at hr
  have hk' : [k] = [CMD_MEAS] ∨ [k] = [CMD_ACK] := by simpa using hk
  rw [step_cmdWait s h0 hp]
  simp only [cmdWaitStep, hr, hk', if_true]
  rfl

/-- CMDWAIT reads another byte. -/
theorem step_cmdWait_falsePos (k : Byte) (hm : k ≠ CMD_MEAS) (ha : k ≠ CMD_ACK) (q : List Byte) (s : State)
    (h0 : s.resetPending = false) (hp : s.phase = .cmdWait) (hq : s.source = .prompt (k :: q)) :
    step s = endAttempt { s with source := .prompt q, taken := s.taken ++ [k], srcReads := s.srcReads + 1 } := by
  have hr := srcRead_prompt 1 s _ hq
  simp only [List.take_succ_cons, List.take_zero, List.drop_succ_cons, List.drop_zero] at hr
  have hk' : ¬ ([k] = [CMD_MEAS] ∨ [k] = [CMD_ACK]) := by simp [hm, ha]
  rw [step_cmdWait s h0 hp]
  simp only [cmdWaitStep, hr, hk', if_false, runUnit, decodeUnit_falsePos k hm ha]
  exact exec_rxfFalsePos (some k) _ (by simpa using hm) (by simpa using ha) hp

/-- PAYLOAD reads a whole payload. -/
theorem srcRead_payload (pay rest : List Byte) (hl : pay.length = RX_PAYLOAD_LEN) (s : State)
    (hq : s.source = .prompt (pay ++ rest)) :
    srcRead RX_PAYLOAD_LEN s =
      (.bytes pay, { s with source := .prompt rest, taken := s.taken ++ pay, srcReads := s.srcReads + 1 }) := by
  rw [srcRead_prompt _ s _ hq, ← hl, List.take_left, List.drop_left]

theorem step_payload_meas (pay rest : List Byte) (hl : pay.length = RX_PAYLOAD_LEN) (s : State)
    (h0 : s.resetPending = false) (hp : s.phase = .payload) (hc : s.cmd = some CMD_MEAS)
    (hq : s.source = .prompt (pay ++ rest)) :
    step s = .next (evalMeas { s with source := .prompt rest, taken := s.taken ++ pay, srcReads := s.srcReads + 1,
                                      pay := pay }) := by
  rw [step_payload s h0 hp]
  rcases payloadStep_cases s _ hp hc (.inl rfl) with
    ⟨bs, t, hr, hl', -, e⟩ | ⟨bs, t, hr, hl', hk, e⟩ | ⟨bs, t, hr, hl', e⟩ | ⟨c, t, hr, e⟩ <;>
    rw [srcRead_payload pay rest hl s hq] at hr <;> cases hr
  · exact e
  · exact absurd hk (by decide)
  · omega

theorem step_payload_ack (pay rest : List Byte) (hl : pay.length = RX_PAYLOAD_LEN) (s : State)
    (h0 : s.resetPending = false) (hp : s.phase = .payload) (hc : s.cmd = some CMD_ACK)
    (hq : s.source = .prompt (pay ++ rest)) :
    step s = .next ({ s with source := .prompt rest, taken := s.taken ++ pay, srcReads := s.srcReads + 1,
                             pay := pay }.finishWith .acknowledgment) := by
  rw [step_payload s h0 hp]
  rcases payloadStep_cases s _ hp hc (.inr rfl) with
    ⟨bs, t, hr, hl', hk, e⟩ | ⟨bs, t, hr, hl', -, e⟩ | ⟨bs, t, hr, hl', e⟩ | ⟨c, t, hr, e⟩ <;>
    rw [srcRead_payload pay rest hl s hq] at hr <;> cases hr
  · exact absurd hk (by decide)
  · exact e
  · omega

end Sys2Proof.Machine
end

