-- ==== Sys2Proof/Tests/Slice0.lean ====
section
/-! SUPPORT. Tests and witnesses. A test's expected result comes from spec/95_test_vectors.md or from the tables of
spec/30_encoding.md, whose vector or rule stands in its comment; a witness shows that the hypotheses of a statement can be
met together. -/

namespace Sys2Proof.Tests

open Sys2Proof Sys2Proof.Machine

/-! ## Helpers -/

/-- The source's measurement payload (spec/95_test_vectors.md). -/
def payP : List Byte := [0x7B, 0x00, 0x2D, 0x00, 0x01, 0x02, 0xAB, 0xAB]

/-- A call just started on a stream. -/
def hunting (src : Source) (b : Budget) : State := { State.reset with source := src }.startCall b

/-- A call whose header has matched. -/
def waiting (src : Source) (b : Budget) : State := { hunting src b with phase := .cmdWait }

/-- A call with a command byte latched. -/
def paying (k : Byte) (src : Source) (b : Budget) : State := { hunting src b with phase := .payload, cmd := some k }

/-- A caller with one request and a sink that accepts. -/
def asking (bs : List Byte) : State := { State.reset with sink := .accepts, requests := [bs] }

/-- A check of the next state; false where there is none. -/
def check (r : Result) (p : State → Bool) : Bool :=
  match r with
  | .next t => p t
  | .fault _ => false
  | .refused _ => false

/-- The decoded operation of a line. -/
def lineIs (line : List Byte) (i : Instr) : Bool :=
  match decodeRequest [] line with
  | .ok r => decide (r = ⟨none, i⟩)
  | .error _ => false

/-- The refusal of a line. -/
def lineFails (line : List Byte) (e : DecodeError) : Bool :=
  match decodeRequest [] line with
  | .ok _ => false
  | .error f => decide (f = e)

theorem hunting_inv (src : Source) (b : Budget) (h : b.wf = true) : (hunting src b).Inv := by
  constructor <;> simp [hunting, State.startCall, State.scanning, h]

theorem waiting_inv (src : Source) (b : Budget) (h : b.wf = true) : (waiting src b).Inv := by
  constructor <;> simp [waiting, hunting, State.startCall, State.scanning, h]

theorem paying_inv (k : Byte) (hk : k = CMD_MEAS ∨ k = CMD_ACK) (src : Source) (b : Budget) (h : b.wf = true) :
    (paying k src b).Inv := by
  constructor <;> simp [paying, hunting, State.startCall, State.scanning, h, hk]

/-! ## Well-formedness: one ill-formed term for each check (R21, R58, R67) -/

theorem test_wf_send_18 : Instr.wf (.send (List.replicate 18 0)) = false := by decide
theorem test_wf_csumRx_7 : Instr.wf (.csumRx (List.replicate 7 0)) = false := by decide
theorem test_wf_scan_zero_duration : Instr.wf (.scan (.finite 0)) = false := by decide
theorem test_wf_readMeas_zero_duration : Instr.wf (.readMeas (.finite 0)) = false := by decide
theorem test_wf_rxfMeas_9 : Instr.wf (.rxfMeas (List.replicate 9 0)) = false := by decide
theorem test_wf_rxfAck_7 : Instr.wf (.rxfAck (List.replicate 7 0)) = false := by decide
theorem test_wf_falsePos_C0 : Instr.wf (.rxfFalsePos (some 0xC0)) = false := by decide
theorem test_wf_falsePos_C5 : Instr.wf (.rxfFalsePos (some 0xC5)) = false := by decide
theorem test_wf_noise_AA : Instr.wf (.rxNoise 0xAA) = false := by decide

/-! ## Decoding: lines of R69 written out -/

/-- R69 example -/
theorem test_line_enc :
    lineIs (ascii ['E', 'N', 'C', ' ', '0', 'x', '0', '8', ',', ' ', 'S', 'E', 'T', ',', ' ', '5'])
      (.enc 0x08 .set 5) = true := by decide

/-- R53, R69 -/
theorem test_line_encKind :
    lineIs (ascii ['E', 'N', 'C', '.', 'K', 'I', 'N', 'D', ' ', 'S', 'l', 'e', 'e', 'p', 'W', 'a', 'k', 'e', ',', ' ', 'G', 'E', 'T', ',', ' ', '0', 'x', 'f', 'f'])
      (.encKind .sleepWake .get 0xFF) = true := by decide

/-- R69, V-ENC-3 -/
theorem test_line_encDuty :
    lineIs (ascii ['E', 'N', 'C', '.', 'D', 'U', 'T', 'Y', ' ', '3', '0', ' ', ';', ' ', 'n', 'o', 't', 'e'])
      (.encDuty 30) = true := by decide

/-- R69 -/
theorem test_line_encSleep :
    lineIs (ascii ['E', 'N', 'C', '.', 'S', 'L', 'E', 'E', 'P'])
      (.encSleep) = true := by decide

/-- R69 -/
theorem test_line_encWake :
    lineIs (ascii ['E', 'N', 'C', '.', 'W', 'A', 'K', 'E'])
      (.encWake) = true := by decide

/-- R69, V-CS-6 -/
theorem test_line_csum :
    lineIs (ascii ['C', 'S', 'U', 'M', ' ', '[', '0', 'x', '8', '0', ',', ' ', '1', '2', '8', ']'])
      (.csum [0x80, 0x80]) = true := by decide

/-- V-CS-8 -/
theorem test_line_csumTx :
    lineIs (ascii ['C', 'S', 'U', 'M', '.', 'T', 'X', ' ', '0', ',', ' ', 'G', 'E', 'T', ',', ' ', '0', 'x', '0', '0'])
      (.csumTx 0 .get 0) = true := by decide

/-- V-CS-9 -/
theorem test_line_csumRx :
    lineIs (ascii ['C', 'S', 'U', 'M', '.', 'R', 'X', ' ', '[', '1', '2', '3', ',', '0', ',', '4', '5', ',', '0', ',', '1', ',', '2', ',', '1', '7', '1', ',', '1', '7', '1', ']'])
      (.csumRx payP) = true := by decide

/-- R69 -/
theorem test_line_scan :
    lineIs (ascii ['S', 'C', 'A', 'N', ' ', '0'])
      (.scan .zero) = true := by decide

/-- R69 -/
theorem test_line_scan_duration :
    lineIs (ascii ['S', 'C', 'A', 'N', ' ', '5', '0'])
      (.scan (.finite 50)) = true := by decide

/-- R69 -/
theorem test_line_readMeas :
    lineIs (ascii ['R', 'E', 'A', 'D', '.', 'M', 'E', 'A', 'S', ' ', 'U', 'N', 'L', 'I', 'M', 'I', 'T', 'E', 'D'])
      (.readMeas .unlimited) = true := by decide

/-- V-SEND-1 -/
theorem test_line_send :
    lineIs (ascii ['S', 'E', 'N', 'D', ' ', '(', 'E', 'N', 'C', '.', 'D', 'U', 'T', 'Y', ' ', '5', ')'])
      (.send (frame 0x08 MODE_SET 5)) = true := by decide

/-- V-ENC-14 -/
theorem test_line_mode_2 :
    lineFails (ascii ['E', 'N', 'C', ' ', '0', 'x', '0', '8', ',', ' ', '0', 'x', '0', '2', ',', ' ', '5']) .notAMode = true := by decide

/-- R54, R67 -/
theorem test_line_wide_byte :
    lineFails (ascii ['E', 'N', 'C', '.', 'D', 'U', 'T', 'Y', ' ', '2', '5', '6']) .widerThanByte = true := by decide

/-- V-SC-26 -/
theorem test_line_negative_budget :
    lineFails (ascii ['S', 'C', 'A', 'N', ' ', '-', '1']) .notABudget = true := by decide

/-- V-SEND-3, with two bytes -/
theorem test_line_short_send :
    lineFails (ascii ['S', 'E', 'N', 'D', ' ', '[', '1', ',', ' ', '2', ']']) .illFormed = true := by decide

/-- log 7: of two frames given one name the newer stands, and a name given to a scan is not kept -/
theorem test_names_newest :
    lookupName [([0x74], frame 8 1 6), ([0x74], frame 8 1 5)] [0x74] = some (frame 8 1 6) ∧
    (State.reset.bindName ⟨some [0x74], .scan .zero⟩).names = [] := ⟨rfl, rfl⟩

/-! ## Decoding: inbound units and table words (R50, R56) -/

/-- L1-3 -/
theorem test_unit_meas :
    (decodeUnit [0xAA, 0xC0, 0x7B, 0x00, 0x2D, 0x00, 0x01, 0x02, 0xAB, 0xAB]).toOption = some (.rxfMeas payP) := by decide

/-- V-SC-8 -/
theorem test_unit_ack :
    (decodeUnit [0xAA, 0xC5, 0x08, 0x01, 0x05, 0x00, 0x00, 0x00, 0x00, 0x00]).toOption =
      some (.rxfAck [0x08, 0x01, 0x05, 0, 0, 0, 0, 0]) := by decide

/-- V-SC-4 -/
theorem test_unit_falsePos :
    (decodeUnit [0xAA, 0xAA]).toOption = some (.rxfFalsePos (some 0xAA)) := by decide

/-- R50 -/
theorem test_unit_noise :
    (decodeUnit [0xAB]).toOption = some (.rxNoise 0xAB) := by decide

/-- V-ENC-1, first byte in bits 7..0 -/
theorem test_table_txf :
    decodeTableWord 152 0xab0cffff00000000000000000000050108b4aa = some (.enc 0x08 .set 5) := by decide

/-- The table's match word is no well-formed TXF (V-ENC-6 has FE at offset 17): 19 literal bytes (log 8) -/
theorem test_table_send :
    decodeTableWord 152 0xab00ffff00000000000000000000000000b4aa = some (.send (wordBytes 19 0xab00ffff00000000000000000000000000b4aa)) := by decide

/-- R57 -/
theorem test_table_meas :
    decodeTableWord 80 0xC0AA = some (.rxfMeas (List.replicate 8 0)) := by decide

/-- R58; the row has 8 bits, the byte above them is zero -/
theorem test_table_header :
    decodeTableWord 8 0xAA = some (.rxfFalsePos (some 0x00)) := by decide

/-- The word placed runs as the next step -/
theorem test_fetch_txf :
    check (step (State.reset.withFetchWord 152 0xab0cffff00000000000000000000050108b4aa)) (fun u => decide (u.results = [.tx (frame 0x08 MODE_SET 5)])) = true := by decide

/-- V-SC-8 -/
theorem test_fetch_unit :
    check (step (State.reset.withFetchWord 80 0xC5AA)) (fun u => decide (u.res = some .acknowledgment)) = true := by decide

/-! ## One step of each instruction -/

/-- V-ENC-9 -/
theorem test_enc_wraps :
    check (exec (.enc 0x00 .set 0x01) State.reset)
      (fun t => decide (t.results = [.tx [0xAA, 0xB4, 0x00, 0x01, 0x01, 0x00, 0x00, 0x00, 0x00, 0x00, 0x00, 0x00, 0x00, 0x00, 0x00, 0xFF, 0xFF, 0x00, 0xAB]])) = true := by decide

/-- V-ENC-5 -/
theorem test_enc_get :
    check (exec (.enc 0x08 .get 0) State.reset)
      (fun t => decide (t.results = [.tx [0xAA, 0xB4, 0x08, 0x00, 0x00, 0x00, 0x00, 0x00, 0x00, 0x00, 0x00, 0x00, 0x00, 0x00, 0x00, 0xFF, 0xFF, 0x06, 0xAB]])) = true := by decide

/-- V-ENC-12 -/
theorem test_encKind_duty :
    check (exec (.encKind .dutyCycle .set 5) State.reset)
      (fun t => decide (t.results = [.tx [0xAA, 0xB4, 0x08, 0x01, 0x05, 0x00, 0x00, 0x00, 0x00, 0x00, 0x00, 0x00, 0x00, 0x00, 0x00, 0xFF, 0xFF, 0x0C, 0xAB]])) = true := by decide

/-- V-ENC-3 -/
theorem test_encDuty_30 :
    check (exec (.encDuty 30) State.reset)
      (fun t => decide (t.results = [.tx [0xAA, 0xB4, 0x08, 0x01, 0x1E, 0x00, 0x00, 0x00, 0x00, 0x00, 0x00, 0x00, 0x00, 0x00, 0x00, 0xFF, 0xFF, 0x25, 0xAB]])) = true := by decide

/-- V-ENC-4 -/
theorem test_encDuty_255 :
    check (exec (.encDuty 255) State.reset)
      (fun t => decide (t.results = [.tx [0xAA, 0xB4, 0x08, 0x01, 0xFF, 0x00, 0x00, 0x00, 0x00, 0x00, 0x00, 0x00, 0x00, 0x00, 0x00, 0xFF, 0xFF, 0x06, 0xAB]])) = true := by decide

/-- R76: the mode byte is SET whatever the open parameters are -/
theorem test_encSleep_mode : Instr.encSleep.frame?.map (fun f => (f.take 2, f.getD 3 0)) = some ([0xAA, 0xB4], 0x01) := rfl

/-- R77 -/
theorem test_encWake_mode : Instr.encWake.frame?.map (fun f => (f.take 2, f.getD 3 0)) = some ([0xAA, 0xB4], 0x01) := rfl

/-- V-SEND-1 -/
theorem test_send_ok :
    check (exec (.send (frame 0x08 MODE_SET 5)) (asking []))
      (fun t => decide (t.results = [.sent .ok] ∧ t.outbound = frame 0x08 MODE_SET 5)) = true := by decide

/-- V-SEND-2, with three bytes placed -/
theorem test_send_err :
    check (exec (.send (frame 0x08 MODE_SET 5)) { State.reset with sink := .oracle [.err ⟨7⟩ 3] })
      (fun t => decide (t.results = [.sent (.err ⟨7⟩)] ∧ t.outbound = [0xAA, 0xB4, 0x08])) = true := by decide

/-- V-CS-4 -/
theorem test_csum_wraps :
    check (exec (.csum [0xE8, 0x03, 0xD0, 0x07, 0x34, 0x12]) State.reset)
      (fun t => decide (t.results = [.sum 0x08])) = true := by decide

/-- V-CS-1 -/
theorem test_csum_empty :
    check (exec (.csum []) State.reset)
      (fun t => decide (t.results = [.sum 0x00])) = true := by decide

/-- V-CS-8 -/
theorem test_csumTx_sentinels :
    check (exec (.csumTx 0x00 .get 0x00) State.reset)
      (fun t => decide (t.results = [.sum 0xFE])) = true := by decide

/-- V-CS-10 -/
theorem test_csumRx_false :
    check (exec (.csumRx [0x7B, 0x00, 0x2D, 0x00, 0x01, 0x02, 0x00, 0xAB]) State.reset)
      (fun t => decide (t.results = [.check false])) = true := by decide

/-- V-CS-11 -/
theorem test_csumRx_tail :
    check (exec (.csumRx [0x7B, 0x00, 0x2D, 0x00, 0x01, 0x02, 0xAB, 0x00]) State.reset)
      (fun t => decide (t.results = [.check true])) = true := by decide

/-- R131, 93_implementation_defined.md: a second operation during an FSCAN call is refused -/
theorem test_second_operation :
    exec .encSleep (waiting (.prompt []) .zero) = .refused .callInProgress ∧
    exec (.csum []) { State.reset with phase := .done } = .refused .callInProgress := ⟨rfl, rfl⟩

/-- R30 -/
theorem test_scan_starts :
    check (exec (.scan .zero) { State.reset with cmd := some 0xC5, att := 4 })
      (fun t => decide (t.phase = .hunt ∧ t.cmd = none ∧ t.att = 0 ∧ t.bud = some .zero)) = true := by decide

/-- R30, R108 -/
theorem test_readMeas_starts :
    check (exec (.readMeas .unlimited) { State.reset with pay := payP })
      (fun t => decide (t.phase = .hunt ∧ t.pay = [] ∧ t.bud = some .unlimited)) = true := by decide

/-- L1-3 -/
theorem test_rxfMeas_valid :
    check (exec (.rxfMeas payP) (paying 0xC0 (.prompt []) .zero)) (fun t =>
      match t.res with
      | some (.measurement m) => decide (m.pm25Raw = 123 ∧ m.pm10Raw = 45 ∧ m.status = .valid ∧ t.diag = [])
      | _ => false) = true := by decide

/-- L1-4 -/
theorem test_rxfMeas_bad_checksum :
    check (exec (.rxfMeas [0x7B, 0x00, 0x2D, 0x00, 0x01, 0x02, 0x00, 0xAB]) (paying 0xC0 (.prompt []) .zero)) (fun t =>
      match t.res with
      | some (.measurement m) => decide (m.pm25Raw = 123 ∧ m.status = .invalid ∧
          t.diag = [.badPacket [0xAA, 0xC0, 0x7B, 0x00, 0x2D, 0x00, 0x01, 0x02, 0x00, 0xAB] false true])
      | _ => false) = true := by decide

/-- V-SC-8 -/
theorem test_rxfAck :
    check (exec (.rxfAck [0x08, 0x01, 0x05, 0x00, 0x00, 0x00, 0x00, 0x00]) (paying 0xC5 (.prompt []) .zero))
      (fun t => decide (t.res = some .acknowledgment ∧ t.phase = .done ∧ t.diag = [])) = true := by decide

/-- L1-6 -/
theorem test_falsePos_goes_on :
    check (exec (.rxfFalsePos (some 0x99)) (waiting (.prompt []) .unlimited))
      (fun t => decide (t.phase = .hunt ∧ t.att = 1 ∧ t.diag = [])) = true := by decide

/-- V-SC-11 -/
theorem test_falsePos_no_byte :
    check (exec (.rxfFalsePos none) (waiting (.prompt []) .zero))
      (fun t => decide (t.phase = .done ∧ t.res = some .noFrame ∧ t.att = 1)) = true := by decide

/-- V-SC-2 -/
theorem test_noise_ends_zero_budget :
    check (exec (.rxNoise 0x01) (hunting (.prompt []) .zero))
      (fun t => decide (t.phase = .done ∧ t.res = some .noFrame ∧ t.att = 1)) = true := by decide

/-- L1-5 -/
theorem test_noise_goes_on :
    check (exec (.rxNoise 0x01) (hunting (.prompt []) .unlimited))
      (fun t => decide (t.phase = .hunt ∧ t.res = none ∧ t.att = 1)) = true := by decide

/-- V-SC-10 -/
theorem test_payload_incomplete :
    check (step (paying 0xC0 (.prompt [0x7B, 0x00, 0x2D]) .zero)) (fun t => decide (t.res = some .noFrame ∧ t.att = 1 ∧
      t.diag = [.incompleteRead 0xC0 [0xAA, 0xC0, 0x7B, 0x00, 0x2D]])) = true := by decide

/-- V-SC-14 -/
theorem test_payload_fault :
    check (step (paying 0xC0 (.oracle [.err ⟨3⟩]) .zero)) (fun t => decide (t.res = some (.transportError ⟨3⟩) ∧ t.att = 0 ∧
      t.diag = [])) = true := by decide

/-! ## Witnesses: for each statement with hypotheses, states and operands that meet them all, clause by clause -/

theorem witness_ResetStateWaitsInIdle :
    State.reset.resetPending = false ∧ State.reset.phase = .idle ∧ State.reset.requests = [] := ⟨rfl, rfl, rfl⟩

theorem witness_BlockResetAbandonsCall :
    ({ paying 0xC0 (.prompt [1]) .zero with resetPending := true }).resetPending = true := rfl

theorem witness_StepKeepsRegisterInvariant :
    (hunting (.prompt [0xAA]) .zero).Inv ∧
    step (hunting (.prompt [0xAA]) .zero) = .next { waiting (.prompt []) .zero with taken := [0xAA], srcReads := 1 } :=
  ⟨hunting_inv _ _ rfl, rfl⟩

theorem witness_NoStepFaults : (paying 0xC5 (.oracle []) (.finite 1)).Inv := paying_inv _ (.inr rfl) _ _ rfl

theorem witness_CallNeverStops :
    (waiting (.oracle [.err ⟨0⟩]) .unlimited).Inv ∧ (waiting (.oracle [.err ⟨0⟩]) .unlimited).phase ≠ .idle :=
  ⟨waiting_inv _ _ rfl, by decide⟩

theorem witness_CommandRegisterRule :
    exec (.scan .zero) State.reset = .next (State.reset.startCall .zero) ∧
    (step (waiting (.prompt [0xC0]) .zero) = .next { paying 0xC0 (.prompt []) .zero with taken := [0xC0], srcReads := 1 } ∧
      (paying 0xC0 (.prompt []) .zero).cmd = some 0xC0) ∧
    (step (waiting (.prompt [0xC5]) .zero) = .next { paying 0xC5 (.prompt []) .zero with taken := [0xC5], srcReads := 1 } ∧
      (paying 0xC5 (.prompt []) .zero).cmd = some 0xC5) ∧
    (({ State.reset with phase := .payload } : State).resetPending = false ∧
      ({ State.reset with phase := .payload } : State).cmd = none) ∧
    (paying 0xC0 (.prompt []) .zero).Inv :=
  ⟨rfl, ⟨rfl, rfl⟩, ⟨rfl, rfl⟩, ⟨rfl, rfl⟩, paying_inv _ (.inl rfl) _ _ rfl⟩

theorem witness_DecodedOperationRuns :
    (asking kwEncSleep).resetPending = false ∧ (asking kwEncSleep).phase = .idle ∧
    (asking kwEncSleep).requests = kwEncSleep :: [] ∧
    decodeRequest (asking kwEncSleep).names kwEncSleep = .ok ⟨none, .encSleep⟩ ∧
    (⟨none, .encSleep⟩ : Request).name = none ∧
    (decodeRequest [] (ascii ['r', '=', 'S', 'C', 'A', 'N', ' ', '0'])).toOption = some ⟨some [0x72], .scan .zero⟩ ∧
    (Instr.scan .zero).frame? = none ∧
    (decodeRequest [] (ascii ['t', '='] ++ kwEncSleep)).toOption = some ⟨some [0x74], .encSleep⟩ ∧
    Instr.encSleep.frame? = some (frame Config.opSleepWake MODE_SET Config.paramSleep) ∧
    decodeRequest [] [] = .error .empty := ⟨rfl, rfl, rfl, rfl, rfl, by decide, rfl, by decide, rfl, rfl⟩

theorem witness_DecodedUnitRuns :
    (srcRead 1 (hunting (.prompt [0x01]) .zero)).1 = .bytes [0x01] ∧ [0x01] ≠ [(0xAA : Byte)] ∧
    decodeUnit [0x01] = .ok (.rxNoise 0x01) ∧
    (srcRead 1 (waiting (.prompt [0x99]) .zero)).1 = .bytes [0x99] ∧
    decodeUnit [0xAA, 0x99] = .ok (.rxfFalsePos (some 0x99)) ∧
    (srcRead 1 (waiting (.prompt []) .zero)).1 = .bytes [] ∧ decodeUnit [0xAA] = .ok (.rxfFalsePos none) ∧
    (srcRead 8 (paying 0xC0 (.prompt payP) .zero)).1 = .bytes payP ∧
    decodeUnit (0xAA :: 0xC0 :: payP) = .ok (.rxfMeas payP) ∧
    (srcRead 8 (paying 0xC5 (.prompt payP) .zero)).1 = .bytes payP ∧
    decodeUnit (0xAA :: 0xC5 :: payP) = .ok (.rxfAck payP) :=
  ⟨rfl, by decide, rfl, rfl, rfl, rfl, rfl, rfl, rfl, rfl, rfl⟩

theorem witness_OperationLinesRoundTrip :
    (Instr.send (frame 0 0 0)).isUnit = false ∧ (Instr.send (frame 0 0 0)).wf = true ∧
    (Instr.scan (.finite 1)).isUnit = false ∧ (Instr.scan (.finite 1)).wf = true := ⟨rfl, by decide, rfl, rfl⟩

/-- A name, a line without one, what a name stands for, and an ENC-family line in parentheses. -/
theorem witness_OperationLinesRoundTrip_names :
    isName kwScan ∧ kwEncWake.head? ≠ some 0xAA ∧ decodeRequest [] kwEncWake = .ok ⟨none, .encWake⟩ ∧
    (lookupName [([0x74], frame 8 1 5)] [0x74] = some (frame 8 1 5) ∧ (frame 8 1 5).length = 19) ∧
    (lookupName [([0x74], [])] [0x74] = some [] ∧ ([] : List Byte).length ≠ 19) ∧
    lookupName [([0x74], frame 8 1 5)] [0x75] = none ∧ [0x74] ≠ [(0x75 : Byte)] ∧
    (0x3B ∉ kwEncWake ∧ Instr.encWake.frame? = some (frame Config.opSleepWake MODE_SET Config.paramWake)) :=
  ⟨⟨by decide, by decide, by decide⟩, by decide, rfl, ⟨rfl, rfl⟩, ⟨rfl, by decide⟩, rfl, by decide, by decide, rfl⟩

theorem witness_UnitsRoundTripBothWays :
    (Instr.rxfMeas payP).isUnit = true ∧ (Instr.rxfMeas payP).wf = true ∧
    (Instr.rxfFalsePos (some 0xAA)).wf = true ∧ (Instr.rxfFalsePos none).wf = true ∧ (Instr.rxNoise 0xC0).wf = true ∧
    decodeUnit [0xAA, 0xAA] = .ok (.rxfFalsePos (some 0xAA)) := ⟨rfl, rfl, rfl, rfl, rfl, rfl⟩

theorem witness_FramePatternIsEnc :
    (decodeWord (frame 0x08 MODE_SET 5)).toOption = some (.enc 0x08 .set 5) ∧
    (decodeWord (frame 0x08 0x02 5)).toOption = some (.send (frame 0x08 0x02 5)) ∧
    (List.replicate 19 (0xAA : Byte)).length = 19 ∧ (frame 0x08 MODE_SET 5).dropLast.length ≠ 19 := by decide

/-- Nineteen bytes that are no frame: offset 1 of a frame is 0xB4. -/
theorem witness_FramePatternIsEnc_noFrame (op param : Byte) (m : Mode) :
    List.replicate 19 (0xAA : Byte) ≠ frame op m.byte param := by
  intro h
  have h1 : (0xAA : Byte) = 0xB4 := congrArg (fun t => t.getD 1 0) h
  exact absurd h1 (by decide)

theorem witness_DecodedRequestsAreOperations :
    decodeRequest [] kwEncWake = .ok ⟨none, .encWake⟩ := rfl

theorem witness_UnitLengthFromTwoBytes :
    payP.length = 8 ∧ (0xAA : Byte) ≠ 0xC0 ∧ (0xAA : Byte) ≠ 0xC5 ∧ (0xC0 : Byte) ≠ 0xAA := by decide

theorem witness_EncReturnsFrame :
    State.reset.phase = .idle ∧ kwMode ≠ ascii ['S', 'E', 'T'] ∧ kwMode ≠ ascii ['G', 'E', 'T'] := by decide

/-- A literal just above a byte. -/
def wide256 : List Byte := ascii ['2', '5', '6']

theorem wide256_wide : wideLiteral wide256 := ⟨256, rfl, by decide⟩

/-- ENC with mode 2 (V-ENC-14), named and not named; ENC with 256 in either byte. -/
theorem witness_EncReturnsFrame_enc :
    (asking []).resetPending = false ∧ (asking []).phase = .idle ∧ (asking []).requests = [] :: [] ∧
    lineReads (ascii ['E', 'N', 'C', ' ', '8', ',', '2', ',', '5']) kwEnc
      [.word [0x38], .comma, .word [0x32], .comma, .word [0x35]] ∧
    operandOutsideWidth kwEnc [.word [0x38], .comma, .word [0x32], .comma, .word [0x35]] ∧
    lineReads (ascii ['t', '=', 'E', 'N', 'C', ' ', '8', ',', 'S', 'E', 'T', ',', '2', '5', '6']) kwEnc
      [.word [0x38], .comma, .word kwSet, .comma, .word wide256] ∧
    operandOutsideWidth kwEnc [.word [0x38], .comma, .word kwSet, .comma, .word wide256] ∧
    operandOutsideWidth kwEncKind [.word wide256, .comma, .word kwSet, .comma, .word [0x35]] :=
  ⟨rfl, rfl, rfl, ⟨by decide, [], .inl rfl, by decide⟩, .inl (.inl ⟨.inl rfl, _, _, _, rfl, .inl (by decide)⟩),
    ⟨by decide, [.word [0x74], .equals], .inr ⟨_, rfl⟩, by decide⟩,
    .inl (.inl ⟨.inl rfl, _, _, _, rfl, .inr (.inr wide256_wide)⟩),
    .inl (.inl ⟨.inr rfl, _, _, _, rfl, .inr (.inl wide256_wide)⟩)⟩

/-- ENC.DUTY, CSUM.TX, a list, and an ENC-family line in the parentheses of SEND. -/
theorem witness_EncReturnsFrame_others :
    operandOutsideWidth kwEncDuty [.word wide256] ∧
    operandOutsideWidth kwCsumTx [.word wide256, .comma, .word kwGet, .comma, .word [0x30]] ∧
    operandOutsideWidth kwCsum [.lbracket, .word [0x31], .comma, .word wide256, .rbracket] ∧
    operandOutsideWidth kwSend [.lparen, .word kwEncDuty, .word wide256, .rparen] :=
  ⟨.inl (.inr ⟨rfl, _, rfl, wide256_wide⟩), .inr (.inl ⟨rfl, _, _, _, rfl, .inr (.inl wide256_wide)⟩),
    .inr (.inr (.inl ⟨.inl rfl, _, wide256, rfl, by simp, wide256_wide⟩)),
    .inr (.inr (.inr ⟨rfl, kwEncDuty, [.word wide256], rfl, .inr ⟨rfl, _, rfl, wide256_wide⟩⟩))⟩

theorem witness_EncPseudoOperationsReturnFrames :
    State.reset.phase = .idle ∧ ({ State.reset with cmd := some 0xC5, att := 3 } : State).phase = .idle := ⟨rfl, rfl⟩

theorem witness_EveryFrameMeetsEncoderLaw :
    exec .encSleep State.reset =
      .next (State.reset.deliver (.tx (frame Config.opSleepWake MODE_SET Config.paramSleep))) ∧
    (State.reset.deliver (.tx (frame Config.opSleepWake MODE_SET Config.paramSleep))).results =
      State.reset.results ++ [.tx (frame Config.opSleepWake MODE_SET Config.paramSleep)] := ⟨rfl, rfl⟩

theorem witness_EncFamilyIsPure :
    State.reset.phase = .idle ∧
    (Instr.enc 0 .get 0).frame?.isSome = true ∧ (Instr.encKind .mode .get 0).frame?.isSome = true ∧
    (Instr.encDuty 255).frame?.isSome = true ∧ Instr.encSleep.frame?.isSome = true ∧
    Instr.encWake.frame?.isSome = true := ⟨rfl, rfl, rfl, rfl, rfl, rfl⟩

theorem witness_SleepAndWakeFramesDiffer :
    Instr.encSleep.frame? = some (frame Config.opSleepWake MODE_SET Config.paramSleep) ∧
    Instr.encWake.frame? = some (frame Config.opSleepWake MODE_SET Config.paramWake) ∧ 17 < 19 := ⟨rfl, rfl, by decide⟩

theorem witness_SendCompletes :
    (frame 8 1 5).length = 19 ∧ State.reset.phase = .idle ∧ (asking []).phase = .idle ∧ (asking []).sink = .accepts ∧
    (Sink.write 0 (.oracle [.err ⟨7⟩ 0])).1 = .err ⟨7⟩ 0 ∧ (Sink.write 0 .accepts).1 = .ok :=
  ⟨rfl, rfl, rfl, rfl, rfl, rfl⟩

theorem witness_FailedSendAdmitsEveryPrefix :
    (frame 8 1 5).length = 19 ∧ State.reset.phase = .idle ∧ [] <+: frame 8 1 5 ∧ frame 8 1 5 <+: frame 8 1 5 :=
  ⟨rfl, rfl, List.nil_prefix, List.prefix_refl _⟩

theorem witness_OnlySendWritesOutbound :
    check (step (asking (kwSend ++ space ++ listText (List.replicate 19 7))))
      (fun t => decide (t.outbound ≠ (asking []).outbound)) = true := by decide

theorem witness_CsumReturnsSum :
    State.reset.phase = .idle ∧ (asking (kwCsum ++ space ++ listText [])).phase = .idle := ⟨rfl, rfl⟩

theorem witness_CsumTxReturnsSum : State.reset.phase = .idle ∧ (asking kwEncWake).phase = .idle := ⟨rfl, rfl⟩

theorem witness_CsumRxReturnsFlag :
    State.reset.phase = .idle ∧ ({ State.reset with res := some .noFrame } : State).phase = .idle := ⟨rfl, rfl⟩

theorem witness_CsumLaws : [0x01, (0x02 : Byte)].Perm [0x02, 0x01] ∧ 1 ≤ 1 := by decide

theorem witness_OperandOutsideTypeRefused : (Instr.scan (.finite 0)).wf = false := rfl

/-- V-SC-26, and a duration with a point. -/
theorem witness_OperandOutsideTypeRefused_budget :
    (asking []).resetPending = false ∧ (asking []).phase = .idle ∧ (asking []).requests = [] :: [] ∧
    lineReads (ascii ['S', 'C', 'A', 'N', ' ', '-', '1']) kwScan [.word (ascii ['-', '1'])] ∧
    budgetOutsideType kwScan [.word (ascii ['-', '1'])] ∧ budgetOutsideType kwReadMeas [.word (ascii ['1', '.', '5'])] :=
  ⟨rfl, rfl, rfl, ⟨by decide, [], .inl rfl, by decide⟩, ⟨.inl rfl, _, rfl, by decide, by decide⟩,
    ⟨.inr rfl, _, rfl, by decide, by decide⟩⟩

/-- V-SEND-3; CSUM.RX of seven bytes and of nine. -/
theorem witness_OperandOutsideTypeRefused_length :
    lineReads (kwSend ++ (space ++ listText (List.replicate 18 0))) kwSend (tokens (listText (List.replicate 18 0)) []) ∧
    lengthOutsideType kwSend (tokens (listText (List.replicate 18 0)) []) ∧
    lengthOutsideType kwCsumRx (tokens (listText (List.replicate 7 0)) []) ∧
    lengthOutsideType kwCsumRx (tokens (listText (List.replicate 9 0)) []) :=
  ⟨⟨by decide, [], .inl rfl, tokens_space _ _ (by decide) (by decide)⟩,
    ⟨_, parseList_listText _, .inl ⟨rfl, by decide⟩⟩, ⟨_, parseList_listText _, .inr ⟨rfl, by decide⟩⟩,
    ⟨_, parseList_listText _, .inr ⟨rfl, by decide⟩⟩⟩

theorem witness_SecondCallRefused :
    (Instr.encSleep.isUnit = false ∧ Instr.encSleep.wf = true) ∧
    ((Instr.send (frame 8 1 5)).isUnit = false ∧ (Instr.send (frame 8 1 5)).wf = true) ∧
    ((Instr.csumRx payP).isUnit = false ∧ (Instr.csumRx payP).wf = true) ∧
    (Instr.readMeas .zero).wf = true ∧
    (waiting (.prompt []) .zero).phase ≠ .idle ∧ ({ State.reset with phase := .done } : State).phase ≠ .idle := by decide

theorem witness_UnitOutsideItsStepRefused :
    ((0xC0 : Byte) ≠ 0xAA ∧ (waiting (.prompt []) .zero).phase ≠ .hunt) ∧
    ((none : Option Byte) ≠ some 0xC0 ∧ (none : Option Byte) ≠ some 0xC5 ∧
      (some 0xAA : Option Byte) ≠ some 0xC0 ∧ (some 0xAA : Option Byte) ≠ some 0xC5 ∧
      (hunting (.prompt []) .zero).phase ≠ .cmdWait) ∧
    (payP.length = 8 ∧ (waiting (.prompt []) .zero).phase ≠ .payload ∧ State.reset.phase ≠ .payload) ∧
    ((paying 0xC0 (.prompt []) .zero).phase = .payload ∧ (paying 0xC0 (.prompt []) .zero).cmd = some 0xC0 ∧
      (0xC0 : Byte) ≠ 0xC5) ∧
    ((paying 0xC5 (.prompt []) .zero).phase = .payload ∧ (paying 0xC5 (.prompt []) .zero).cmd = some 0xC5 ∧
      (0xC5 : Byte) ≠ 0xC0) := by decide

theorem witness_ScanStartsFromFixedState :
    (Budget.finite 1).wf = true ∧ State.reset.phase = .idle := ⟨rfl, rfl⟩

theorem witness_HuntStepRule :
    (hunting (.prompt []) .zero).resetPending = false ∧ (hunting (.prompt []) .zero).phase = .hunt ∧
    (srcRead 1 (hunting (.prompt [0xAA, 0xAA]) .zero)).1 = .bytes [0xAA] ∧
    (srcRead 1 (hunting (.prompt [0xAB]) .zero)).1 = .bytes [0xAB] ∧
    (srcRead 1 (hunting (.prompt []) .zero)).1 = .bytes [] ∧
    (srcRead 1 (hunting (.oracle [.err ⟨9⟩]) .zero)).1 = .err ⟨9⟩ := ⟨rfl, rfl, rfl, rfl, rfl, rfl⟩

theorem witness_CmdWaitStepRule :
    (waiting (.prompt []) .zero).resetPending = false ∧ (waiting (.prompt []) .zero).phase = .cmdWait ∧
    (srcRead 1 (waiting (.prompt [0xC0]) .zero)).1 = .bytes [0xC0] ∧
    (srcRead 1 (waiting (.prompt [0xC5]) .zero)).1 = .bytes [0xC5] ∧
    (srcRead 1 (waiting (.prompt [0xAA]) .zero)).1 = .bytes [0xAA] ∧
    (srcRead 1 (waiting (.prompt []) .zero)).1 = .bytes [] ∧
    (srcRead 1 (waiting (.oracle [.err ⟨9⟩]) .zero)).1 = .err ⟨9⟩ := ⟨rfl, rfl, rfl, rfl, rfl, rfl, rfl⟩

theorem witness_PayloadStepRule :
    (paying 0xC0 (.prompt []) .zero).resetPending = false ∧ (paying 0xC0 (.prompt []) .zero).phase = .payload ∧
    (paying 0xC0 (.prompt []) .zero).cmd = some 0xC0 ∧ (paying 0xC5 (.prompt []) .zero).cmd = some 0xC5 ∧
    (srcRead 8 (paying 0xC0 (.prompt payP) .zero)).1 = .bytes payP ∧
    (srcRead 8 (paying 0xC5 (.prompt (payP ++ [0]) ) .zero)).1 = .bytes payP ∧
    (srcRead 8 (paying 0xC0 (.prompt (payP.take 7)) .zero)).1 = .bytes (payP.take 7) ∧
    (srcRead 8 (paying 0xC5 (.prompt []) .zero)).1 = .bytes [] ∧
    (srcRead 8 (paying 0xC0 (.oracle [.err ⟨9⟩]) .zero)).1 = .err ⟨9⟩ :=
  ⟨rfl, rfl, rfl, rfl, rfl, rfl, rfl, rfl, rfl⟩

/-- The last clauses take the value of a free draw as their hypothesis: one of the two holds of it, whichever it is. -/
theorem witness_AttemptEndRule :
    (hunting (.prompt []) .zero).bud = some .zero ∧ (hunting (.prompt []) .unlimited).bud = some .unlimited ∧
    (hunting (.prompt []) (.finite 1)).bud = some (.finite 1) ∧ State.reset.bud = none ∧
    ({ hunting (.prompt []) (.finite 1) with clock := [true] }).clock = true :: [] ∧
    ({ hunting (.prompt []) (.finite 1) with clock := [false] }).clock = false :: [] ∧
    (hunting (.prompt []) (.finite 1)).clock = [] ∧
    (Config.freeExpired (hunting (.prompt []) (.finite 1)).clockDraws = true ∨
      Config.freeExpired (hunting (.prompt []) (.finite 1)).clockDraws = false) :=
  ⟨rfl, rfl, rfl, rfl, rfl, rfl, rfl, by cases Config.freeExpired _ <;> simp⟩

theorem witness_MeasurementEvaluation :
    (paying 0xC0 (.prompt []) .zero).phase = .payload ∧ (paying 0xC0 (.prompt []) .zero).cmd = some 0xC0 ∧
    true = decide ((0xAB : Byte).toNat = ((0x7B : Byte).toNat + (0x00 : Byte).toNat + (0x2D : Byte).toNat +
      (0x00 : Byte).toNat + (0x01 : Byte).toNat + (0x02 : Byte).toNat) % 256) ∧
    true = decide ((0xAB : Byte) = 0xAB) := ⟨rfl, rfl, by decide, by decide⟩

theorem witness_AcknowledgmentCompletes :
    payP.length = 8 ∧ (paying 0xC5 (.prompt []) .zero).phase = .payload ∧
    (paying 0xC5 (.prompt []) .zero).cmd = some 0xC5 := ⟨rfl, rfl, rfl⟩

theorem witness_StrayBytesEndTheAttempt :
    ((Instr.rxNoise 0).wf = true ∧ (hunting (.prompt []) .zero).phase = .hunt ∧
      (hunting (.prompt []) .zero).bud = some .zero) ∧
    ((Instr.rxfFalsePos none).wf = true ∧ (Instr.rxfFalsePos (some 0xAA)).wf = true ∧
      (waiting (.prompt []) .unlimited).phase = .cmdWait ∧ (waiting (.prompt []) .unlimited).bud = some .unlimited) :=
  ⟨⟨rfl, rfl, rfl⟩, rfl, rfl, rfl, rfl⟩

theorem witness_TransportFaultEndsCall :
    (paying 0xC0 (.oracle [.err ⟨9⟩]) .zero).resetPending = false ∧
    (paying 0xC0 (.oracle [.err ⟨9⟩]) .zero).scanning = true ∧ (paying 0xC0 (.oracle [.err ⟨9⟩]) .zero).Inv ∧
    (srcRead (paying 0xC0 (.oracle [.err ⟨9⟩]) .zero).phase.readSize (paying 0xC0 (.oracle [.err ⟨9⟩]) .zero)).1 =
      .err ⟨9⟩ := ⟨rfl, rfl, paying_inv _ (.inl rfl) _ _ rfl, rfl⟩

theorem witness_OnlyTransportFaultEndsCall :
    (hunting (.oracle [.err ⟨9⟩]) .unlimited).resetPending = false ∧
    (hunting (.oracle [.err ⟨9⟩]) .unlimited).scanning = true ∧
    check (step (hunting (.oracle [.err ⟨9⟩]) .unlimited)) (fun t => decide (t.phase = .done)) = true ∧
    check (step (hunting (.prompt [0x01]) .zero)) (fun t => decide (t.phase = .done ∧ t.res = some .noFrame)) = true := by
  decide

theorem witness_MismatchesGiveInvalidMeasurement :
    (paying 0xC0 (.prompt payP) .zero).resetPending = false ∧ (paying 0xC0 (.prompt payP) .zero).phase = .payload ∧
    (paying 0xC0 (.prompt payP) .zero).cmd = some 0xC0 ∧
    (srcRead 8 (paying 0xC0 (.prompt payP) .zero)).1 = .bytes payP ∧ payP.length = 8 ∧
    stepErrors (paying 0xC0 (.prompt payP) .zero) = [] ∧
    stepErrors (paying 0xC0 (.prompt (List.replicate 7 0 ++ [0xAA])) .zero) = [.tailMismatch] ∧
    stepErrors (paying 0xC0 (.prompt (List.replicate 8 1)) .zero) = [.checksumMismatch, .tailMismatch] := by decide

theorem witness_EndOfCallReturnsResult :
    ({ State.reset with phase := .done, res := some .noFrame } : State).resetPending = false ∧
    step { State.reset with phase := .done, res := some .noFrame } =
      .next { State.reset with res := some .noFrame, results := [.scanned .noFrame []] } ∧
    exec (.scan .zero) { State.reset with res := some .noFrame, results := [.scanned .noFrame []] } =
      .next ({ State.reset with res := some .noFrame, results := [.scanned .noFrame []] }.startCall .zero) ∧
    exec (.scan .zero) State.reset = .next (State.reset.startCall .zero) := ⟨rfl, rfl, rfl, rfl⟩

theorem witness_PhaseFollowsTheScanner :
    State.reset.resetPending = false ∧ step State.reset = .next State.reset := ⟨rfl, rfl⟩

theorem witness_CallTouchesOnlyItsOwnState :
    (hunting (.prompt [0xAA]) .zero).resetPending = false ∧ (hunting (.prompt [0xAA]) .zero).phase ≠ .idle ∧
    (hunting (.prompt [0xAA]) .zero).phase ≠ .done ∧
    step (hunting (.prompt [0xAA]) .zero) = .next { waiting (.prompt []) .zero with taken := [0xAA], srcReads := 1 } :=
  ⟨rfl, by decide, by decide, rfl⟩

theorem witness_StepReadsAtMostOnce :
    (hunting (.prompt [0xAA]) .zero).scanning = true ∧ (hunting (.prompt [0xAA]) .zero).resetPending = false ∧
    step (hunting (.prompt [0xAA]) .zero) = .next { waiting (.prompt []) .zero with taken := [0xAA], srcReads := 1 } ∧
    (paying 0xC5 (.prompt payP) .zero).scanning = true ∧
    answerBytes (srcRead (paying 0xC5 (.prompt payP) .zero).phase.readSize (paying 0xC5 (.prompt payP) .zero)).1 = payP ∧
    State.reset.scanning = false ∧ step State.reset = .next State.reset ∧
    step { hunting (.prompt [0xAA]) .zero with resetPending := true } =
      .next { State.reset with source := .prompt [0xAA] } := ⟨rfl, rfl, rfl, rfl, rfl, rfl, rfl, rfl⟩

theorem witness_PromptStreamIsConserved :
    (hunting (.prompt [0xAA]) .zero).source = .prompt [0xAA] ∧ (hunting (.prompt [0xAA]) .zero).scanning = true ∧
    (hunting (.prompt [0xAA]) .zero).res = none ∧
    step (hunting (.prompt [0xAA]) .zero) = .next { waiting (.prompt []) .zero with taken := [0xAA], srcReads := 1 } :=
  ⟨rfl, rfl, rfl, rfl⟩

theorem witness_UnlimitedNeverReturnsNoFrame :
    ({ State.reset with source := .prompt [0x01] } : State).resetPending = false ∧
    ({ State.reset with source := .prompt [0x01] } : State).phase = .idle ∧
    steps 1 (hunting (.prompt [0x01]) .unlimited) =
      .next { hunting (.prompt []) .unlimited with taken := [0x01], srcReads := 1, att := 1 } ∧
    (∀ m u, m < 1 → steps m (hunting (.prompt [0x01]) .unlimited) = .next u → u.phase ≠ .done) := by
  refine ⟨rfl, rfl, rfl, fun m u hm h => ?_⟩
  obtain rfl : m = 0 := by omega
  cases h
  decide

theorem witness_UnlimitedCallHangsOnSilence :
    (hunting (.prompt [0xC0]) .unlimited).resetPending = false ∧ (hunting (.prompt [0xC0]) .unlimited).phase = .hunt ∧
    (hunting (.prompt [0xC0]) .unlimited).bud = some .unlimited ∧
    (hunting (.prompt [0xC0]) .unlimited).source = .prompt [0xC0] ∧ (∀ b, b ∈ [(0xC0 : Byte)] → b ≠ 0xAA) ∧
    (hunting (.prompt []) .unlimited).source = .prompt [] := ⟨rfl, rfl, rfl, rfl, by decide, rfl⟩

theorem witness_ZeroBudgetEndsInOneAttempt : State.reset.resetPending = false := rfl

theorem witness_FiniteBudgetEndsWithTheClock :
    ({ State.reset with clock := [false, true] } : State).resetPending = false ∧
    ({ State.reset with clock := [false, true] } : State).clock = [false] ++ true :: [] ∧
    ({ State.reset with clock := [true] } : State).clock = [] ++ true :: [] := ⟨rfl, rfl, rfl⟩

/-- Clock fairness is a premise about opaque draws, so it cannot be shown here; the other hypothesis holds at reset and with
draws listed, and a sequence of draws that is fair exists. -/
theorem witness_FairClockEndsFiniteCall :
    State.reset.resetPending = false ∧ ({ State.reset with clock := [false] } : State).resetPending = false ∧
    (∃ f : Nat → Bool, ∀ n, ∃ m, n ≤ m ∧ f m = true) := ⟨rfl, rfl, fun _ => true, fun n => ⟨n, le_refl n, rfl⟩⟩

theorem witness_ScanResynchronises :
    ({ State.reset with source := .prompt ([0x01, 0x02] ++ [0xAA, 0xC0] ++ payP ++ [0xAA]), clock := [false, false, true] } :
      State).resetPending = false ∧
    (∀ b, b ∈ [0x01, (0x02 : Byte)] → b ≠ 0xAA) ∧ payP.length = 8 ∧
    [false, false, true] = List.replicate [0x01, (0x02 : Byte)].length false ++ [true] ∧
    ({ State.reset with source := .prompt ([] ++ [0xAA, 0xC5] ++ payP ++ []) } : State).source =
      .prompt ([] ++ [0xAA, 0xC5] ++ payP ++ []) := ⟨rfl, by decide, rfl, rfl, rfl⟩

theorem witness_FrameIsReturnedWhateverTheClock :
    (hunting (.prompt ([0xAA, 0xC0] ++ payP ++ [])) .zero).resetPending = false ∧
    (hunting (.prompt ([0xAA, 0xC0] ++ payP ++ [])) .zero).phase = .hunt ∧ payP.length = 8 ∧
    (hunting (.prompt ([0xAA, 0xC0] ++ payP ++ [])) .zero).source = .prompt ([0xAA, 0xC0] ++ payP ++ []) ∧
    (hunting (.prompt ([0xAA, 0xC5] ++ payP ++ [0])) .zero).source = .prompt ([0xAA, 0xC5] ++ payP ++ [0]) :=
  ⟨rfl, rfl, rfl, rfl, rfl⟩

theorem witness_HeaderAfterHeaderIsLost :
    (hunting (.prompt [0xAA, 0xAA, 0xC0]) .unlimited).resetPending = false ∧
    (hunting (.prompt [0xAA, 0xAA, 0xC0]) .unlimited).phase = .hunt ∧
    (hunting (.prompt [0xAA, 0xAA, 0xC0]) .unlimited).bud = some .unlimited ∧
    (hunting (.prompt [0xAA, 0xAA, 0xC0]) .unlimited).source = .prompt (0xAA :: 0xAA :: [0xC0]) := ⟨rfl, rfl, rfl, rfl⟩

theorem witness_CallsAreIndependent :
    ({ State.reset with source := .prompt [0xAA] } : State).resetPending = false ∧
    ({ State.reset with source := .prompt [0xAA], cmd := some 0xC5, att := 3, results := [.sum 0] } :
      State).resetPending = false ∧
    sameInputs { State.reset with source := .prompt [0xAA] }
      { State.reset with source := .prompt [0xAA], cmd := some 0xC5, att := 3, results := [.sum 0] } ∧
    steps 1 (hunting (.prompt [0xAA]) .zero) = .next { waiting (.prompt []) .zero with taken := [0xAA], srcReads := 1 } ∧
    (∀ m v, m < 1 → steps m (hunting (.prompt [0xAA]) .zero) = .next v → v.phase ≠ .idle) := by
  refine ⟨rfl, rfl, ⟨rfl, rfl, rfl, rfl⟩, rfl, fun m v hm h => ?_⟩
  obtain rfl : m = 0 := by omega
  cases h
  decide

theorem witness_ReadAnswersAtMostWhatIsAsked :
    (hunting (.prompt [1, 2]) .zero).source = .prompt [1, 2] := rfl


end Sys2Proof.Tests
end

section
/-! The command register (spec/10_state.md R18) and the start of a call (R30). -/

namespace Sys2Proof.Machine

/-! ## The start of a call -/

theorem exec_scan (b : Budget) (s : State) : exec (.scan b) s = beginCall b s := rfl

theorem exec_readMeas (b : Budget) (s : State) : exec (.readMeas b) s = beginCall b s := rfl

/-- In IDLE, a call asked for with a Budget starts. -/
theorem beginCall_idle (b : Budget) (s : State) (hb : b.wf = true) (hp : s.phase = .idle) :
    beginCall b s = .next (s.startCall b) := by
  simp [beginCall, hb, hp]

/-- A call starts only with a Budget and in IDLE. -/
theorem beginCall_next (b : Budget) (s t : State) (h : beginCall b s = .next t) :
    b.wf = true ∧ s.phase = .idle ∧ t = s.startCall b := by
  unfold beginCall at h
  split at h
  · cases h
  next hb =>
    obtain ⟨hp, ht⟩ := startOperation_next s t _ h
    cases ht
    exact ⟨by simpa using hb, hp, rfl⟩

/-! ## What a step leaves in CMD -/

theorem AfterRead.cmd_eq {s u : State} {bs : List Byte} (h : AfterRead s u bs) : u.cmd = s.cmd := by
  unfold AfterRead at h
  rw [h]

theorem AfterAttempt.cmd_eq {u t : State} (h : AfterAttempt u t) : t.cmd = u.cmd := by
  obtain ⟨cl, n, ⟨rfl, -⟩ | ⟨rfl, -⟩⟩ := h <;> rfl

@[simp] theorem evalMeas_cmd (s : State) : (evalMeas s).cmd = s.cmd := by
  rw [evalMeas_eq]

/-- An operation in IDLE leaves CMD as it is, or unwritten where it starts a call. -/
theorem exec_idle_cmd (i : Instr) (s t : State) (hp : s.phase = .idle) (h : exec i s = .next t) :
    t.cmd = s.cmd ∨ t.cmd = none := by
  rcases exec_idle_cases i s t hp h with ⟨r, rfl, -⟩ | ⟨tx, -, -, rfl⟩ | ⟨b, -, rfl, -⟩
  · exact .inl rfl
  · exact .inl rfl
  · exact .inr rfl

/-- A step leaves CMD as it is, makes it unwritten, or latches in CMDWAIT the command byte just read. -/
theorem StepTo.cmd_cases {s t : State} (h : StepTo s t) :
    t.cmd = s.cmd ∨ t.cmd = none ∨
    ∃ k, t.cmd = some k ∧ s.phase = .cmdWait ∧ (k = CMD_MEAS ∨ k = CMD_ACK) ∧ (srcRead 1 s).1 = .bytes [k] := by
  cases h with
  | reset => exact .inr (.inl rfl)
  | wait => exact .inl rfl
  | operation _ hp bs rest r u ns _ _ hx => exact (exec_idle_cmd r.op { s with requests := rest } u hp hx).imp_right .inl
  | header _ _ u _ hu => exact .inl hu.cmd_eq
  | command _ hp k hk u hr _ => exact .inr (.inr ⟨k, rfl, hp, hk, congrArg Prod.fst hr⟩)
  | stray _ _ _ _ _ u _ _ hu ht => exact .inl (ht.cmd_eq.trans hu.cmd_eq)
  | falsePositive _ _ _ _ _ u _ _ hu ht => exact .inl (ht.cmd_eq.trans hu.cmd_eq)
  | incomplete _ _ _ _ _ _ _ u _ _ hu ht => exact .inl (ht.cmd_eq.trans hu.cmd_eq)
  | measured _ _ _ bs _ u _ hu => exact .inl ((evalMeas_cmd { u with pay := bs }).trans hu.cmd_eq)
  | acknowledged _ _ _ _ _ u _ hu => exact .inl hu.cmd_eq
  | faulted _ _ _ u _ hu => exact .inl hu.cmd_eq
  | returned => exact .inl rfl

/-! ## Steps that read registers -/

/-- PAYLOAD with CMD unwritten "must fault" (R18). -/
theorem payloadStep_cmd_unwritten (s : State) (hc : s.cmd = none) : payloadStep s = .fault .cmdUnwritten := by
  simp only [payloadStep, hc]

theorem endAttempt_goes_on (s : State) : ∃ t, endAttempt s = .next t := ⟨_, rfl⟩

theorem huntStep_goes_on (s : State) (hp : s.phase = .hunt) : ∃ t, huntStep s = .next t := by
  rcases huntStep_cases s hp with ⟨_, _, e⟩ | ⟨_, u, _, _, e⟩ | ⟨u, _, e⟩ | ⟨_, _, _, e⟩
  · exact ⟨_, e⟩
  · exact e ▸ endAttempt_goes_on u
  · exact e ▸ endAttempt_goes_on u
  · exact ⟨_, e⟩

theorem cmdWaitStep_goes_on (s : State) (hp : s.phase = .cmdWait) : ∃ t, cmdWaitStep s = .next t := by
  rcases cmdWaitStep_cases s hp with ⟨_, _, _, _, e⟩ | ⟨_, u, _, _, _, e⟩ | ⟨u, _, e⟩ | ⟨_, _, _, e⟩
  · exact ⟨_, e⟩
  · exact e ▸ endAttempt_goes_on u
  · exact e ▸ endAttempt_goes_on u
  · exact ⟨_, e⟩

/-- PAYLOAD goes on with a command byte latched. -/
theorem payloadStep_goes_on (s : State) (k : Byte) (hp : s.phase = .payload) (hc : s.cmd = some k)
    (hk : k = CMD_MEAS ∨ k = CMD_ACK) : ∃ t, payloadStep s = .next t := by
  rcases payloadStep_cases s k hp hc hk with ⟨_, _, _, _, _, e⟩ | ⟨_, _, _, _, _, e⟩ | ⟨_, _, _, _, e⟩ | ⟨_, _, _, e⟩
  · exact ⟨_, e⟩
  · exact ⟨_, e⟩
  · exact e ▸ endAttempt_goes_on _
  · exact ⟨_, e⟩

/-- DONE goes on with a result. -/
theorem endCall_goes_on (s : State) (r : FrameResult) (hr : s.res = some r) : ∃ t, endCall s = .next t := by
  simp only [endCall, hr]
  exact ⟨_, rfl⟩

/-- The IDLE step reads no register of a call, so it does not fault. -/
theorem idleStep_no_fault (s : State) (hp : s.phase = .idle) (f : Fault) : idleStep s ≠ .fault f := by
  intro h
  unfold idleStep at h
  split at h
  · cases h
  · split at h
    · cases h
    next rest _ _ r _ =>
      unfold bindResult at h
      split at h
      · cases h
      next g hx => exact exec_idle_no_fault r.op { s with requests := rest } hp g hx
      · cases h

/-- Under the register invariant every step outside IDLE goes on: each phase finds the registers it reads. -/
theorem State.Inv.step_goes_on {s : State} (hi : s.Inv) (hp : s.phase ≠ .idle) : ∃ t, step s = .next t := by
  cases h0 : s.resetPending with
  | true => exact ⟨_, step_reset s h0⟩
  | false =>
    cases hph : s.phase with
    | idle => exact absurd hph hp
    | hunt => exact step_hunt s h0 hph ▸ huntStep_goes_on s hph
    | cmdWait => exact step_cmdWait s h0 hph ▸ cmdWaitStep_goes_on s hph
    | payload =>
      obtain ⟨k, hk⟩ := Option.isSome_iff_exists.mp (hi.cmd_written hph)
      exact step_payload s h0 hph ▸ payloadStep_goes_on s k hph hk (hi.cmd_legal k hk)
    | done =>
      obtain ⟨r, hr⟩ := Option.isSome_iff_exists.mp (hi.res_written hph)
      exact step_done s h0 hph ▸ endCall_goes_on s r hr

/-- Under the register invariant no step faults. -/
theorem State.Inv.step_no_fault {s : State} (hi : s.Inv) (f : Fault) : step s ≠ .fault f := by
  by_cases hp : s.phase = .idle
  · cases h0 : s.resetPending with
    | true => simp [step_reset s h0]
    | false => exact step_idle s h0 hp ▸ idleStep_no_fault s hp f
  · obtain ⟨t, ht⟩ := hi.step_goes_on hp
    simp [ht]

/-! ## The obligations -/

/-- Settles O7: the writes by the ways a step can go on, the reads by the register invariant. -/
theorem commandRegisterRule : Obligations.CommandRegisterRule := by
  unfold Obligations.CommandRegisterRule
  refine ⟨fun s t b h => ?_, fun s t k h hk => ?_, fun s h0 hp hc => ?_, fun s hi => hi.step_no_fault _⟩
  · obtain ⟨-, -, rfl⟩ := beginCall_next b s t (exec_scan b s ▸ h)
    exact State.startCall_cmd s b
  · rcases (step_to s t h).cmd_cases with he | hn | ⟨k', hk', hp, hl, hr⟩
    · exact .inl (he ▸ hk)
    · cases hn.symm.trans hk
    · cases hk'.symm.trans hk
      exact .inr ⟨hp, hl, hr⟩
  · rw [step_payload s h0 hp, payloadStep_cmd_unwritten s hc]

/-- Settles O33: both operations are the start of a call, whose state is that of `State.startCall`. -/
theorem scanStartsFromFixedState : Obligations.ScanStartsFromFixedState := by
  unfold Obligations.ScanStartsFromFixedState
  intro b s hb hp
  exact ⟨(exec_scan b s).trans (beginCall_idle b s hb hp), (exec_readMeas b s).trans (beginCall_idle b s hb hp)⟩

end Sys2Proof.Machine
end

section
/-! The wire formats: the TXF layout (spec/30_encoding.md R55), the lengths of units (R50, R58), and the expansions of the
pseudo-operations (R70). -/

namespace Sys2Proof

/-! ## Outgoing frames -/

/-- The checksum of a frame sums the two sentinels with the three operand bytes (spec/41_checksum.md R84). -/
theorem checksumTx_eq (op mb param : Byte) : checksumTx op mb param = checksum [op, mb, param, 0xFF, 0xFF] := rfl

/-- A frame byte by byte, in the order of its offsets (R55). -/
theorem frame_eq (op mb param : Byte) :
    frame op mb param =
      [0xAA, 0xB4, op, mb, param, 0, 0, 0, 0, 0, 0, 0, 0, 0, 0, 0xFF, 0xFF,
       checksum [op, mb, param, 0xFF, 0xFF], 0xAB] := rfl

@[simp] theorem frame_length (op mb param : Byte) : (frame op mb param).length = 19 := by
  rw [frame_eq]
  rfl

/-! ## Lengths of inbound units -/

/-- Bytes after the first two do not change a unit's length (R58). -/
theorem unitLength_append_of_two_le (bs rest : List Byte) (h : 2 ≤ bs.length) :
    unitLength (bs ++ rest) = unitLength bs := by
  match bs, h with
  | _ :: _ :: _, _ => rfl

/-- A byte that is no header is a unit by itself, whatever follows (R50). -/
theorem unitLength_cons_of_ne_hdr (b : Byte) (rest : List Byte) (h : b ≠ HDR) : unitLength (b :: rest) = 1 := by
  cases rest with
  | nil => rfl
  | cons k rest => simp [unitLength, h]

/-- Where a well-formed unit has both of the bytes that decide its length, its length is known whatever follows. -/
theorem unitLength_encode_append {i : Instr} (hi : Laws.EncodeHead.Statement i) (hw : i.wf = true)
    (hu : i.isUnit = true) (h2 : 2 ≤ (encode i).length) (rest : List Byte) :
    unitLength (encode i ++ rest) = (encode i).length := by
  rw [unitLength_append_of_two_le _ rest h2, (hi hw).1 hu]

theorem encode_rxfMeas_length (pay : List Byte) (h : pay.length = 8) : (encode (.rxfMeas pay)).length = 10 := by
  simp [encode, h]

theorem encode_rxfAck_length (pay : List Byte) (h : pay.length = 8) : (encode (.rxfAck pay)).length = 10 := by
  simp [encode, h]

theorem encode_rxfFalsePos_some_length (k : Byte) : (encode (.rxfFalsePos (some k))).length = 2 := rfl

end Sys2Proof

namespace Sys2Proof.Machine

/-! ## Operations as their results -/

/-- An ENC-family operation does nothing but return its frame (spec/40_encoder.md R71), in every state. -/
theorem exec_of_frame? {i : Instr} {f : List Byte} (h : i.frame? = some f) (s : State) :
    exec i s = returnResult (.tx f) s := by
  cases i <;> cases h <;> rfl

theorem exec_csum (bs : List Byte) (s : State) : exec (.csum bs) s = returnResult (.sum (checksum bs)) s := rfl

theorem exec_csumTx (op : Byte) (m : Mode) (param : Byte) (s : State) :
    exec (.csumTx op m param) s = returnResult (.sum (checksumTx op m.byte param)) s := rfl

/-- So two ENC-family operations with one frame do the same. -/
theorem exec_eq_of_frame?_eq {i j : Instr} {f : List Byte} (hi : i.frame? = some f) (hj : j.frame? = some f)
    (s : State) : exec i s = exec j s :=
  (exec_of_frame? hi s).trans (exec_of_frame? hj s).symm

/-! ## The obligations -/

/-- Settles O15: for a unit of two bytes or more the first two fix the length and the encoder's length agrees with it; a
lone header and a noise byte are one byte each. -/
theorem unitLengthFromTwoBytes : Obligations.UnitLengthFromTwoBytes := by
  unfold Obligations.UnitLengthFromTwoBytes
  refine ⟨frame_length, fun pay rest hp => ?_, fun k rest hm ha => ?_, rfl,
    fun b rest hb => unitLength_cons_of_ne_hdr b rest hb⟩
  · have hlm := encode_rxfMeas_length pay hp
    have hla := encode_rxfAck_length pay hp
    have hm := unitLength_encode_append (Laws.EncodeHead.rxfMeas pay) (by simp [Instr.wf, hp]) rfl (by omega) rest
    have ha := unitLength_encode_append (Laws.EncodeHead.rxfAck pay) (by simp [Instr.wf, hp]) rfl (by omega) rest
    exact ⟨hm.trans hlm, hlm, ha.trans hla, hla⟩
  · have hl := encode_rxfFalsePos_some_length k
    have hk := unitLength_encode_append (Laws.EncodeHead.rxfFalsePos (some k)) (decide_eq_true ⟨hm, ha⟩)
      rfl hl.ge rest
    exact ⟨hk.trans hl, hl⟩

/-- Settles O16: the layout of a frame, with the mode byte of each Mode. -/
theorem frameLayout : Obligations.FrameLayout := by
  unfold Obligations.FrameLayout
  intro op param m
  cases m with
  | set => exact frame_eq op MODE_SET param
  | get => exact frame_eq op MODE_GET param

/-- Settles O21: an ENC-family operation and its expansion build one frame, CSUM.TX and its expansion one sum, and
READ.MEAS and SCAN start one call. -/
theorem expansionsAreExact : Obligations.ExpansionsAreExact := by
  unfold Obligations.ExpansionsAreExact
  refine ⟨fun m s => exec_eq_of_frame?_eq rfl rfl s, fun s => exec_eq_of_frame?_eq rfl rfl s,
    fun s => exec_eq_of_frame?_eq rfl rfl s, fun k m p s => exec_eq_of_frame?_eq rfl rfl s, fun o p m s => ?_,
    fun b s => (exec_readMeas b s).trans (exec_scan b s).symm⟩
  rw [exec_csumTx, exec_csum, checksumTx_eq]

end Sys2Proof.Machine
end

section
/-! The encoder: the law every frame meets (spec/40_encoder.md R78), and who returns a frame and what that leaves
unchanged (R79). -/

namespace Sys2Proof

/-! ## The law of a frame -/

@[simp] theorem checksum_toNat (bs : List Byte) : (checksum bs).toNat = byteSum bs % 256 := by
  simp [checksum]

/-- The checksum byte of a frame is the sum of its three operand bytes and the two sentinels, reduced once (R78). -/
theorem checksumTx_toNat (op mb param : Byte) :
    (checksumTx op mb param).toNat = (op.toNat + mb.toNat + param.toNat + 255 + 255) % 256 := by
  rw [checksumTx_eq, checksum_toNat]
  simp only [byteSum, BitVec.reduceToNat, Nat.add_zero, Nat.add_assoc]

/-- Each ENC-family operation builds a frame by the one layout (R72). -/
theorem Instr.frame?_eq_frame {i : Instr} {f : List Byte} (h : i.frame? = some f) :
    ∃ op mb param, f = frame op mb param := by
  cases i <;> cases h <;> exact ⟨_, _, _, rfl⟩

theorem Instr.frame?_length {i : Instr} {f : List Byte} (h : i.frame? = some f) : f.length = 19 := by
  obtain ⟨op, mb, param, rfl⟩ := Instr.frame?_eq_frame h
  exact frame_length op mb param

end Sys2Proof

namespace Sys2Proof.Machine

/-! ## What an instruction that goes on returns -/

theorem returnResult_next {r : OpResult} {s t : State} (h : returnResult r s = .next t) : t = s.deliver r := by
  obtain ⟨-, ht⟩ := startOperation_next s t _ h
  cases ht
  rfl
theorem AfterAttempt.results_eq {u t : State} (h : AfterAttempt u t) : t.results = u.results := by
  obtain ⟨cl, n, ⟨rfl, -⟩ | ⟨rfl, -⟩⟩ := h <;> rfl

@[simp] theorem evalMeas_results (s : State) : (evalMeas s).results = s.results := by
  rw [evalMeas_eq]

/-- A whole inbound unit goes on only in the way its class says (R93, R94). -/
theorem inPayload_next {k : Byte} {pay : List Byte} {s t : State} {run : Result}
    (h : inPayload k pay s run = .next t) : run = .next t := by
  unfold inPayload at h
  split at h
  · cases h
  split at h
  · cases h
  split at h
  · cases h
  split at h
  · exact h
  · cases h

/-- An inbound unit returns nothing to the caller: the end of the call does (R107). -/
theorem exec_unit_results {i : Instr} {s t : State} (hu : i.isUnit = true) (h : exec i s = .next t) :
    t.results = s.results := by
  cases i with
  | rxfMeas pay =>
    cases inPayload_next h
    exact evalMeas_results { s with pay := pay }
  | rxfAck pay =>
    cases inPayload_next h
    rfl
  | rxfFalsePos k =>
    simp only [exec, execRxfFalsePos] at h
    split at h
    · cases h
    split at h
    · cases h
    · exact (endAttempt_after s t h).results_eq
  | rxNoise b =>
    simp only [exec, execRxNoise] at h
    split at h
    · cases h
    split at h
    · cases h
    · exact (endAttempt_after s t h).results_eq
  | _ => cases hu

/-- SEND goes on with 19 bytes only: it makes its write and returns the answer (R80). -/
theorem execSend_next {tx : List Byte} {s t : State} (h : execSend tx s = .next t) :
    tx.length = TX_LEN ∧ t = (sinkWrite tx s).2.deliver (.sent (sendResult (sinkWrite tx s).1)) := by
  unfold execSend at h
  split at h
  · cases h
  next hl =>
    obtain ⟨-, ht⟩ := startOperation_next s t _ h
    cases ht
    exact ⟨not_not.mp hl, rfl⟩

/-- CSUM.RX goes on with 8 bytes only, and returns their check (spec/41_checksum.md R85). -/
theorem execCsumRx_next {pay : List Byte} {s t : State} (h : execCsumRx pay s = .next t) :
    pay.length = RX_PAYLOAD_LEN ∧ t = s.deliver (.check (ckOk pay)) := by
  unfold execCsumRx at h
  split at h
  · cases h
  next hl => exact ⟨not_not.mp hl, returnResult_next h⟩

/-- What is not in the ENC family returns no frame: SEND and the checksums return results of their own, and the start of
a call and an inbound unit return none. -/
theorem exec_results_ne_tx {i : Instr} {s t : State} (hi : i.frame? = none) (h : exec i s = .next t) (f : List Byte) :
    t.results ≠ s.results ++ [.tx f] := by
  cases i with
  | enc op m p => cases hi
  | encKind k m p => cases hi
  | encDuty m => cases hi
  | encSleep => cases hi
  | encWake => cases hi
  | send tx =>
    obtain ⟨-, rfl⟩ := execSend_next h
    simp
  | csum bs =>
    obtain rfl := returnResult_next h
    simp
  | csumTx op m p =>
    obtain rfl := returnResult_next h
    simp
  | csumRx pay =>
    obtain ⟨-, rfl⟩ := execCsumRx_next h
    simp
  | scan b =>
    obtain ⟨-, -, rfl⟩ := beginCall_next b s t h
    simp
  | readMeas b =>
    obtain ⟨-, -, rfl⟩ := beginCall_next b s t h
    simp
  | rxfMeas pay => simp [exec_unit_results rfl h]
  | rxfAck pay => simp [exec_unit_results rfl h]
  | rxfFalsePos k => simp [exec_unit_results rfl h]
  | rxNoise b => simp [exec_unit_results rfl h]

/-- A returned frame is the one the instruction builds, so the instruction is in the ENC family. -/
theorem frame?_of_exec_results {i : Instr} {s t : State} {f : List Byte} (h : exec i s = .next t)
    (hr : t.results = s.results ++ [.tx f]) : i.frame? = some f := by
  cases hi : i.frame? with
  | none => exact absurd hr (exec_results_ne_tx hi h f)
  | some g =>
    rw [exec_of_frame? hi] at h
    obtain rfl := returnResult_next h
    simpa using hr

/-! ## What the return of a result leaves unchanged -/

theorem State.deliver_sameRegisters (s : State) (r : OpResult) : sameRegisters s (s.deliver r) :=
  ⟨rfl, rfl, rfl, rfl, rfl, rfl, rfl⟩

theorem State.deliver_sameStreams (s : State) (r : OpResult) : sameStreams s (s.deliver r) :=
  ⟨rfl, rfl, rfl, rfl, rfl, rfl, rfl, rfl⟩

/-! ## The obligations -/

/-- Settles O19: a returned frame is that of an ENC-family operation, and such a frame has the one layout. -/
theorem everyFrameMeetsEncoderLaw : Obligations.EveryFrameMeetsEncoderLaw := by
  unfold Obligations.EveryFrameMeetsEncoderLaw
  intro i s t f h hr
  obtain ⟨op, mb, param, rfl⟩ := Instr.frame?_eq_frame (frame?_of_exec_results h hr)
  exact ⟨frame_length op mb param, rfl, checksumTx_toNat op mb param, rfl⟩

/-- Settles O20: the frame is a function of the instruction alone, and in IDLE the operation delivers it and does nothing
else. -/
theorem encFamilyIsPure : Obligations.EncFamilyIsPure := by
  unfold Obligations.EncFamilyIsPure
  intro i hi
  obtain ⟨f, hf⟩ := Option.isSome_iff_exists.mp hi
  exact ⟨f, Instr.frame?_length hf, fun s hp => ⟨s.deliver (.tx f), exec_frame i f s hf hp, s.deliver_results _,
    s.deliver_sameRegisters _, s.deliver_sameStreams _, rfl, rfl, rfl⟩⟩

end Sys2Proof.Machine
end

section
/-! The end of a call and the start of the next: what a call returns (spec/42_scanner.md R107), and that no register is
handed on from one call to the next (spec/10_state.md R30). -/

namespace Sys2Proof.Machine

/-- FrameResult has four forms (spec/00_scope.md R13). -/
theorem FrameResult.eq_one_of_four (r : FrameResult) :
    (∃ m, r = .measurement m) ∨ r = .acknowledgment ∨ r = .noFrame ∨ ∃ c, r = .transportError c := by
  cases r with
  | measurement m => exact .inl ⟨m, rfl⟩
  | acknowledgment => exact .inr (.inl rfl)
  | noFrame => exact .inr (.inr (.inl rfl))
  | transportError c => exact .inr (.inr (.inr ⟨c, rfl⟩))

/-- With RES written, the end of a call delivers it with DIAG and touches nothing but PHASE. -/
theorem endCall_of_res {s : State} {r : FrameResult} (hr : s.res = some r) :
    endCall s = .next ({ s with phase := .idle }.deliver (.scanned r s.diag)) := by
  rw [endCall, hr]

/-- The start of a call writes every register, so it leaves the same ones whatever state it starts from (R30). -/
theorem State.startCall_sameRegisters (s t : State) (b : Budget) : sameRegisters (s.startCall b) (t.startCall b) :=
  ⟨rfl, rfl, rfl, rfl, rfl, rfl, rfl⟩

/-- So two SCANs with one budget that go on agree on the registers, wherever each starts. -/
theorem exec_scan_sameRegisters {b : Budget} {s t u v : State} (hu : exec (.scan b) s = .next u)
    (hv : exec (.scan b) t = .next v) : sameRegisters u v := by
  obtain ⟨-, -, rfl⟩ := beginCall_next b s u (exec_scan b s ▸ hu)
  obtain ⟨-, -, rfl⟩ := beginCall_next b t v (exec_scan b t ▸ hv)
  exact State.startCall_sameRegisters s t b

/-! ## The obligation -/

/-- Settles O45: the step in DONE is the end of the call, and the next call's registers are those of any call with its
budget, the first after reset among them. -/
theorem endOfCallReturnsResult : Obligations.EndOfCallReturnsResult := by
  unfold Obligations.EndOfCallReturnsResult
  intro s r h0 hp hr
  exact ⟨(step_done s h0 hp).trans (endCall_of_res hr), r.eq_one_of_four,
    fun _ _ _ _ _ hu hv => exec_scan_sameRegisters hu hv⟩

end Sys2Proof.Machine
end

section
/-! The ends of a call: a failed read (spec/60_exceptions.md R119), which is TransportFault and the only error class that
ends a call by itself (R116), a whole frame, and an expired budget. -/

namespace Sys2Proof.Machine

/-! ## The error classes of a reading step -/

theorem transportFault_notMem_payloadErrors (pay : List Byte) : ErrorClass.transportFault ∉ payloadErrors pay := by
  unfold payloadErrors
  cases ckOk pay <;> cases tailOk pay <;> decide

/-- Bytes the read returns raise no TransportFault, in any phase (R111, R115). -/
theorem transportFault_notMem_answerErrors_bytes (p : Phase) (cmd : Option Byte) (bs : List Byte) :
    ErrorClass.transportFault ∉ answerErrors p cmd (.bytes bs) := by
  cases p with
  | idle => exact List.not_mem_nil
  | done => exact List.not_mem_nil
  | hunt =>
    simp only [answerErrors]
    split <;> decide
  | cmdWait =>
    simp only [answerErrors]
    split <;> decide
  | payload =>
    simp only [answerErrors]
    split
    · decide
    split
    · exact transportFault_notMem_payloadErrors bs
    · exact List.not_mem_nil

/-- During a call the classes raised are those of the answer to the step's read. -/
theorem stepErrors_of_scanning {s : State} (hs : s.scanning = true) :
    stepErrors s = answerErrors s.phase s.cmd (srcRead s.phase.readSize s).1 := by
  unfold stepErrors
  cases hp : s.phase with
  | idle => simp [State.scanning, hp] at hs
  | done => simp [State.scanning, hp] at hs
  | _ => rfl

/-! ## The ends of a call -/

/-- The step from `s` to `t` ends the call with a whole frame or on an expired budget (R116). -/
def FrameOrBudgetEnd (s t : State) : Prop :=
  (s.phase = .payload ∧ ((∃ m, t.res = some (.measurement m)) ∨ t.res = some .acknowledgment)) ∨
  (t.res = some .noFrame ∧ t.att = s.att + 1 ∧ s.bud ≠ some .unlimited)

theorem FrameOrBudgetEnd.res_ne_transportError {s t : State} (h : FrameOrBudgetEnd s t) (c : Cause) :
    t.res ≠ some (.transportError c) := by
  rcases h with ⟨-, ⟨m, hr⟩ | hr⟩ | ⟨hr, -, -⟩ <;> simp [hr]

theorem AfterRead.att_eq {s u : State} {bs : List Byte} (h : AfterRead s u bs) : u.att = s.att := by
  unfold AfterRead at h
  rw [h]

theorem AfterRead.bud_eq {s u : State} {bs : List Byte} (h : AfterRead s u bs) : u.bud = s.bud := by
  unfold AfterRead at h
  rw [h]

/-- An attempt without a frame ends the call only on an expired budget (spec/42_scanner.md R97). -/
theorem AfterAttempt.frameOrBudgetEnd {s u t : State} (h : AfterAttempt u t) (ha : u.att = s.att) (hb : u.bud = s.bud)
    (hd : t.phase = .done) : FrameOrBudgetEnd s t := by
  obtain ⟨cl, n, ⟨rfl, -⟩ | ⟨rfl, hu⟩⟩ := h
  · cases hd
  · exact .inr ⟨rfl, congrArg (· + 1) ha, hb ▸ hu⟩

/-- A step of a call either raises TransportFault on a failed read, or has read bytes, and then ends the call with a whole
frame or an expired budget if it ends it at all. -/
theorem StepTo.scanning_cases {s t : State} (h : StepTo s t) (h0 : s.resetPending = false) (hs : s.scanning = true) :
    (∃ c, (srcRead s.phase.readSize s).1 = .err c ∧ t = (srcRead s.phase.readSize s).2.raiseTransportFault c) ∨
    (∃ bs, (srcRead s.phase.readSize s).1 = .bytes bs ∧ (t.phase = .done → FrameOrBudgetEnd s t)) := by
  cases h with
  | reset h => simp [h0] at h
  | wait _ hp => simp [State.scanning, hp] at hs
  | operation _ hp => simp [State.scanning, hp] at hs
  | returned _ hp => simp [State.scanning, hp] at hs
  | faulted _ _ c u hr =>
    rw [hr]
    exact .inl ⟨c, rfl, rfl⟩
  | header _ hp u hr => exact .inr ⟨[HDR], hp ▸ congrArg Prod.fst hr, nofun⟩
  | command _ hp k _ u hr => exact .inr ⟨[k], hp ▸ congrArg Prod.fst hr, nofun⟩
  | stray _ hp bs _ _ u _ hr hu ht =>
    exact .inr ⟨bs, hp ▸ congrArg Prod.fst hr, ht.frameOrBudgetEnd hu.att_eq hu.bud_eq⟩
  | falsePositive _ hp bs _ _ u _ hr hu ht =>
    exact .inr ⟨bs, hp ▸ congrArg Prod.fst hr, ht.frameOrBudgetEnd hu.att_eq hu.bud_eq⟩
  | incomplete _ hp _ _ _ bs _ u _ hr hu ht =>
    exact .inr ⟨bs, hp ▸ congrArg Prod.fst hr, ht.frameOrBudgetEnd hu.att_eq hu.bud_eq⟩
  | measured _ hp _ bs _ u hr =>
    exact .inr ⟨bs, hp ▸ congrArg Prod.fst hr, fun _ => .inl ⟨hp, .inl ⟨_, rfl⟩⟩⟩
  | acknowledged _ hp _ bs _ u hr =>
    exact .inr ⟨bs, hp ▸ congrArg Prod.fst hr, fun _ => .inl ⟨hp, .inr rfl⟩⟩

/-- Under the register invariant a failed read raises TransportFault and does nothing else (R119). -/
theorem State.Inv.step_of_read_fails {s : State} {c : Cause} (hi : s.Inv) (h0 : s.resetPending = false)
    (hs : s.scanning = true) (hr : (srcRead s.phase.readSize s).1 = .err c) :
    step s = .next ((srcRead s.phase.readSize s).2.raiseTransportFault c) := by
  have hp : s.phase ≠ .idle := fun hp => by simp [State.scanning, hp] at hs
  obtain ⟨t, ht⟩ := hi.step_goes_on hp
  rcases (step_to s t ht).scanning_cases h0 hs with ⟨c', hr', rfl⟩ | ⟨bs, hr', -⟩
  · cases hr.symm.trans hr'
    exact ht
  · cases hr.symm.trans hr'

/-- A read that fails counts no byte as read. -/
theorem srcRead_taken_of_err {n : Nat} {s : State} {c : Cause} (hr : (srcRead n s).1 = .err c) :
    (srcRead n s).2.taken = s.taken := by
  rw [srcRead_taken, ← srcRead_answer, hr]
  exact List.append_nil s.taken

/-- The step after a raise returns TransportError with DIAG (R119). -/
theorem step_raiseTransportFault (u : State) (c : Cause) (h0 : u.resetPending = false) :
    step (u.raiseTransportFault c) =
      .next ({ u.raiseTransportFault c with phase := .idle }.deliver (.scanned (.transportError c) u.diag)) :=
  (step_done (u.raiseTransportFault c) h0 rfl).trans (endCall_of_res rfl)

/-! ## The obligations -/

/-- Settles O41: the step raises TransportFault on the state after the read, and the step in DONE returns its RES. -/
theorem transportFaultEndsCall : Obligations.TransportFaultEndsCall := by
  unfold Obligations.TransportFaultEndsCall
  intro s c h0 hs hi hr
  exact ⟨_, hi.step_of_read_fails h0 hs hr, rfl, rfl, srcRead_taken_of_err hr, rfl, rfl, rfl, rfl, rfl, rfl, rfl,
    step_raiseTransportFault (srcRead s.phase.readSize s).2 c h0⟩

/-- Settles O42: by the answer of the step's read, which alone decides both the class raised and the kind of end. -/
theorem onlyTransportFaultEndsCall : Obligations.OnlyTransportFaultEndsCall := by
  unfold Obligations.OnlyTransportFaultEndsCall
  intro s t h0 hs h
  rcases (step_to s t h).scanning_cases h0 hs with ⟨c, hr, rfl⟩ | ⟨bs, hr, hend⟩
  · have he : stepErrors s = [.transportFault] := by rw [stepErrors_of_scanning hs, hr, answerErrors]
    exact ⟨⟨fun _ => he, fun _ => ⟨rfl, c, rfl⟩⟩, fun _ => .inl he⟩
  · have he : stepErrors s ≠ [.transportFault] := by
      rw [stepErrors_of_scanning hs, hr]
      exact fun h => transportFault_notMem_answerErrors_bytes s.phase s.cmd bs (h ▸ List.mem_singleton_self _)
    exact ⟨⟨fun ⟨hd, c, hc⟩ => absurd hc ((hend hd).res_ne_transportError c), fun h => absurd h he⟩,
      fun hd => .inr (hend hd)⟩

end Sys2Proof.Machine
end

section
/-! The register invariant (spec/10_state.md R16-R21; spec/60_exceptions.md R128): each named operation keeps it, so every
step does, so no step faults and no step of a call stops. -/

namespace Sys2Proof.Machine

/-! ## What reads and attempts leave, as record updates -/

/-- A read changes the stream and nothing else. -/
theorem AfterRead.exists_eq {s u : State} {bs : List Byte} (h : AfterRead s u bs) :
    ∃ src, u = { s with source := src, taken := s.taken ++ bs, srcReads := s.srcReads + 1 } :=
  ⟨u.source, h⟩

theorem AfterRead.sameRegisters {s u : State} {bs : List Byte} (h : AfterRead s u bs) : sameRegisters s u := by
  obtain ⟨src, rfl⟩ := h.exists_eq
  exact ⟨rfl, rfl, rfl, rfl, rfl, rfl, rfl⟩

theorem AfterRead.phase_eq {s u : State} {bs : List Byte} (h : AfterRead s u bs) : u.phase = s.phase := by
  obtain ⟨src, rfl⟩ := h.exists_eq
  rfl

/-! ## The phases of a call -/

theorem State.scanning_iff (s : State) :
    s.scanning = true ↔ s.phase = .hunt ∨ s.phase = .cmdWait ∨ s.phase = .payload := decide_eq_true_iff

theorem State.scanning_of_hunt {s : State} (h : s.phase = .hunt) : s.scanning = true := s.scanning_iff.mpr (.inl h)

theorem State.scanning_of_cmdWait {s : State} (h : s.phase = .cmdWait) : s.scanning = true :=
  s.scanning_iff.mpr (.inr (.inl h))

theorem State.scanning_of_payload {s : State} (h : s.phase = .payload) : s.scanning = true :=
  s.scanning_iff.mpr (.inr (.inr h))

theorem State.not_scanning_of_idle {s : State} (h : s.phase = .idle) : s.scanning ≠ true := by
  simp [State.scanning_iff, h]

theorem State.not_scanning_of_done {s : State} (h : s.phase = .done) : s.scanning ≠ true := by
  simp [State.scanning_iff, h]

/-! ## The events a step emits (R128) -/

/-- A short payload after a command byte makes a well-formed IncompleteRead. -/
theorem incompleteRead_wf {k : Byte} (hk : k = CMD_MEAS ∨ k = CMD_ACK) {bs : List Byte}
    (hl : bs.length < RX_PAYLOAD_LEN) : (DiagEvent.incompleteRead k ([HDR, k] ++ bs)).wf = true := by
  have hl' : bs.length < 8 := hl
  exact decide_eq_true ⟨hk, rfl, by simp, by simp; omega⟩

/-- A whole payload with a flag down makes a well-formed BadPacket. -/
theorem badPacket_wf {pay : List Byte} (hl : pay.length = RX_PAYLOAD_LEN) (hs : statusOf pay ≠ .valid) :
    (DiagEvent.badPacket ([HDR, CMD_MEAS] ++ pay) (ckOk pay) (tailOk pay)).wf = true := by
  have hf : (ckOk pay && tailOk pay) = false := by simpa [statusOf] using hs
  simp [DiagEvent.wf, hf, hl]

/-! ## Each operation keeps the invariant -/

/-- The invariant speaks of the registers only. -/
theorem State.Inv.of_sameRegisters {s t : State} (hi : s.Inv) (h : Machine.sameRegisters s t) : t.Inv := by
  obtain ⟨hphase, hbud, hcmd, hpay, -, hres, hdiag⟩ := h
  have hscan : t.scanning = s.scanning := by rw [State.scanning, State.scanning, hphase]
  exact {
    cmd_legal := hcmd ▸ hi.cmd_legal
    pay_short := hpay ▸ hi.pay_short
    bud_wf := hbud ▸ hi.bud_wf
    diag_wf := hdiag ▸ hi.diag_wf
    bud_written := hscan ▸ hbud ▸ hi.bud_written
    res_unwritten := hscan ▸ hres ▸ hi.res_unwritten
    cmd_written := hphase ▸ hcmd ▸ hi.cmd_written
    res_written := hphase ▸ hres ▸ hi.res_written }

theorem State.blockReset_inv (s : State) : s.blockReset.Inv := by
  constructor <;> simp [State.scanning]

theorem State.startCall_inv (s : State) {b : Budget} (hb : b.wf = true) : (s.startCall b).Inv := by
  constructor <;> simp [hb]

theorem State.Inv.headerMatched {s : State} (hi : s.Inv) (hs : s.scanning = true) : s.headerMatched.Inv where
  cmd_legal := hi.cmd_legal
  pay_short := hi.pay_short
  bud_wf := hi.bud_wf
  diag_wf := hi.diag_wf
  bud_written _ := hi.bud_written hs
  res_unwritten _ := hi.res_unwritten hs
  cmd_written := nofun
  res_written := nofun

theorem State.Inv.latchCommand {s : State} {k : Byte} (hi : s.Inv) (hs : s.scanning = true)
    (hk : k = CMD_MEAS ∨ k = CMD_ACK) : (s.latchCommand k).Inv where
  cmd_legal k' h := by
    cases h
    exact hk
  pay_short := hi.pay_short
  bud_wf := hi.bud_wf
  diag_wf := hi.diag_wf
  bud_written _ := hi.bud_written hs
  res_unwritten _ := hi.res_unwritten hs
  cmd_written _ := rfl
  res_written := nofun

theorem State.Inv.withPay {s : State} {bs : List Byte} (hi : s.Inv) (hl : bs.length ≤ RX_PAYLOAD_LEN) :
    { s with pay := bs }.Inv :=
  { hi with pay_short := hl }

theorem State.Inv.emit {s : State} {e : DiagEvent} (hi : s.Inv) (he : e.wf = true) : (s.emit e).Inv :=
  { hi with
    diag_wf := fun e' h => by
      rcases List.mem_append.mp h with h | h
      · exact hi.diag_wf e' h
      · rw [List.mem_singleton.mp h]
        exact he }

theorem State.Inv.finishWith {s : State} (hi : s.Inv) (r : FrameResult) : (s.finishWith r).Inv where
  cmd_legal := hi.cmd_legal
  pay_short := hi.pay_short
  bud_wf := hi.bud_wf
  diag_wf := hi.diag_wf
  bud_written := nofun
  res_unwritten := nofun
  cmd_written := nofun
  res_written _ := rfl

theorem State.Inv.emitBadPacket {s : State} {pay : List Byte} (hi : s.Inv) (hl : pay.length = RX_PAYLOAD_LEN) :
    (s.emitBadPacket pay).Inv := by
  unfold State.emitBadPacket
  split
  · exact hi
  next hs => exact hi.emit (badPacket_wf hl (by simp [hs]))

theorem State.Inv.evalMeas {s : State} (hi : s.Inv) (hl : s.pay.length = RX_PAYLOAD_LEN) : (evalMeas s).Inv :=
  (hi.emitBadPacket hl).finishWith _

/-- The end of an attempt leaves the registers written for HUNT, or RES for DONE. -/
theorem State.Inv.afterAttempt {u t : State} (hi : u.Inv) (hs : u.scanning = true) (h : AfterAttempt u t) : t.Inv := by
  obtain ⟨cl, n, ⟨rfl, -⟩ | ⟨rfl, -⟩⟩ := h
  · exact { hi with bud_written := fun _ => hi.bud_written hs, res_unwritten := fun _ => hi.res_unwritten hs,
                    cmd_written := nofun, res_written := nofun }
  · exact { hi with bud_written := nofun, res_unwritten := nofun, cmd_written := nofun, res_written := fun _ => rfl }

/-- The end of a call leaves the registers, and IDLE asks nothing of them. -/
theorem State.Inv.returned {s : State} (hi : s.Inv) (r : OpResult) : ({ s with phase := .idle }.deliver r).Inv :=
  { hi with bud_written := nofun, res_unwritten := nofun, cmd_written := nofun, res_written := nofun }

/-- An operation in IDLE leaves the registers, or starts a call with a Budget. -/
theorem State.Inv.exec_idle {i : Instr} {s t : State} (hi : s.Inv) (hp : s.phase = .idle) (h : exec i s = .next t) :
    t.Inv := by
  rcases exec_idle_cases i s t hp h with ⟨r, rfl, -⟩ | ⟨tx, -, -, rfl⟩ | ⟨b, hb, rfl, -⟩
  · exact hi.of_sameRegisters (s.deliver_sameRegisters r)
  · exact hi.of_sameRegisters ⟨rfl, rfl, rfl, rfl, rfl, rfl, rfl⟩
  · exact s.startCall_inv hb

/-- Each way a step can go on keeps the invariant. -/
theorem StepTo.inv {s t : State} (h : StepTo s t) (hi : s.Inv) : t.Inv := by
  cases h with
  | reset => exact s.blockReset_inv
  | wait => exact hi
  | operation _ hp bs rest r u ns _ _ hx =>
    have hu : u.Inv :=
      State.Inv.exec_idle (s := { s with requests := rest }) (hi.of_sameRegisters ⟨rfl, rfl, rfl, rfl, rfl, rfl, rfl⟩) hp hx
    exact hu.of_sameRegisters ⟨rfl, rfl, rfl, rfl, rfl, rfl, rfl⟩
  | header _ hp u _ hu =>
    exact (hi.of_sameRegisters hu.sameRegisters).headerMatched (State.scanning_of_hunt (hu.phase_eq.trans hp))
  | command _ hp k hk u _ hu =>
    exact (hi.of_sameRegisters hu.sameRegisters).latchCommand (State.scanning_of_cmdWait (hu.phase_eq.trans hp)) hk
  | stray _ hp _ _ _ u _ _ hu ht =>
    exact (hi.of_sameRegisters hu.sameRegisters).afterAttempt (State.scanning_of_hunt (hu.phase_eq.trans hp)) ht
  | falsePositive _ hp _ _ _ u _ _ hu ht =>
    exact (hi.of_sameRegisters hu.sameRegisters).afterAttempt (State.scanning_of_cmdWait (hu.phase_eq.trans hp)) ht
  | incomplete _ hp k _ hk bs hl u _ _ hu ht =>
    exact (((hi.of_sameRegisters hu.sameRegisters).withPay hl.le).emit (incompleteRead_wf hk hl)).afterAttempt
      (State.scanning_of_payload (hu.phase_eq.trans hp)) ht
  | measured _ _ _ bs hl u _ hu => exact ((hi.of_sameRegisters hu.sameRegisters).withPay hl.le).evalMeas hl
  | acknowledged _ _ _ bs hl u _ hu => exact ((hi.of_sameRegisters hu.sameRegisters).withPay hl.le).finishWith _
  | faulted _ _ c u _ hu => exact (hi.of_sameRegisters hu.sameRegisters).finishWith _
  | returned _ _ r _ => exact hi.returned _

/-! ## The obligations -/

/-- Settles O4: by the ways a step can go on, each of which is made of operations that keep the invariant. -/
theorem stepKeepsRegisterInvariant : Obligations.StepKeepsRegisterInvariant := by
  unfold Obligations.StepKeepsRegisterInvariant
  exact fun s t hi h => (step_to s t h).inv hi

/-- Settles O5: each phase finds the registers it reads written. -/
theorem noStepFaults : Obligations.NoStepFaults := by
  unfold Obligations.NoStepFaults
  exact fun s f hi => hi.step_no_fault f

/-- Settles O6: outside IDLE each phase's step answers with a next state, the invariant holding. -/
theorem callNeverStops : Obligations.CallNeverStops := by
  unfold Obligations.CallNeverStops
  exact fun s hi hp => hi.step_goes_on hp

/-- Settles O3: at reset every register is unwritten or empty and PHASE is IDLE, as after a block reset. -/
theorem resetMeetsRegisterInvariant : Obligations.ResetMeetsRegisterInvariant := by
  unfold Obligations.ResetMeetsRegisterInvariant
  exact State.reset.blockReset_inv.of_sameRegisters ⟨rfl, rfl, rfl, rfl, rfl, rfl, rfl⟩

end Sys2Proof.Machine
end

section
/-! Operation lines (spec/30_encoding.md R69; log 7): the line of an operation parses to it, named or not, and so does every
form of SEND's operand; whatever is accepted is a well-formed operation (R67). -/

namespace Sys2Proof

/-! ## Characters of a line -/

/-- A word holds no semicolon, so it starts no comment. -/
theorem semicolon_notMem_word {w : List Byte} (h : w.all isWordChar = true) : (0x3B : Byte) ∉ w :=
  fun hm => absurd (List.all_eq_true.mp h _ hm) (by decide)

theorem semicolon_notMem_byteText (b : Byte) : (0x3B : Byte) ∉ byteText b := semicolon_notMem_word (byteText_word b)

theorem semicolon_notMem_modeText (m : Mode) : (0x3B : Byte) ∉ modeText m := semicolon_notMem_word (modeText_word m).1

theorem semicolon_notMem_kindText (k : CommandKind) : (0x3B : Byte) ∉ kindText k :=
  semicolon_notMem_word (kindText_word k).1

/-- The line of an ENC-family operation holds no comment. -/
theorem semicolon_notMem_encode {i : Instr} {f : List Byte} (h : i.frame? = some f) : (0x3B : Byte) ∉ encode i := by
  have hc : (0x3B : Byte) ∉ commaText := by decide
  have hs : (0x3B : Byte) ∉ space := by decide
  cases i with
  | enc op m p =>
    have hk : (0x3B : Byte) ∉ kwEnc := by decide
    simp only [encode, List.mem_append, hc, hs, hk, semicolon_notMem_byteText, semicolon_notMem_modeText, or_self,
      not_false_eq_true]
  | encKind k m p =>
    have hk : (0x3B : Byte) ∉ kwEncKind := by decide
    simp only [encode, List.mem_append, hc, hs, hk, semicolon_notMem_byteText, semicolon_notMem_modeText,
      semicolon_notMem_kindText, or_self, not_false_eq_true]
  | encDuty m =>
    have hk : (0x3B : Byte) ∉ kwEncDuty := by decide
    simp only [encode, List.mem_append, hs, hk, semicolon_notMem_byteText, or_self, not_false_eq_true]
  | encSleep => decide
  | encWake => decide
  | _ => cases h

/-! ## Tokens of a line -/

/-- A mnemonic and the operands after the blank. -/
theorem tokens_mnemonic (m text : List Byte) (h : m.all isWordChar = true ∧ m ≠ []) :
    tokens (m ++ space ++ text) [] = .word m :: tokens text [] := by
  rw [List.append_assoc, tokens_space m text h.1 h.2]

/-- SEND of a text in parentheses. -/
theorem tokens_send_parenthesised (line : List Byte) (h : 0x3B ∉ line) :
    tokens (kwSend ++ ascii [' ', '('] ++ line ++ ascii [')']) [] =
      .word kwSend :: .lparen :: (tokens line [] ++ [.rparen]) := by
  have ht : kwSend ++ ascii [' ', '('] ++ line ++ ascii [')'] = kwSend ++ space ++ (0x28 :: (line ++ ascii [')'])) := by
    simp [space, ascii]
  rw [ht, tokens_mnemonic kwSend _ (by decide),
    tokens_punctuation 0x28 .lparen _ _ (by decide) (by decide) (by decide), tokens_close line [] h]
  rfl

/-- SEND of a word. -/
theorem tokens_send_word (n : List Byte) (h : n.all isWordChar = true) (hn : n ≠ []) :
    tokens (kwSend ++ ascii [' '] ++ n) [] = [.word kwSend, .word n] :=
  (tokens_mnemonic kwSend n (by decide)).trans (by rw [tokens_end n h hn])

/-! ## Operands as the encoder writes them -/

theorem parseEncOperands_text (op param : Byte) (m : Mode) :
    parseEncOperands [.word (byteText op), .comma, .word (modeText m), .comma, .word (byteText param)] =
      .ok (op, m, param) := by
  simp only [parseEncOperands, parseByte_byteText, parseMode_modeText]

theorem parseKindOperands_text (k : CommandKind) (param : Byte) (m : Mode) :
    parseKindOperands [.word (kindText k), .comma, .word (modeText m), .comma, .word (byteText param)] =
      .ok (k, m, param) := by
  simp only [parseKindOperands, parseByte_byteText, parseMode_modeText, parseKind_kindText]

/-! ## Lines that parse -/

/-- A line is a mnemonic and operands that parse to an operation; no equals sign after the mnemonic makes it a name. -/
def LineParses (names : List (List Byte × List Byte)) (line : List Byte) (i : Instr) : Prop :=
  ∃ m rest, tokens line [] = .word m :: rest ∧ (∀ r, rest ≠ .equals :: r) ∧ parseOperation names m rest = .ok i

theorem LineParses.decodeRequest {names : List (List Byte × List Byte)} {line : List Byte} {i : Instr}
    (h : LineParses names line i) (hw : i.wf = true) (hl : line.head? ≠ some HDR) :
    decodeRequest names line = .ok ⟨none, i⟩ := by
  obtain ⟨m, rest, ht, hn, hp⟩ := h
  exact decodeRequest_line names line m rest i ht hn hp hw hl

/-- The line of an operation with three operands, a mode in the middle. -/
theorem lineParses_triple {names : List (List Byte × List Byte)} {m first : List Byte} {mode : Mode} {param : Byte}
    {i : Instr} (hm : m.all isWordChar = true ∧ m ≠ []) (hf : first.all isWordChar = true ∧ first ≠ [])
    (hp : parseOperation names m [.word first, .comma, .word (modeText mode), .comma, .word (byteText param)] = .ok i) :
    LineParses names (m ++ space ++ first ++ commaText ++ modeText mode ++ commaText ++ byteText param) i := by
  refine ⟨m, _, ?_, by simp, hp⟩
  simp only [List.append_assoc]
  rw [tokens_space m _ hm.1 hm.2,
    tokens_operands _ _ _ hf (modeText_word mode) ⟨byteText_word param, byteText_ne_nil param⟩]

/-- The line of an operation with one word as operand. -/
theorem lineParses_word {names : List (List Byte × List Byte)} {m w : List Byte} {i : Instr}
    (hm : m.all isWordChar = true ∧ m ≠ []) (hw : w.all isWordChar = true ∧ w ≠ [])
    (hp : parseOperation names m [.word w] = .ok i) : LineParses names (m ++ space ++ w) i :=
  ⟨m, [.word w], by rw [tokens_mnemonic m w hm, tokens_end w hw.1 hw.2], by simp, hp⟩

/-- The line of an operation with a list as operand. -/
theorem lineParses_list {names : List (List Byte × List Byte)} {m bs : List Byte} {i : Instr}
    (hm : m.all isWordChar = true ∧ m ≠ []) (hp : parseOperation names m (tokens (listText bs) []) = .ok i) :
    LineParses names (m ++ space ++ listText bs) i := by
  obtain ⟨rest, hr⟩ := tokens_listText_head bs
  exact ⟨m, tokens (listText bs) [], tokens_mnemonic m _ hm, by simp [hr], hp⟩

/-- The encoder's line of an operation parses to it. -/
theorem encode_lineParses (names : List (List Byte × List Byte)) {i : Instr} (hu : i.isUnit = false) (hw : i.wf = true) :
    LineParses names (encode i) i := by
  cases i with
  | enc op m p =>
    exact lineParses_triple (by decide) ⟨byteText_word op, byteText_ne_nil op⟩
      (by rw [parseOperation_enc, parseEncOperands_text]; rfl)
  | encKind k m p =>
    exact lineParses_triple (by decide) (kindText_word k) (by rw [parseOperation_encKind, parseKindOperands_text]; rfl)
  | encDuty m =>
    exact lineParses_word (by decide) ⟨byteText_word m, byteText_ne_nil m⟩
      (by rw [parseOperation_encDuty, parseByteOperand, parseByte_byteText]; rfl)
  | encSleep => exact ⟨kwEncSleep, [], rfl, by simp, rfl⟩
  | encWake => exact ⟨kwEncWake, [], rfl, by simp, rfl⟩
  | send tx => exact lineParses_list (by decide) (by rw [parseOperation_send, parseTx_listText]; rfl)
  | csum bs => exact lineParses_list (by decide) (by rw [parseOperation_csum, parseList_listText]; rfl)
  | csumTx op m p =>
    exact lineParses_triple (by decide) ⟨byteText_word op, byteText_ne_nil op⟩
      (by rw [parseOperation_csumTx, parseEncOperands_text]; rfl)
  | csumRx pay => exact lineParses_list (by decide) (by rw [parseOperation_csumRx, parseList_listText]; rfl)
  | scan b =>
    exact lineParses_word (by decide) (budgetText_word b)
      (by rw [parseOperation_scan, parseScanOperand, parseBudget_budgetText b hw]; rfl)
  | readMeas b =>
    exact lineParses_word (by decide) (budgetText_word b)
      (by rw [parseOperation_readMeas, parseScanOperand, parseBudget_budgetText b hw]; rfl)
  | _ => cases hu

/-- An operation's line never begins with the header. -/
theorem encode_head_ne_header {i : Instr} (hu : i.isUnit = false) (hw : i.wf = true) : (encode i).head? ≠ some HDR := by
  have h : Laws.EncodeHead.Statement i := by
    cases i with
    | enc op m p => exact Laws.EncodeHead.enc op m p
    | encKind k m p => exact Laws.EncodeHead.encKind k m p
    | encDuty m => exact Laws.EncodeHead.encDuty m
    | encSleep => exact Laws.EncodeHead.encSleep
    | encWake => exact Laws.EncodeHead.encWake
    | send tx => exact Laws.EncodeHead.send tx
    | csum bs => exact Laws.EncodeHead.csum bs
    | csumTx op m p => exact Laws.EncodeHead.csumTx op m p
    | csumRx pay => exact Laws.EncodeHead.csumRx pay
    | scan b => exact Laws.EncodeHead.scan b
    | readMeas b => exact Laws.EncodeHead.readMeas b
    | _ => cases hu
  exact (h hw).2 hu

theorem decodeRequest_encode (names : List (List Byte × List Byte)) {i : Instr} (hu : i.isUnit = false) (hw : i.wf = true) :
    decodeRequest names (encode i) = .ok ⟨none, i⟩ :=
  (encode_lineParses names hu hw).decodeRequest hw (encode_head_ne_header hu hw)

/-- What has a frame is an operation with its operands in their types. -/
theorem Instr.isUnit_wf_of_frame? {i : Instr} {f : List Byte} (h : i.frame? = some f) :
    i.isUnit = false ∧ i.wf = true := by
  cases i <;> cases h <;> exact ⟨rfl, rfl⟩

/-! ## Names -/

/-- The first character of a name is that of the line. -/
theorem head_of_name {n : List Byte} (h : Machine.isName n) (text : List Byte) : (n ++ text).head? ≠ some HDR := by
  obtain ⟨hne, -, hh⟩ := h
  obtain ⟨c, cs, rfl⟩ := List.exists_cons_of_ne_nil hne
  exact hh

/-- A name in front of a line names its result. -/
theorem decodeRequest_named {names : List (List Byte × List Byte)} {n line : List Byte} {i : Instr}
    (hn : Machine.isName n) (hl : line.head? ≠ some HDR) (h : decodeRequest names line = .ok ⟨none, i⟩) :
    decodeRequest names (n ++ ascii [' ', '=', ' '] ++ line) = .ok ⟨some n, i⟩ := by
  obtain ⟨m, rest, ht, hp, hw⟩ := decodeRequest_unnamed names line i hl h
  have hh : (n ++ ascii [' ', '=', ' '] ++ line).head? ≠ some HDR := by
    rw [List.append_assoc]
    exact head_of_name hn _
  obtain ⟨hne, hall, -⟩ := hn
  simp only [decodeRequest, hh, if_false, decodeLine, tokens_name n line hall hne, ht, parseLine, hp, Except.map,
    checkRequest, hw, if_true]

/-! ## The operand of SEND -/

theorem parseOperation_send_name (names : List (List Byte × List Byte)) (n : List Byte) :
    (∀ f, lookupName names n = some f → parseOperation names kwSend [.word n] = .ok (.send f)) ∧
    (lookupName names n = none → parseOperation names kwSend [.word n] = .error .unknownName) := by
  refine ⟨fun f h => ?_, fun h => ?_⟩ <;> rw [parseOperation_send, parseTx, h] <;> rfl

theorem send_head_ne_header (text : List Byte) : (kwSend ++ text).head? ≠ some HDR := by
  simp [kwSend, ascii, HDR]

/-- SEND of a word reads as its mnemonic and that word. -/
theorem lineReads_send_word {n : List Byte} (hn : Machine.isName n) :
    Machine.lineReads (kwSend ++ ascii [' '] ++ n) kwSend [.word n] := by
  obtain ⟨hne, hall, -⟩ := hn
  refine ⟨?_, [], .inl rfl, tokens_send_word n hall hne⟩
  rw [List.append_assoc]
  exact send_head_ne_header _

/-- SEND of a frame that a name stands for. -/
theorem decodeRequest_send_name {names : List (List Byte × List Byte)} {n f : List Byte} (hn : Machine.isName n)
    (hf : lookupName names n = some f) (hl : f.length = TX_LEN) :
    decodeRequest names (kwSend ++ ascii [' '] ++ n) = .ok ⟨none, .send f⟩ := by
  obtain ⟨hne, hall, -⟩ := id hn
  have hp : LineParses names (kwSend ++ ascii [' '] ++ n) (.send f) :=
    ⟨kwSend, [.word n], tokens_send_word n hall hne, by simp, (parseOperation_send_name names n).1 f hf⟩
  exact hp.decodeRequest (decide_eq_true hl) (lineReads_send_word hn).1

/-- SEND of an ENC-family line in parentheses. -/
theorem decodeRequest_send_parenthesised {names : List (List Byte × List Byte)} {line f : List Byte} {i : Instr}
    (hl : line.head? ≠ some HDR) (hc : 0x3B ∉ line) (h : decodeRequest names line = .ok ⟨none, i⟩)
    (hf : i.frame? = some f) :
    decodeRequest names (kwSend ++ ascii [' ', '('] ++ line ++ ascii [')']) = .ok ⟨none, .send f⟩ := by
  obtain ⟨m, rest, ht, hp, -⟩ := decodeRequest_unnamed names line i hl h
  have hx := parseTx_parenthesised names m rest i f (parseOperation_frame names m rest i f hp hf) hf
  have hs : LineParses names (kwSend ++ ascii [' ', '('] ++ line ++ ascii [')']) (.send f) :=
    ⟨kwSend, .lparen :: .word m :: (rest ++ [.rparen]), by rw [tokens_send_parenthesised line hc, ht]; rfl, by simp,
      by rw [parseOperation_send, hx]; rfl⟩
  refine hs.decodeRequest (decide_eq_true (Instr.frame?_length hf)) ?_
  rw [List.append_assoc, List.append_assoc]
  exact send_head_ne_header _

/-! ## What the decoders accept -/

/-- A parse that only builds operations accepts no unit. -/
theorem isUnit_of_map_eq_ok {α : Type} {x : Except DecodeError α} {g : α → Instr} {i : Instr}
    (h : x.map g = .ok i) (hg : ∀ a, (g a).isUnit = false) : i.isUnit = false := by
  cases x with
  | error e => cases h
  | ok a =>
    cases h
    exact hg a

theorem parseEncFamily_isUnit {m : List Byte} {rest : List Token} {i : Instr} (h : parseEncFamily m rest = .ok i) :
    i.isUnit = false := by
  unfold parseEncFamily at h
  repeat' (split at h; exact isUnit_of_map_eq_ok h fun _ => rfl)
  cases h

/-- The lines are those of operations, never of inbound units (spec/30_encoding.md R62, R69). -/
theorem parseOperation_isUnit {names : List (List Byte × List Byte)} {m : List Byte} {rest : List Token} {i : Instr}
    (h : parseOperation names m rest = .ok i) : i.isUnit = false := by
  unfold parseOperation at h
  repeat' (split at h; exact isUnit_of_map_eq_ok h fun _ => rfl)
  exact parseEncFamily_isUnit h

theorem parseLine_isUnit {names : List (List Byte × List Byte)} {toks : List Token} {r : Request}
    (h : parseLine names toks = .ok r) : r.op.isUnit = false := by
  unfold parseLine at h
  split at h
  · cases h
  next m rest =>
    cases hx : parseOperation names m rest <;> rw [hx] at h <;> cases h
    exact parseOperation_isUnit hx
  next m rest _ =>
    cases hx : parseOperation names m rest <;> rw [hx] at h <;> cases h
    exact parseOperation_isUnit hx
  · cases h

/-- The boundary check lets through what it is given, if well-formed (R67). -/
theorem checkRequest_eq_ok {r r' : Request} (h : checkRequest r = .ok r') : r' = r ∧ r.op.wf = true := by
  unfold checkRequest at h
  split at h
  next hw =>
    cases h
    exact ⟨rfl, hw⟩
  · cases h

theorem decodeLine_operation {names : List (List Byte × List Byte)} {line : List Byte} {r : Request}
    (h : decodeLine names line = .ok r) : r.op.wf = true ∧ r.op.isUnit = false := by
  unfold decodeLine at h
  split at h
  · cases h
  next r' hr =>
    obtain ⟨rfl, hw⟩ := checkRequest_eq_ok h
    exact ⟨hw, parseLine_isUnit hr⟩

/-! ## Words -/

theorem decodeWord_of_length_ne {t : List Byte} (h : t.length ≠ TX_LEN) : decodeWord t = .error .notAFrame := by
  simp only [decodeWord, h, ne_eq, not_false_eq_true, if_true]

theorem decodeWord_frame (op param : Byte) (m : Mode) :
    decodeWord (frame op m.byte param) = .ok (.enc op m param) := by
  simp only [decodeWord, frame_length, ne_eq, not_true_eq_false, if_false, decodeTxf_frame]

/-- 19 bytes that are no frame are the operand of a SEND (log 8). -/
theorem decodeWord_of_no_frame {t : List Byte} (hl : t.length = TX_LEN)
    (h : ∀ (op param : Byte) (m : Mode), t ≠ frame op m.byte param) : decodeWord t = .ok (.send t) := by
  unfold decodeWord
  rw [if_neg (not_not.mpr hl)]
  split
  next i hi =>
    obtain ⟨op, m, param, -, ht⟩ := decodeTxf_ok t i hi
    exact absurd ht (h op param m)
  · rfl

/-- What a word is read as. -/
theorem decodeWord_cases {t : List Byte} {i : Instr} (h : decodeWord t = .ok i) :
    (∃ op m param, i = .enc op m param ∧ t = frame op (Mode.byte m) param) ∨
    (i = .send t ∧ t.length = TX_LEN ∧ ∀ op m param, t ≠ frame op (Mode.byte m) param) := by
  by_cases hl : t.length = TX_LEN
  · by_cases hf : ∃ op m param, t = frame op (Mode.byte m) param
    · obtain ⟨op, m, param, rfl⟩ := hf
      cases (decodeWord_frame op param m).symm.trans h
      exact .inl ⟨op, m, param, rfl, rfl⟩
    · have hn : ∀ op m param, t ≠ frame op (Mode.byte m) param := fun op m param e => hf ⟨op, m, param, e⟩
      cases (decodeWord_of_no_frame hl fun op param m => hn op m param).symm.trans h
      exact .inr ⟨rfl, hl, hn⟩
  · cases (decodeWord_of_length_ne hl).symm.trans h

theorem decodeWord_operation {t : List Byte} {i : Instr} (h : decodeWord t = .ok i) :
    i.wf = true ∧ i.isUnit = false := by
  rcases decodeWord_cases h with ⟨op, m, param, rfl, -⟩ | ⟨rfl, hl, -⟩
  · exact ⟨rfl, rfl⟩
  · exact ⟨decide_eq_true hl, rfl⟩

/-- Offset 17 of a frame is the sum of the bytes between the second header byte and it: the ten reserved bytes are zero
(spec/41_checksum.md R86). -/
theorem frame_getD_17 (op mb param : Byte) :
    (frame op mb param).getD 17 0 = checksum (((frame op mb param).drop 2).take 15) := by
  simp [frame_eq, checksum, byteSum]

/-! ## Inbound units -/

theorem decodeUnit_encode {i : Instr} (hu : i.isUnit = true) (hw : i.wf = true) : decodeUnit (encode i) = .ok i := by
  cases i with
  | rxfMeas pay => exact Machine.decodeUnit_meas pay (of_decide_eq_true hw)
  | rxfAck pay => exact Machine.decodeUnit_ack pay (of_decide_eq_true hw)
  | rxfFalsePos k =>
    cases k with
    | none => exact Machine.decodeUnit_header
    | some k =>
      obtain ⟨hm, ha⟩ := of_decide_eq_true hw
      exact Machine.decodeUnit_falsePos k hm ha
  | rxNoise b => exact Machine.decodeUnit_noise b (of_decide_eq_true hw)
  | _ => cases hu

/-- Two bytes or more are a unit only where the first is the header, and then of the class the second gives (R50). -/
theorem decodeUnit_two_cases {b k : Byte} {pay : List Byte} {i : Instr} (h : decodeUnit (b :: k :: pay) = .ok i) :
    b = HDR ∧ ((i = .rxfMeas pay ∧ k = CMD_MEAS ∧ pay.length = RX_PAYLOAD_LEN) ∨
      (i = .rxfAck pay ∧ k = CMD_ACK ∧ pay.length = RX_PAYLOAD_LEN) ∨
      (i = .rxfFalsePos (some k) ∧ (k ≠ CMD_MEAS ∧ k ≠ CMD_ACK) ∧ pay = [])) := by
  simp only [decodeUnit] at h
  split at h
  next hb =>
    refine ⟨hb, ?_⟩
    split at h
    next hm =>
      split at h
      next hl =>
        cases h
        exact .inl ⟨rfl, hm, hl⟩
      · cases h
    next hm =>
      split at h
      next ha =>
        split at h
        next hl =>
          cases h
          exact .inr (.inl ⟨rfl, ha, hl⟩)
        · cases h
      next ha =>
        split at h
        next hp =>
          cases h
          exact .inr (.inr ⟨rfl, ⟨hm, ha⟩, hp⟩)
        · cases h
  · cases h

theorem decodeUnit_one_cases {b : Byte} {i : Instr} (h : decodeUnit [b] = .ok i) :
    (b = HDR ∧ i = .rxfFalsePos none) ∨ (b ≠ HDR ∧ i = .rxNoise b) := by
  simp only [decodeUnit] at h
  split at h
  next hb =>
    cases h
    exact .inl ⟨hb, rfl⟩
  next hb =>
    cases h
    exact .inr ⟨hb, rfl⟩

/-- Bytes that decode are those of a well-formed unit. -/
theorem encode_of_decodeUnit {bs : List Byte} {i : Instr} (h : decodeUnit bs = .ok i) :
    i.isUnit = true ∧ i.wf = true ∧ encode i = bs := by
  match bs with
  | [] => cases h
  | [b] =>
    rcases decodeUnit_one_cases h with ⟨rfl, rfl⟩ | ⟨hb, rfl⟩
    · exact ⟨rfl, rfl, rfl⟩
    · exact ⟨rfl, decide_eq_true hb, rfl⟩
  | b :: k :: pay =>
    obtain ⟨rfl, ⟨rfl, rfl, hl⟩ | ⟨rfl, rfl, hl⟩ | ⟨rfl, hk, rfl⟩⟩ := decodeUnit_two_cases h
    · exact ⟨rfl, decide_eq_true hl, rfl⟩
    · exact ⟨rfl, decide_eq_true hl, rfl⟩
    · exact ⟨rfl, decide_eq_true hk, rfl⟩

/-! ## The obligations -/

/-- Settles O11: a line decodes to the operation its mnemonic and operands parse to; a name in front, and the forms of SEND's
operand, change the tokens before the operands only. -/
theorem operationLinesRoundTrip : Obligations.OperationLinesRoundTrip := by
  unfold Obligations.OperationLinesRoundTrip
  refine ⟨fun names i hu hw => decodeRequest_encode names hu hw,
    fun names n line i hn hl h => decodeRequest_named hn hl h,
    fun names n hn => ⟨fun f hf hl => decodeRequest_send_name hn hf hl, fun f hf hl => ?_, fun hf => ?_,
      fun f => by rw [lookupName_cons, if_pos rfl], fun m f hm => by rw [lookupName_cons, if_neg hm]⟩,
    fun names line f i hl hc h hf => decodeRequest_send_parenthesised hl hc h hf, fun names i f hf => ?_⟩
  · exact (decodeRequest_lineReads names _ _ _ (lineReads_send_word hn) (by simp)).2 _
      ((parseOperation_send_name names n).1 f hf) (decide_eq_false hl)
  · exact (decodeRequest_lineReads names _ _ _ (lineReads_send_word hn) (by simp)).1 _
      ((parseOperation_send_name names n).2 hf)
  · obtain ⟨hu, hw⟩ := Instr.isUnit_wf_of_frame? hf
    exact decodeRequest_send_parenthesised (encode_head_ne_header hu hw) (semicolon_notMem_encode hf)
      (decodeRequest_encode names hu hw) hf

/-- Settles O12: the bytes of a class decode to it, and bytes that decode have the length and the first bytes of their
class. -/
theorem unitsRoundTripBothWays : Obligations.UnitsRoundTripBothWays := by
  unfold Obligations.UnitsRoundTripBothWays
  exact ⟨fun i hu hw => decodeUnit_encode hu hw, fun bs i h => encode_of_decodeUnit h⟩

/-- Settles O13: a word is a frame, or 19 other bytes, or of another length. -/
theorem framePatternIsEnc : Obligations.FramePatternIsEnc := by
  unfold Obligations.FramePatternIsEnc
  refine ⟨decodeWord_frame, fun t hl h => decodeWord_of_no_frame hl h, fun t hl => decodeWord_of_length_ne hl,
    fun t i h => ?_⟩
  rcases decodeWord_cases h with ⟨op, m, param, rfl, rfl⟩ | hs
  · exact .inl ⟨op, m, param, rfl, rfl, frame_getD_17 op m.byte param⟩
  · exact .inr hs

/-- Settles O14: a word is an ENC or a SEND of 19 bytes, and a line passes the boundary check. -/
theorem decodedRequestsAreOperations : Obligations.DecodedRequestsAreOperations := by
  unfold Obligations.DecodedRequestsAreOperations
  intro names bs r h
  unfold decodeRequest at h
  split at h
  · cases hx : decodeWord bs <;> rw [hx] at h <;> cases h
    exact decodeWord_operation hx
  · exact decodeLine_operation h

/-- Settles O10: each word is written out, so its decoding is evaluated; the frame is that of ENC 0x08, SET, 5. -/
theorem specWordsDecode : Obligations.SpecWordsDecode := by
  unfold Obligations.SpecWordsDecode
  exact ⟨rfl, rfl, decodeTxf_frame 0x08 0x05 .set, Machine.decodeUnit_meas _ rfl, Machine.decodeUnit_ack _ rfl,
    Machine.decodeUnit_falsePos 0x99 (by decide) (by decide), Machine.decodeUnit_noise 0x01 (by decide)⟩

end Sys2Proof
end

section
/-! The step in IDLE (spec/30_encoding.md R62, R67, R69): it runs what the request decodes to and refuses what does not
decode; and the operands, lines and moments that are refused (R67; spec/60_exceptions.md R131). -/

namespace Sys2Proof.Machine

/-! ## The step in IDLE -/

/-- A request that decodes is run on the state without it. -/
theorem step_of_decode_ok {s : State} {bs : List Byte} {rest : List (List Byte)} {r : Request}
    (h0 : s.resetPending = false) (hp : s.phase = .idle) (hr : s.requests = bs :: rest)
    (hd : decodeRequest s.names bs = .ok r) : step s = bindResult r (exec r.op { s with requests := rest }) := by
  rw [step_idle s h0 hp, idleStep, hr]
  simp only [hd]

/-- A request that does not decode is refused with its reason. -/
theorem step_of_decode_error {s : State} {bs : List Byte} {rest : List (List Byte)} {e : DecodeError}
    (h0 : s.resetPending = false) (hp : s.phase = .idle) (hr : s.requests = bs :: rest)
    (hd : decodeRequest s.names bs = .error e) : step s = .refused (.undecodable e) := by
  rw [step_idle s h0 hp, idleStep, hr]
  simp only [hd]

/-- With no request the block waits. -/
theorem step_of_no_request {s : State} (h0 : s.resetPending = false) (hp : s.phase = .idle) (hr : s.requests = []) :
    step s = .next s := by
  rw [step_idle s h0 hp, idleStep, hr]

/-! ## Names of results (log 7) -/

theorem State.bindName_of_unnamed {r : Request} (h : r.name = none) (s : State) : s.bindName r = s := by
  simp only [State.bindName, h]

theorem State.bindName_of_no_frame {r : Request} (h : r.op.frame? = none) (s : State) : s.bindName r = s := by
  unfold State.bindName
  split
  next hf => cases h.symm.trans hf
  · rfl

theorem State.bindName_of_frame {r : Request} {n f : List Byte} (hn : r.name = some n) (hf : r.op.frame? = some f)
    (s : State) : s.bindName r = { s with names := (n, f) :: s.names } := by
  simp only [State.bindName, hn, hf]

/-- Where a request binds no name, its result is that of its operation. -/
theorem bindResult_eq_self {r : Request} (h : ∀ s : State, s.bindName r = s) (x : Result) : bindResult r x = x := by
  cases x with
  | next t => exact congrArg Host.Outcome.next (h t)
  | fault f => rfl
  | refused e => rfl

/-! ## Parses that fail -/

/-- A parse fails where it can have no value. -/
theorem exists_error_of_ne_ok {α : Type} {x : Except DecodeError α} (h : ∀ a, x ≠ .ok a) : ∃ e, x = .error e := by
  cases x with
  | error e => exact ⟨e, rfl⟩
  | ok a => exact absurd rfl (h a)

theorem map_error_of_error {α β : Type} {x : Except DecodeError α} {g : α → β} (h : ∃ e, x = .error e) :
    ∃ e, x.map g = .error e := by
  obtain ⟨e, rfl⟩ := h
  exact ⟨e, rfl⟩

theorem parseByte_ne_ok_of_wide {w : List Byte} (h : wideLiteral w) (b : Byte) : parseByte w ≠ .ok b := by
  obtain ⟨n, hn, hw⟩ := h
  simp [parseByte_wide w n hn hw]

/-- Three operands that parse have parsed each. -/
theorem parseEncOperands_eq_ok {u v w : List Byte} {a : Byte × Mode × Byte}
    (h : parseEncOperands [.word u, .comma, .word v, .comma, .word w] = .ok a) :
    parseByte u = .ok a.1 ∧ parseMode v = .ok a.2.1 ∧ parseByte w = .ok a.2.2 := by
  simp only [parseEncOperands] at h
  split at h
  next hu hv hw =>
    cases h
    exact ⟨hu, hv, hw⟩
  all_goals cases h

theorem parseKindOperands_eq_ok {u v w : List Byte} {a : CommandKind × Mode × Byte}
    (h : parseKindOperands [.word u, .comma, .word v, .comma, .word w] = .ok a) :
    parseKind u = .ok a.1 ∧ parseMode v = .ok a.2.1 ∧ parseByte w = .ok a.2.2 := by
  simp only [parseKindOperands] at h
  split at h
  next hu hv hw =>
    cases h
    exact ⟨hu, hv, hw⟩
  all_goals cases h

/-- A mode word that is no mode, or a wide literal among three operands, leaves them no value. -/
theorem parseEncOperands_error {operands : List Token} (h : tripleOutsideWidth operands) :
    ∃ e, parseEncOperands operands = .error e := by
  obtain ⟨first, mode, param, rfl, hw⟩ := h
  refine exists_error_of_ne_ok fun a ha => ?_
  obtain ⟨hf, hm, hp⟩ := parseEncOperands_eq_ok ha
  rcases hw with ⟨hs, hg⟩ | hw | hw
  · cases (parseMode_other mode hs hg).symm.trans hm
  · exact parseByte_ne_ok_of_wide hw _ hf
  · exact parseByte_ne_ok_of_wide hw _ hp

theorem parseKindOperands_error {operands : List Token} (h : tripleOutsideWidth operands) :
    ∃ e, parseKindOperands operands = .error e := by
  obtain ⟨first, mode, param, rfl, hw⟩ := h
  refine exists_error_of_ne_ok fun a ha => ?_
  obtain ⟨hf, hm, hp⟩ := parseKindOperands_eq_ok ha
  rcases hw with ⟨hs, hg⟩ | ⟨n, hn, -⟩ | hw
  · cases (parseMode_other mode hs hg).symm.trans hm
  · cases (parseKind_literal first n hn).symm.trans hf
  · exact parseByte_ne_ok_of_wide hw _ hp

/-- So an ENC-family mnemonic with such operands parses to nothing. -/
theorem parseEncFamily_error {m : List Byte} {operands : List Token} (h : encOutsideWidth m operands) :
    ∃ e, parseEncFamily m operands = .error e := by
  rcases h with ⟨rfl | rfl, ht⟩ | ⟨rfl, w, rfl, hw⟩
  · exact map_error_of_error (parseEncOperands_error ht)
  · exact map_error_of_error (parseKindOperands_error ht)
  · exact map_error_of_error (exists_error_of_ne_ok (parseByte_ne_ok_of_wide hw))

/-- An ENC-family mnemonic is parsed as such, whatever names are known. -/
theorem parseOperation_of_encOutsideWidth {names : List (List Byte × List Byte)} {m : List Byte} {operands : List Token}
    (h : encOutsideWidth m operands) : parseOperation names m operands = parseEncFamily m operands := by
  rcases h with ⟨rfl | rfl, -⟩ | ⟨rfl, -⟩ <;> rfl

/-- What reads as a list begins with its bracket, and is read by its elements, each after a comma. -/
theorem parseList_eq_ok {elements : List Token} {bs : List Byte} (h : parseList (.lbracket :: elements) = .ok bs)
    {w : List Byte} (hm : .word w ∈ elements) : parseListTail (.comma :: elements) = .ok bs := by
  unfold parseList at h
  split at h
  next he =>
    cases he
    simp at hm
  next he =>
    cases he
    exact h
  · cases h

/-- A list with a wide literal among its elements does not parse. -/
theorem parseList_error {elements : List Token} {w : List Byte} (hm : .word w ∈ elements) (hw : wideLiteral w) :
    ∃ e, parseList (.lbracket :: elements) = .error e := by
  refine exists_error_of_ne_ok fun bs h => ?_
  obtain ⟨b, hb⟩ := parseListTail_words _ bs (parseList_eq_ok h hm) w (.tail _ hm)
  exact parseByte_ne_ok_of_wide hw b hb

theorem parseTx_bracket (names : List (List Byte × List Byte)) (elements : List Token) :
    parseTx names (.lbracket :: elements) = parseList (.lbracket :: elements) := by
  simp [parseTx]

/-- SEND of parenthesised operands that do not parse does not parse. -/
theorem parseTx_parenthesised_error (names : List (List Byte × List Byte)) {m : List Byte} {inner : List Token}
    (h : ∃ e, parseEncFamily m inner = .error e) :
    ∃ e, parseTx names (.lparen :: .word m :: (inner ++ [.rparen])) = .error e := by
  obtain ⟨e, he⟩ := h
  exact ⟨e, by simp [parseTx, he]⟩

/-- A line with a mode or a byte outside its type parses to no operation, whichever mnemonic it has. -/
theorem parseOperation_error_of_outsideWidth (names : List (List Byte × List Byte)) {m : List Byte}
    {operands : List Token} (h : operandOutsideWidth m operands) : ∃ e, parseOperation names m operands = .error e := by
  rcases h with he | ⟨rfl, ht⟩ | ⟨hm, elements, w, rfl, hw, hwide⟩ | ⟨rfl, m, inner, rfl, he⟩
  · exact parseOperation_of_encOutsideWidth he ▸ parseEncFamily_error he
  · exact map_error_of_error (parseEncOperands_error ht)
  · have hl := parseList_error hw hwide
    rcases hm with rfl | rfl | rfl
    · exact map_error_of_error hl
    · exact map_error_of_error hl
    · exact map_error_of_error (parseTx_bracket names elements ▸ hl)
  · exact map_error_of_error (parseTx_parenthesised_error names (parseEncFamily_error he))

/-- No such operands begin with an equals sign, which would make the mnemonic a name. -/
theorem outsideWidth_ne_equals {m : List Byte} {operands : List Token} (h : operandOutsideWidth m operands)
    (r : List Token) : operands ≠ .equals :: r := by
  rcases h with (⟨-, _, _, _, rfl, -⟩ | ⟨-, _, rfl, -⟩) | ⟨-, _, _, _, rfl, -⟩ | ⟨-, _, _, rfl, -⟩ | ⟨-, _, _, rfl, -⟩ <;>
    simp

/-! ## Operands outside their type -/

/-- A word that is no Budget makes SCAN and READ.MEAS fail with that reason. -/
theorem parseOperation_of_budgetOutsideType (names : List (List Byte × List Byte)) {m : List Byte}
    {operands : List Token} (h : budgetOutsideType m operands) :
    (∀ r, operands ≠ .equals :: r) ∧ parseOperation names m operands = .error .notABudget := by
  obtain ⟨hm, w, rfl, hu, hl⟩ := h
  have hb : parseScanOperand [.word w] = .error .notABudget := by
    simp only [parseScanOperand, parseBudget, hu, if_false, hl]
  refine ⟨by simp, ?_⟩
  rcases hm with rfl | rfl
  · rw [parseOperation_scan, hb]
    rfl
  · rw [parseOperation_readMeas, hb]
    rfl

/-- What reads as a list begins with its bracket. -/
theorem parseList_head {operands : List Token} {bs : List Byte} (h : parseList operands = .ok bs) :
    ∃ elements, operands = .lbracket :: elements := by
  unfold parseList at h
  split at h
  · exact ⟨_, rfl⟩
  · exact ⟨_, rfl⟩
  · cases h

/-- A list of the wrong length makes an ill-formed SEND or CSUM.RX. -/
theorem parseOperation_of_lengthOutsideType (names : List (List Byte × List Byte)) {m : List Byte}
    {operands : List Token} (h : lengthOutsideType m operands) :
    (∀ r, operands ≠ .equals :: r) ∧ ∃ i, parseOperation names m operands = .ok i ∧ i.wf = false := by
  obtain ⟨bs, hb, hm⟩ := h
  obtain ⟨elements, rfl⟩ := parseList_head hb
  refine ⟨by simp, ?_⟩
  rcases hm with ⟨rfl, hl⟩ | ⟨rfl, hl⟩
  · exact ⟨.send bs, by rw [parseOperation_send, parseTx_bracket, hb]; rfl, decide_eq_false hl⟩
  · exact ⟨.csumRx bs, by rw [parseOperation_csumRx, hb]; rfl, decide_eq_false hl⟩

theorem beginCall_ill_formed {b : Budget} (h : b.wf = false) (s : State) :
    beginCall b s = .refused .operandOutsideType := by
  rw [beginCall, if_pos h]

theorem inPayload_of_length_ne {pay : List Byte} (h : pay.length ≠ RX_PAYLOAD_LEN) (k : Byte) (s : State) (run : Result) :
    inPayload k pay s run = .refused .operandOutsideType := by
  rw [inPayload, if_pos h]

/-- An operand outside its type is refused before anything else is looked at (R67; log 9). -/
theorem exec_ill_formed {i : Instr} (h : i.wf = false) (s : State) : exec i s = .refused .operandOutsideType := by
  cases i with
  | send tx => exact if_pos (of_decide_eq_false h)
  | csumRx pay => exact if_pos (of_decide_eq_false h)
  | scan b => exact beginCall_ill_formed h s
  | readMeas b => exact beginCall_ill_formed h s
  | rxfMeas pay => exact inPayload_of_length_ne (of_decide_eq_false h) _ s _
  | rxfAck pay => exact inPayload_of_length_ne (of_decide_eq_false h) _ s _
  | rxfFalsePos k =>
    cases k with
    | none => cases h
    | some k =>
      have hk : k = CMD_MEAS ∨ k = CMD_ACK := by
        by_contra hn
        exact of_decide_eq_false h ⟨fun e => hn (.inl e), fun e => hn (.inr e)⟩
      exact if_pos (hk.imp (congrArg some) (congrArg some))
  | rxNoise b => exact if_pos (not_not.mp (of_decide_eq_false h))
  | _ => cases h

/-! ## Moments outside an instruction's rule (log 9) -/

theorem exec_rxNoise_outside {b : Byte} {s : State} (hb : b ≠ HDR) (hp : s.phase ≠ .hunt) :
    exec (.rxNoise b) s = .refused .outsideItsStep :=
  (if_neg hb).trans (if_pos hp)

theorem exec_rxfFalsePos_outside {k : Option Byte} {s : State} (hm : k ≠ some CMD_MEAS) (ha : k ≠ some CMD_ACK)
    (hp : s.phase ≠ .cmdWait) : exec (.rxfFalsePos k) s = .refused .outsideItsStep :=
  (if_neg (not_or.mpr ⟨hm, ha⟩)).trans (if_pos hp)

theorem inPayload_outside_phase {pay : List Byte} {s : State} (hl : pay.length = RX_PAYLOAD_LEN) (hp : s.phase ≠ .payload)
    (k : Byte) (run : Result) : inPayload k pay s run = .refused .outsideItsStep :=
  (if_neg (not_not.mpr hl)).trans (if_pos hp)

theorem inPayload_other_command {pay : List Byte} {s : State} {c k : Byte} (hl : pay.length = RX_PAYLOAD_LEN)
    (hp : s.phase = .payload) (hc : s.cmd = some c) (hk : c ≠ k) (run : Result) :
    inPayload k pay s run = .refused .outsideItsStep := by
  simp only [inPayload, hl, hp, hc, hk, ne_eq, not_true_eq_false, if_false]

/-! ## The obligations -/

/-- Settles O1: the reset state is written out, and IDLE with no request waits. -/
theorem resetStateWaitsInIdle : Obligations.ResetStateWaitsInIdle := by
  unfold Obligations.ResetStateWaitsInIdle
  exact ⟨rfl, rfl, rfl, rfl, rfl, rfl, rfl, rfl, fun s h0 hp hr => step_of_no_request h0 hp hr⟩

/-- Settles O2: a step with a reset pending is `State.blockReset`, field by field. -/
theorem blockResetAbandonsCall : Obligations.BlockResetAbandonsCall := by
  unfold Obligations.BlockResetAbandonsCall
  exact fun s h => ⟨s.blockReset, step_reset s h, ⟨rfl, rfl, rfl, rfl, rfl, rfl, rfl⟩, rfl,
    ⟨rfl, rfl, rfl, rfl, rfl, rfl, rfl, rfl⟩, rfl, rfl, rfl⟩

/-- Settles O8: by whether the request decodes, and then by whether its result is a frame with a name. -/
theorem decodedOperationRuns : Obligations.DecodedOperationRuns := by
  unfold Obligations.DecodedOperationRuns
  intro s bs rest h0 hp hr
  refine ⟨fun r hd => ?_, fun e hd => step_of_decode_error h0 hp hr hd⟩
  have hs := step_of_decode_ok h0 hp hr hd
  refine ⟨hs, fun hn => ?_, fun hf => ?_, fun n f hn hf => ?_⟩
  · rw [hs, bindResult_eq_self (State.bindName_of_unnamed hn)]
  · rw [hs, bindResult_eq_self (State.bindName_of_no_frame hf)]
  · rw [hs, exec_frame r.op f { s with requests := rest } hf hp, bindResult, State.bindName_of_frame hn hf]
    rfl

/-- Settles O30: each ill-formed operand by its own check, and each line by the operand that its mnemonic parses. -/
theorem operandOutsideTypeRefused : Obligations.OperandOutsideTypeRefused := by
  unfold Obligations.OperandOutsideTypeRefused
  refine ⟨fun i s h => exec_ill_formed h s, fun s line rest m operands h0 hp hr hline => ⟨fun hb => ?_, fun hl => ?_⟩⟩
  · obtain ⟨hne, he⟩ := parseOperation_of_budgetOutsideType s.names hb
    have hd := (decodeRequest_lineReads s.names line m operands hline hne).1 _ he
    exact ⟨hd, step_of_decode_error h0 hp hr hd⟩
  · obtain ⟨hne, i, hi, hw⟩ := parseOperation_of_lengthOutsideType s.names hl
    have hd := (decodeRequest_lineReads s.names line m operands hline hne).2 i hi hw
    exact ⟨hd, step_of_decode_error h0 hp hr hd⟩

/-- Settles O31: every operation starts through the one check that no call is in progress. -/
theorem secondCallRefused : Obligations.SecondCallRefused := by
  unfold Obligations.SecondCallRefused
  exact exec_busy

/-- Settles O32: each unit checks the phase, and in PAYLOAD the command byte, before it runs. -/
theorem unitOutsideItsStepRefused : Obligations.UnitOutsideItsStepRefused := by
  unfold Obligations.UnitOutsideItsStepRefused
  exact ⟨fun b s hb hp => exec_rxNoise_outside hb hp, fun k s hm ha hp => exec_rxfFalsePos_outside hm ha hp,
    fun pay s hl hp => ⟨inPayload_outside_phase hl hp CMD_MEAS _, inPayload_outside_phase hl hp CMD_ACK _⟩,
    fun pay c s hl hp hc =>
      ⟨fun hk => inPayload_other_command hl hp hc hk _, fun hk => inPayload_other_command hl hp hc hk _⟩⟩

end Sys2Proof.Machine
end

section
/-! Results that are functions of the operands: the checksum's laws (spec/41_checksum.md R83-R87) and the frames of the ENC
family (spec/40_encoder.md R73-R77). -/

namespace Sys2Proof

/-! ## The byte sum -/

theorem byteSum_eq_sum (bs : List Byte) : byteSum bs = (bs.map BitVec.toNat).sum := by
  induction bs with
  | nil => rfl
  | cons b bs ih => simp [byteSum, ih]

theorem byteSum_append (s t : List Byte) : byteSum (s ++ t) = byteSum s + byteSum t := by
  simp [byteSum_eq_sum]

theorem byteSum_perm {s t : List Byte} (h : s.Perm t) : byteSum s = byteSum t := by
  rw [byteSum_eq_sum, byteSum_eq_sum, (h.map BitVec.toNat).sum_eq]

theorem byteSum_insert_zero (s t : List Byte) : byteSum (s ++ 0 :: t) = byteSum (s ++ t) := by
  simp [byteSum_append, byteSum]

theorem byteSum_replicate_zero (n : Nat) : byteSum (List.replicate n 0) = 0 := by
  simp [byteSum_eq_sum]

/-! ## The checksum (R87) -/

theorem checksum_eq_of_byteSum_eq {s t : List Byte} (h : byteSum s = byteSum t) : checksum s = checksum t := by
  rw [checksum, h, checksum]

theorem checksum_append (s t : List Byte) : checksum (s ++ t) = checksum s + checksum t := by
  apply BitVec.eq_of_toNat_eq
  simp [byteSum_append, Nat.add_mod]

/-- A byte among zero bytes is its own checksum. -/
theorem checksum_cons_zeros (b : Byte) (n : Nat) : checksum (b :: List.replicate n 0) = b := by
  apply BitVec.eq_of_toNat_eq
  rw [checksum_toNat, byteSum, byteSum_replicate_zero]
  exact Nat.mod_eq_of_lt b.isLt

/-- The checksum of a frame, as a sum of naturals reduced once. -/
theorem checksumTx_eq_ofNat (op mb param : Byte) :
    checksumTx op mb param = BitVec.ofNat 8 (op.toNat + mb.toNat + param.toNat + 255 + 255) := by
  apply BitVec.eq_of_toNat_eq
  rw [checksumTx_toNat, BitVec.toNat_ofNat]

/-- The two sentinels add 254 modulo 256 (R84). -/
theorem checksumTx_eq_add_254 (op mb param : Byte) :
    checksumTx op mb param = BitVec.ofNat 8 ((op.toNat + mb.toNat + param.toNat + 254) % 256) := by
  apply BitVec.eq_of_toNat_eq
  rw [checksumTx_toNat, BitVec.toNat_ofNat]
  omega

/-- With the opcode and the mode of ENC.DUTY the checksum is the parameter and 7 (spec/40_encoder.md R75). -/
theorem checksumTx_duty (minutes : Byte) : checksumTx OP_DUTY_CYCLE MODE_SET minutes = minutes + 0x07 := by
  apply BitVec.eq_of_toNat_eq
  rw [checksumTx_toNat, BitVec.toNat_add]
  have hop : OP_DUTY_CYCLE.toNat = 8 := rfl
  have hmode : MODE_SET.toNat = 1 := rfl
  have hseven : (0x07 : Byte).toNat = 7 := rfl
  omega

/-- Two parameters give two checksums. -/
theorem checksumTx_param_injective {op mb p q : Byte} (h : checksumTx op mb p = checksumTx op mb q) : p = q := by
  apply BitVec.eq_of_toNat_eq
  have hs := congrArg BitVec.toNat h
  rw [checksumTx_toNat, checksumTx_toNat] at hs
  have hp := p.isLt
  have hq := q.isLt
  omega

/-- Every byte value is the checksum of some operands. -/
theorem exists_checksumTx_eq (b : Byte) : ∃ (op param : Byte) (m : Mode), checksumTx op m.byte param = b := by
  refine ⟨b + 1, 1, .get, BitVec.eq_of_toNat_eq ?_⟩
  have hg : Mode.get.byte.toNat = 0 := rfl
  have hone : (1 : Byte).toNat = 1 := rfl
  have hb := b.isLt
  rw [checksumTx_toNat, BitVec.toNat_add]
  omega

/-- CK_OK of eight bytes compares the seventh with the sum of the first six (R85). -/
theorem ckOk_eight (b0 b1 b2 b3 b4 b5 b6 b7 : Byte) :
    ckOk [b0, b1, b2, b3, b4, b5, b6, b7] =
      decide (b6.toNat = (b0.toNat + b1.toNat + b2.toNat + b3.toNat + b4.toNat + b5.toNat) % 256) := by
  have hs : b6 = checksum [b0, b1, b2, b3, b4, b5] ↔
      b6.toNat = (b0.toNat + b1.toNat + b2.toNat + b3.toNat + b4.toNat + b5.toNat) % 256 := by
    rw [← BitVec.toNat_inj, checksum_toNat]
    simp only [byteSum, Nat.add_zero, Nat.add_assoc]
  exact decide_eq_decide.mpr hs

/-! ## Frames -/

/-- A frame with the checksum at its offset. -/
theorem frame_eq_checksumTx (op mb param : Byte) :
    frame op mb param =
      [0xAA, 0xB4, op, mb, param, 0, 0, 0, 0, 0, 0, 0, 0, 0, 0, 0xFF, 0xFF, checksumTx op mb param, 0xAB] := rfl

/-- Frames of one opcode and mode with two parameters differ at the parameter and at the checksum, and nowhere else. -/
theorem frame_getD_ne_iff {op mb p q : Byte} (h : p ≠ q) {n : Nat} (hn : n < 19) :
    (frame op mb p).getD n 0 ≠ (frame op mb q).getD n 0 ↔ n = 4 ∨ n = 17 := by
  have hc : checksumTx op mb p ≠ checksumTx op mb q := fun e => h (checksumTx_param_injective e)
  rw [frame_eq_checksumTx, frame_eq_checksumTx]
  interval_cases n <;> simp [h, hc]

theorem CommandKind.opcode_eq (k : CommandKind) :
    k.opcode = match k with | .mode => Config.opMode | .dutyCycle => 0x08 | .sleepWake => Config.opSleepWake := by
  cases k <;> rfl

end Sys2Proof

namespace Sys2Proof.Machine

theorem exec_csumRx (pay : List Byte) (hl : pay.length = RX_PAYLOAD_LEN) (s : State) :
    exec (.csumRx pay) s = returnResult (.check (ckOk pay)) s :=
  if_neg (not_not.mpr hl)

/-! ## The obligations -/

/-- Settles O17: the frame of ENC with its checksum written out; a line outside the types of its operands parses to no
operation. -/
theorem encReturnsFrame : Obligations.EncReturnsFrame := by
  unfold Obligations.EncReturnsFrame
  refine ⟨fun op param m s hp => ?_, parseMode_other, fun s line rest m operands h0 hp hr hline hw => ?_⟩
  · rw [exec_frame (.enc op m param) _ s rfl hp, frame_eq_checksumTx, checksumTx_eq_ofNat]
    rfl
  · obtain ⟨e, he⟩ := parseOperation_error_of_outsideWidth s.names hw
    have hd := (decodeRequest_lineReads s.names line m operands hline (outsideWidth_ne_equals hw)).1 e he
    exact ⟨e, hd, step_of_decode_error h0 hp hr hd⟩

/-- Settles O18: each pseudo-operation returns its frame; that of ENC.DUTY is written out with its checksum. -/
theorem encPseudoOperationsReturnFrames : Obligations.EncPseudoOperationsReturnFrames := by
  unfold Obligations.EncPseudoOperationsReturnFrames
  refine ⟨fun k m param s hp => ?_, fun minutes s hp => ?_, fun s hp => exec_frame .encSleep _ s rfl hp,
    fun s hp => exec_frame .encWake _ s rfl hp⟩
  · rw [exec_frame (.encKind k m param) _ s rfl hp, CommandKind.opcode_eq]
    rfl
  · rw [exec_frame (.encDuty minutes) _ s rfl hp, frame_eq_checksumTx, checksumTx_duty]
    rfl

/-- Settles O22: the two frames have one opcode and mode and two parameters. -/
theorem sleepAndWakeFramesDiffer : Obligations.SleepAndWakeFramesDiffer := by
  unfold Obligations.SleepAndWakeFramesDiffer
  intro fs fw hs hw n hn
  cases hs
  cases hw
  exact frame_getD_ne_iff Config.paramSleep_ne_paramWake hn

/-- Settles O26: CSUM returns the checksum, which is the sum of the values reduced once. -/
theorem csumReturnsSum : Obligations.CsumReturnsSum := by
  unfold Obligations.CsumReturnsSum
  intro bs s hp
  rw [exec_csum, returnResult_idle _ s hp, checksum, byteSum_eq_sum]
  rfl

/-- Settles O27: CSUM.TX returns the frame's checksum, which is onto in the opcode alone. -/
theorem csumTxReturnsSum : Obligations.CsumTxReturnsSum := by
  unfold Obligations.CsumTxReturnsSum
  refine ⟨fun op param m s hp => ?_, exists_checksumTx_eq⟩
  rw [exec_csumTx, returnResult_idle _ s hp, checksumTx_eq_add_254]
  rfl

/-- Settles O28: CSUM.RX returns CK_OK, which does not look at the eighth byte. -/
theorem csumRxReturnsFlag : Obligations.CsumRxReturnsFlag := by
  unfold Obligations.CsumRxReturnsFlag
  intro b0 b1 b2 b3 b4 b5 b6 b7 s hp
  rw [exec_csumRx _ rfl, returnResult_idle _ s hp, ckOk_eight]
  rfl

/-- Settles O29: each law is one of the sum over the naturals. -/
theorem csumLaws : Obligations.CsumLaws := by
  unfold Obligations.CsumLaws
  refine ⟨checksum_append, fun s t h => checksum_eq_of_byteSum_eq (byteSum_perm h),
    fun s t => checksum_eq_of_byteSum_eq (byteSum_insert_zero s t), fun n b hn => ?_⟩
  exact ⟨b :: List.replicate (n - 1) 0, by simp; omega, checksum_cons_zeros b (n - 1)⟩

end Sys2Proof.Machine
end

section
/-! SEND and the outbound stream (spec/40_encoder.md R80, R81; spec/20_memory.md R31-R35, R41, R42). -/

namespace Sys2Proof.Machine

/-- SEND of 19 bytes in IDLE makes its one write and returns the answer. -/
theorem exec_send_idle {tx : List Byte} {s : State} (hl : tx.length = TX_LEN) (hp : s.phase = .idle) :
    exec (.send tx) s = .next ((sinkWrite tx s).2.deliver (.sent (sendResult (sinkWrite tx s).1))) :=
  (if_neg (not_not.mpr hl)).trans (startOperation_idle s _ hp)

/-- What SEND returns and places, for each answer of the sink. -/
theorem sinkAnswer_effects (a : SinkAnswer) (tx out : List Byte) (results : List OpResult) :
    (a = .ok ∧ results ++ [.sent (sendResult a)] = results ++ [.sent .ok] ∧ out ++ placedBytes tx a = out ++ tx) ∨
    (∃ (c : Cause) (n : Nat), a = .err c n ∧ results ++ [.sent (sendResult a)] = results ++ [.sent (.err c)] ∧
      out ++ placedBytes tx a = out ++ tx.take n) := by
  cases a with
  | ok => exact .inl ⟨rfl, rfl, rfl⟩
  | err c n => exact .inr ⟨c, n, rfl, rfl, rfl⟩

/-- Whatever the sink answers, some of the first bytes are placed (R42). -/
theorem placedBytes_prefix (tx : List Byte) (a : SinkAnswer) : placedBytes tx a <+: tx := by
  cases a with
  | ok => exact List.prefix_refl tx
  | err c n => exact List.take_prefix n tx

theorem AfterRead.outbound_eq {s u : State} {bs : List Byte} (h : AfterRead s u bs) : u.outbound = s.outbound := by
  obtain ⟨src, rfl⟩ := h.exists_eq
  rfl

theorem AfterAttempt.outbound_eq {u t : State} (h : AfterAttempt u t) : t.outbound = u.outbound := by
  obtain ⟨cl, n, ⟨rfl, -⟩ | ⟨rfl, -⟩⟩ := h <;> rfl

@[simp] theorem evalMeas_outbound (s : State) : (evalMeas s).outbound = s.outbound := by
  rw [evalMeas_eq]

/-- A step leaves the outbound stream, or it runs a SEND of 19 bytes, which adds some of their first bytes. -/
theorem StepTo.outbound_cases {s t : State} (h : StepTo s t) :
    t.outbound = s.outbound ∨
    (s.phase = .idle ∧ ∃ (bs : List Byte) (rest : List (List Byte)) (r : Request) (tx pre : List Byte),
      s.requests = bs :: rest ∧ decodeRequest s.names bs = .ok r ∧ r.op = .send tx ∧ tx.length = 19 ∧ pre <+: tx ∧
      t.outbound = s.outbound ++ pre) := by
  cases h with
  | reset => exact .inl rfl
  | wait => exact .inl rfl
  | operation _ hp bs rest r u ns hr hd hx =>
    rcases exec_idle_cases r.op { s with requests := rest } u hp hx with ⟨_, rfl, -⟩ | ⟨tx, htx, hl, rfl⟩ | ⟨_, -, rfl, -⟩
    · exact .inl rfl
    · exact .inr ⟨hp, bs, rest, r, tx, _, hr, hd, htx, hl, placedBytes_prefix tx _, rfl⟩
    · exact .inl rfl
  | header _ _ u _ hu => exact .inl hu.outbound_eq
  | command _ _ k _ u _ hu => exact .inl hu.outbound_eq
  | stray _ _ _ _ _ u _ _ hu ht => exact .inl (ht.outbound_eq.trans hu.outbound_eq)
  | falsePositive _ _ _ _ _ u _ _ hu ht => exact .inl (ht.outbound_eq.trans hu.outbound_eq)
  | incomplete _ _ _ _ _ _ _ u _ _ hu ht => exact .inl (ht.outbound_eq.trans hu.outbound_eq)
  | measured _ _ _ bs _ u _ hu => exact .inl ((evalMeas_outbound { u with pay := bs }).trans hu.outbound_eq)
  | acknowledged _ _ _ _ _ u _ hu => exact .inl hu.outbound_eq
  | faulted _ _ _ u _ hu => exact .inl hu.outbound_eq
  | returned => exact .inl rfl

/-! ## The obligations -/

/-- Settles O23: the next state is that of the one write with its answer returned. -/
theorem sendCompletes : Obligations.SendCompletes := by
  unfold Obligations.SendCompletes
  intro tx s hl hp
  refine ⟨_, exec_send_idle hl hp, rfl, rfl, rfl, rfl,
    sinkAnswer_effects (s.sink.write s.sinkWrites).1 tx s.outbound s.results, fun ha => ?_,
    ⟨rfl, rfl, rfl, rfl, rfl, rfl, rfl⟩, rfl, rfl, rfl, rfl, rfl, rfl, rfl⟩
  simp [ha, Sink.write, sendResult]

/-- Settles O24: the sink that answers Err after as many bytes as asked for places those. -/
theorem failedSendAdmitsEveryPrefix : Obligations.FailedSendAdmitsEveryPrefix := by
  unfold Obligations.FailedSendAdmitsEveryPrefix
  intro tx pre c s hl hp hpre
  refine ⟨.oracle [.err c pre.length], _, exec_send_idle hl hp, rfl, ?_⟩
  exact congrArg (s.outbound ++ ·) (List.prefix_iff_eq_take.mp hpre).symm

/-- Settles O25: by the ways a step can go on, of which one writes. -/
theorem onlySendWritesOutbound : Obligations.OnlySendWritesOutbound := by
  unfold Obligations.OnlySendWritesOutbound
  exact fun s t h hne => (step_to s t h).outbound_cases.resolve_left hne

end Sys2Proof.Machine
end

section
/-! The steps of a call (spec/42_scanner.md R90-R104): what each phase does with the answer of its read, the end of an
attempt, the evaluation of a measurement, and the errors it reports (spec/60_exceptions.md R111-R114). -/

namespace Sys2Proof

/-! ## Values (spec/20_memory.md R34; spec/30_encoding.md R61) -/

theorem u16le_toNat (lo hi : Byte) : (u16le lo hi).toNat = lo.toNat + 256 * hi.toNat := by
  have hlo := lo.isLt
  have hhi := hi.isLt
  rw [u16le, BitVec.toNat_ofNat]
  omega

/-- The first byte is the low half of a field. -/
theorem u16le_eq_append (lo hi : Byte) : u16le lo hi = hi ++ lo := by
  apply BitVec.eq_of_toNat_eq
  rw [u16le_toNat, BitVec.toNat_append, ← Nat.shiftLeft_add_eq_or_of_lt lo.isLt, Nat.shiftLeft_eq]
  omega

theorem ten_mul_pmExact (raw : U16) : 10 * pmExact raw = (raw.toNat : Rat) := by
  unfold pmExact
  exact mul_div_cancel₀ _ (by norm_num)

theorem statusOf_eq_valid_iff (pay : List Byte) : statusOf pay = .valid ↔ ckOk pay = true ∧ tailOk pay = true := by
  simp [statusOf]

theorem statusOf_eq (pay : List Byte) :
    statusOf pay = if ckOk pay = true ∧ tailOk pay = true then .valid else .invalid := by
  simp [statusOf]

end Sys2Proof

namespace Sys2Proof.Machine

/-! ## The end of an attempt (R96, R97) -/

theorem drawClock_listed {s : State} {b : Bool} {rest : List Bool} (h : s.clock = b :: rest) :
    drawClock s = (b, { s with clock := rest, clockDraws := s.clockDraws + 1 }) := by
  simp only [drawClock, h]

theorem drawClock_free {s : State} (h : s.clock = []) :
    drawClock s = (Config.freeExpired s.clockDraws, { s with clockDraws := s.clockDraws + 1 }) := by
  simp only [drawClock, h]

theorem endAttempt_zero {s : State} (h : s.bud = some .zero) :
    endAttempt s = .next { s with att := s.att + 1, phase := .done, res := some .noFrame } := by
  rw [endAttempt, expired_zero { s with att := s.att + 1, phase := .hunt } h]
  rfl

theorem endAttempt_unlimited {s : State} (h : s.bud = some .unlimited) :
    endAttempt s = .next { s with att := s.att + 1, phase := .hunt } := by
  rw [endAttempt, expired_unlimited { s with att := s.att + 1, phase := .hunt } h]
  rfl

/-- Neither Zero nor Unlimited: the budgets whose check is a draw of the clock, an unwritten BUD among them (log 1). -/
def State.drawsClock (s : State) : Prop := s.bud ≠ some .zero ∧ s.bud ≠ some .unlimited

theorem State.drawsClock_of_finite {s : State} {d : Nat} (h : s.bud = some (.finite d)) : s.drawsClock := by
  simp [State.drawsClock, h]

theorem State.drawsClock_of_unwritten {s : State} (h : s.bud = none) : s.drawsClock := by
  simp [State.drawsClock, h]

/-- The end of an attempt with a listed draw. -/
theorem endAttempt_listed {s : State} {b : Bool} {rest : List Bool} (hd : s.drawsClock) (hc : s.clock = b :: rest) :
    endAttempt s = .next (if b then { s with att := s.att + 1, phase := .done, res := some .noFrame, clock := rest,
                                             clockDraws := s.clockDraws + 1 }
                          else { s with att := s.att + 1, phase := .hunt, clock := rest,
                                        clockDraws := s.clockDraws + 1 }) := by
  rw [endAttempt, expired_draw { s with att := s.att + 1, phase := .hunt } hd.1 hd.2,
    drawClock_listed (s := { s with att := s.att + 1, phase := .hunt }) hc]
  rfl

/-- The end of an attempt with a free draw. -/
theorem endAttempt_free {s : State} (hd : s.drawsClock) (hc : s.clock = []) :
    endAttempt s = .next (if Config.freeExpired s.clockDraws then
                            { s with att := s.att + 1, phase := .done, res := some .noFrame,
                                     clockDraws := s.clockDraws + 1 }
                          else { s with att := s.att + 1, phase := .hunt, clockDraws := s.clockDraws + 1 }) := by
  rw [endAttempt, expired_draw { s with att := s.att + 1, phase := .hunt } hd.1 hd.2,
    drawClock_free (s := { s with att := s.att + 1, phase := .hunt }) hc]
  rfl

/-! ## The errors of a whole measurement payload (R113, R114) -/

/-- The step in PAYLOAD with a whole measurement payload raises the mismatches of the payload and nothing else. -/
theorem stepErrors_of_measurement {s t : State} {bs : List Byte} (hp : s.phase = .payload) (hc : s.cmd = some CMD_MEAS)
    (hr : srcRead RX_PAYLOAD_LEN s = (.bytes bs, t)) (hl : bs.length = RX_PAYLOAD_LEN) :
    stepErrors s = payloadErrors bs := by
  rw [stepErrors_of_scanning (State.scanning_of_payload hp), hp]
  have ha : (srcRead Phase.payload.readSize s).1 = .bytes bs := congrArg Prod.fst hr
  simp only [ha, answerErrors, hl, Nat.lt_irrefl, if_false, hc, if_true]

theorem mem_payloadErrors {pay : List Byte} {e : ErrorClass} (h : e ∈ payloadErrors pay) :
    e = .checksumMismatch ∨ e = .tailMismatch := by
  rcases List.mem_append.mp h with h | h
  · split at h
    · cases h
    · exact .inl (List.mem_singleton.mp h)
  · split at h
    · cases h
    · exact .inr (List.mem_singleton.mp h)

theorem payloadErrors_eq_nil_iff (pay : List Byte) : payloadErrors pay = [] ↔ statusOf pay = .valid := by
  rw [statusOf_eq_valid_iff]
  cases hc : ckOk pay <;> cases ht : tailOk pay <;> simp [payloadErrors, hc, ht]

theorem checksumMismatch_notMem_iff (pay : List Byte) :
    ErrorClass.checksumMismatch ∉ payloadErrors pay ↔ ckOk pay = true := by
  cases hc : ckOk pay <;> cases ht : tailOk pay <;> simp [payloadErrors, hc, ht]

theorem tailMismatch_notMem_iff (pay : List Byte) :
    ErrorClass.tailMismatch ∉ payloadErrors pay ↔ tailOk pay = true := by
  cases hc : ckOk pay <;> cases ht : tailOk pay <;> simp [payloadErrors, hc, ht]

/-- The step in PAYLOAD evaluates a whole measurement payload. -/
theorem step_of_measurement {s t : State} {bs : List Byte} (h0 : s.resetPending = false) (hp : s.phase = .payload)
    (hc : s.cmd = some CMD_MEAS) (hr : srcRead RX_PAYLOAD_LEN s = (.bytes bs, t)) (hl : bs.length = RX_PAYLOAD_LEN) :
    step s = .next (evalMeas { t with pay := bs }) := by
  rw [step_payload s h0 hp]
  rcases payloadStep_cases s _ hp hc (.inl rfl) with
    ⟨bs', t', hr', hl', -, e⟩ | ⟨bs', t', hr', hl', hk, e⟩ | ⟨bs', t', hr', hl', e⟩ | ⟨c, t', hr', e⟩ <;>
    cases hr.symm.trans hr'
  · exact e
  · exact absurd hk (by decide)
  · exact absurd hl hl'.ne

/-! ## Units of a step (log 9) -/

theorem runUnit_of_decode {bs : List Byte} {i : Instr} (h : decodeUnit bs = .ok i) (s : State) :
    runUnit bs s = exec i s := by
  simp only [runUnit, h]

/-- A header and a command byte with another payload than eight bytes are no unit. -/
theorem length_of_decodeUnit_command {k : Byte} {pay : List Byte} {i : Instr} (hk : k = CMD_MEAS ∨ k = CMD_ACK)
    (h : decodeUnit (HDR :: k :: pay) = .ok i) : pay.length = RX_PAYLOAD_LEN := by
  obtain ⟨-, ⟨-, -, hl⟩ | ⟨-, -, hl⟩ | ⟨-, ⟨hm, ha⟩, -⟩⟩ := decodeUnit_two_cases h
  · exact hl
  · exact hl
  · exact (hk.elim hm ha).elim

/-- HUNT runs the unit it has read: a lone byte that is no header. -/
theorem huntStep_of_unit {s t : State} {bs : List Byte} {i : Instr} (hr : srcRead 1 s = (.bytes bs, t)) (hb : bs ≠ [HDR])
    (h : decodeUnit bs = .ok i) : huntStep s = exec i t := by
  rcases srcRead_cases 1 s with ⟨bs', t', hr', hl, -⟩ | ⟨c, t', hr', -⟩ <;> cases hr.symm.trans hr'
  match bs, hl with
  | [], _ => cases h
  | [b], _ =>
    have hne : b ≠ HDR := fun e => hb (congrArg (fun c => [c]) e)
    simp only [huntStep, hr, hne, if_false]
    exact runUnit_of_decode h t

/-- CMDWAIT runs the unit the header begins: a command byte alone is none. -/
theorem cmdWaitStep_of_unit {s t : State} {bs : List Byte} {i : Instr} (hr : srcRead 1 s = (.bytes bs, t))
    (h : decodeUnit (HDR :: bs) = .ok i) : cmdWaitStep s = exec i t := by
  have hb : ¬ (bs = [CMD_MEAS] ∨ bs = [CMD_ACK]) := by
    rintro (rfl | rfl)
    · cases length_of_decodeUnit_command (.inl rfl) h
    · cases length_of_decodeUnit_command (.inr rfl) h
  simp only [cmdWaitStep, hr, hb, if_false]
  exact runUnit_of_decode h t

/-- PAYLOAD runs the unit that the header, the command byte and the payload make. -/
theorem payloadStep_of_unit {s t : State} {k : Byte} {bs : List Byte} {i : Instr} (hc : s.cmd = some k)
    (hk : k = CMD_MEAS ∨ k = CMD_ACK) (hr : srcRead RX_PAYLOAD_LEN s = (.bytes bs, t))
    (h : decodeUnit (HDR :: k :: bs) = .ok i) : payloadStep s = exec i t := by
  have hk' : ¬ (k ≠ CMD_MEAS ∧ k ≠ CMD_ACK) := fun hn => hk.elim hn.1 hn.2
  simp only [payloadStep, hc, hk', if_false, hr, length_of_decodeUnit_command hk h, if_true]
  exact runUnit_of_decode h t

/-! ## The obligations -/

/-- Settles O9: each reading phase runs the unit that its bytes make up. -/
theorem decodedUnitRuns : Obligations.DecodedUnitRuns := by
  unfold Obligations.DecodedUnitRuns
  intro s t bs i h0
  exact ⟨fun hp hr hb h => (step_hunt s h0 hp).trans (huntStep_of_unit hr hb h),
    fun hp hr h => (step_cmdWait s h0 hp).trans (cmdWaitStep_of_unit hr h),
    fun k hp hc hk hr h => (step_payload s h0 hp).trans (payloadStep_of_unit hc hk hr h)⟩

/-- Settles O34: by the answer of the read. -/
theorem huntStepRule : Obligations.HuntStepRule := by
  unfold Obligations.HuntStepRule
  intro s t a h0 hp hr
  rw [step_hunt s h0 hp]
  rcases huntStep_cases s hp with ⟨_, hr', e⟩ | ⟨b, _, hb, hr', e⟩ | ⟨_, hr', e⟩ | ⟨c, _, hr', e⟩ <;>
    cases hr.symm.trans hr'
  · exact .inl ⟨rfl, e⟩
  · exact .inr (.inl ⟨b, hb, rfl, e⟩)
  · exact .inr (.inr (.inl ⟨rfl, e⟩))
  · exact .inr (.inr (.inr ⟨c, rfl, e⟩))

/-- Settles O35: by the answer of the read. -/
theorem cmdWaitStepRule : Obligations.CmdWaitStepRule := by
  unfold Obligations.CmdWaitStepRule
  intro s t a h0 hp hr
  rw [step_cmdWait s h0 hp]
  rcases cmdWaitStep_cases s hp with ⟨k, _, hk, hr', e⟩ | ⟨k, _, hm, ha, hr', e⟩ | ⟨_, hr', e⟩ | ⟨c, _, hr', e⟩ <;>
    cases hr.symm.trans hr'
  · exact .inl ⟨k, hk, rfl, e⟩
  · exact .inr (.inl ⟨k, hm, ha, rfl, e⟩)
  · exact .inr (.inr (.inl ⟨rfl, e⟩))
  · exact .inr (.inr (.inr ⟨c, rfl, e⟩))

/-- Settles O36: by the answer of the read and the command byte. -/
theorem payloadStepRule : Obligations.PayloadStepRule := by
  unfold Obligations.PayloadStepRule
  intro s t a k h0 hp hc hk hr
  rw [step_payload s h0 hp]
  rcases payloadStep_cases s k hp hc hk with
    ⟨bs, _, hr', hl, hk', e⟩ | ⟨bs, _, hr', hl, hk', e⟩ | ⟨bs, _, hr', hl, e⟩ | ⟨c, _, hr', e⟩ <;>
    cases hr.symm.trans hr'
  · exact .inl ⟨bs, rfl, hl, hk', e⟩
  · exact .inr (.inl ⟨bs, rfl, hl, hk', e⟩)
  · exact .inr (.inr (.inl ⟨bs, rfl, hl, e⟩))
  · exact .inr (.inr (.inr ⟨c, rfl, e⟩))

/-- Settles O37: by the budget, and where it draws, by the next listed draw or the free one. -/
theorem attemptEndRule : Obligations.AttemptEndRule := by
  unfold Obligations.AttemptEndRule
  refine fun s => ⟨endAttempt_zero, endAttempt_unlimited, fun hb => ?_⟩
  have hd : s.drawsClock := hb.elim (fun ⟨_, h⟩ => State.drawsClock_of_finite h) State.drawsClock_of_unwritten
  exact ⟨fun rest hc => endAttempt_listed hd hc, fun rest hc => endAttempt_listed hd hc,
    fun hc => ⟨fun hf => (endAttempt_free hd hc).trans (by rw [if_pos hf]),
      fun hf => (endAttempt_free hd hc).trans (by rw [hf]; rfl)⟩⟩

/-- Settles O38: the evaluation, with the fields, the flags and the status of the eight bytes. -/
theorem measurementEvaluation : Obligations.MeasurementEvaluation := by
  unfold Obligations.MeasurementEvaluation
  intro b0 b1 b2 b3 b4 b5 b6 b7 s hp hc ck tl hck htl
  have hck' : ckOk [b0, b1, b2, b3, b4, b5, b6, b7] = ck := (ckOk_eight b0 b1 b2 b3 b4 b5 b6 b7).trans hck.symm
  have htl' : tailOk [b0, b1, b2, b3, b4, b5, b6, b7] = tl := htl.symm
  have h25 : pm25Raw [b0, b1, b2, b3, b4, b5, b6, b7] = b1 ++ b0 := u16le_eq_append b0 b1
  have h10 : pm10Raw [b0, b1, b2, b3, b4, b5, b6, b7] = b3 ++ b2 := u16le_eq_append b2 b3
  rw [exec_rxfMeas _ s rfl hp hc, evalMeas_eq]
  simp only [statusOf_eq_valid_iff]
  simp only [measurementOf, statusOf_eq, hck', htl', h25, h10]
  rfl

/-- Settles O39: no byte of the payload is looked at. -/
theorem acknowledgmentCompletes : Obligations.AcknowledgmentCompletes := by
  unfold Obligations.AcknowledgmentCompletes
  exact exec_rxfAck

/-- Settles O40: both units are the end of the attempt, which moves ATT, PHASE, RES and the clock only. -/
theorem strayBytesEndTheAttempt : Obligations.StrayBytesEndTheAttempt := by
  unfold Obligations.StrayBytesEndTheAttempt
  intro i s hw hi
  have he : exec i s = endAttempt s := by
    rcases hi with ⟨⟨b, rfl⟩, hp⟩ | ⟨⟨k, rfl⟩, hp⟩
    · exact exec_rxNoise b s (of_decide_eq_true hw) hp
    · cases k with
      | none => exact exec_rxfFalsePos none s nofun nofun hp
      | some k =>
        obtain ⟨hm, ha⟩ := of_decide_eq_true hw
        exact exec_rxfFalsePos (some k) s (fun e => hm (Option.some.inj e)) (fun e => ha (Option.some.inj e)) hp
  obtain ⟨cl, n, ⟨e, hb⟩ | ⟨e, hb⟩⟩ := endAttempt_cases s
  · exact ⟨_, he.trans e, rfl, .inl ⟨rfl, rfl⟩, fun h => absurd h hb, fun _ => rfl, rfl, rfl, rfl, rfl, rfl, rfl, rfl, rfl,
      rfl, rfl, rfl, rfl⟩
  · exact ⟨_, he.trans e, rfl, .inr ⟨rfl, rfl⟩, fun _ => rfl, fun h => absurd h hb, rfl, rfl, rfl, rfl, rfl, rfl, rfl, rfl,
      rfl, rfl, rfl, rfl⟩

/-- Settles O43: the mismatches raised are the flags that are down, and those alone decide status and event. -/
theorem mismatchesGiveInvalidMeasurement : Obligations.MismatchesGiveInvalidMeasurement := by
  unfold Obligations.MismatchesGiveInvalidMeasurement
  intro s t bs h0 hp hc hr hl
  have hdiag : t.diag = s.diag := congrArg (fun p => p.2.diag) hr.symm
  rw [stepErrors_of_measurement hp hc hr hl]
  refine ⟨_, measurementOf bs, step_of_measurement h0 hp hc hr hl, rfl, rfl, rfl, rfl, fun e => mem_payloadErrors,
    (payloadErrors_eq_nil_iff bs).symm, fun h => ?_, fun h => ?_⟩
  · rw [evalMeas_eq, ← hdiag]
    exact if_pos ((payloadErrors_eq_nil_iff bs).mp h)
  · rw [evalMeas_eq, ← hdiag]
    simp only [checksumMismatch_notMem_iff, tailMismatch_notMem_iff, Bool.decide_eq_true]
    exact if_neg fun hv => h ((payloadErrors_eq_nil_iff bs).mpr hv)

/-- Settles O44: the table has five rows. -/
theorem errorClassTable : Obligations.ErrorClassTable := by
  unfold Obligations.ErrorClassTable
  refine ⟨rfl, rfl, rfl, rfl, rfl, fun e => ?_, fun e => ?_, fun e => ?_⟩ <;> cases e <;> decide

/-- Settles O59: by the value of a little-endian field. -/
theorem rawFieldsLittleEndian : Obligations.RawFieldsLittleEndian := by
  unfold Obligations.RawFieldsLittleEndian
  intro b0 b1 b2 b3 rest
  exact ⟨u16le_toNat b0 b1, u16le_toNat b2 b3, (ten_mul_pmExact _).trans (congrArg Nat.cast (u16le_toNat b0 b1))⟩

end Sys2Proof.Machine
end

section
/-! What one step moves: PHASE along the scanner's arrows (spec/10_state.md R17), the inbound stream by one read
(spec/20_memory.md R33, R38, R39, R44), and nothing of the caller's during a call (R33; spec/10_state.md R21). -/

namespace Sys2Proof.Machine

/-- `t` has the budget, the streams and the caller's side of `u`, and asks for a reset where `u` does: only registers of the
scanner and the clock may have moved. -/
structure SameOutside (u t : State) : Prop where
  bud : t.bud = u.bud
  source : t.source = u.source
  taken : t.taken = u.taken
  srcReads : t.srcReads = u.srcReads
  sink : t.sink = u.sink
  outbound : t.outbound = u.outbound
  sinkWrites : t.sinkWrites = u.sinkWrites
  requests : t.requests = u.requests
  names : t.names = u.names
  results : t.results = u.results
  resetPending : t.resetPending = u.resetPending

theorem SameOutside.afterAttempt {u t : State} (h : AfterAttempt u t) : SameOutside u t := by
  obtain ⟨cl, n, ⟨rfl, -⟩ | ⟨rfl, -⟩⟩ := h <;> exact ⟨rfl, rfl, rfl, rfl, rfl, rfl, rfl, rfl, rfl, rfl, rfl⟩

theorem SameOutside.evalMeas (s : State) : SameOutside s (evalMeas s) := by
  rw [evalMeas_eq]
  exact ⟨rfl, rfl, rfl, rfl, rfl, rfl, rfl, rfl, rfl, rfl, rfl⟩

theorem SameOutside.emitIncomplete (u : State) (bs : List Byte) (e : DiagEvent) :
    SameOutside u ({ u with pay := bs }.emit e) := ⟨rfl, rfl, rfl, rfl, rfl, rfl, rfl, rfl, rfl, rfl, rfl⟩

theorem SameOutside.trans {u v t : State} (h : SameOutside u v) (h' : SameOutside v t) : SameOutside u t where
  bud := h'.bud.trans h.bud
  source := h'.source.trans h.source
  taken := h'.taken.trans h.taken
  srcReads := h'.srcReads.trans h.srcReads
  sink := h'.sink.trans h.sink
  outbound := h'.outbound.trans h.outbound
  sinkWrites := h'.sinkWrites.trans h.sinkWrites
  requests := h'.requests.trans h.requests
  names := h'.names.trans h.names
  results := h'.results.trans h.results
  resetPending := h'.resetPending.trans h.resetPending

theorem SameOutside.of_registers {u : State} (p : Phase) (cmd : Option Byte) (pay : List Byte) (res : Option FrameResult) :
    SameOutside u { u with phase := p, cmd := cmd, pay := pay, res := res } :=
  ⟨rfl, rfl, rfl, rfl, rfl, rfl, rfl, rfl, rfl, rfl, rfl⟩

/-- After the read of the step's phase. -/
theorem SameOutside.of_read {s u t : State} {p : Phase} {a : SrcAnswer} (hp : s.phase = p)
    (hr : srcRead p.readSize s = (a, u)) (h : SameOutside u t) : SameOutside (srcRead s.phase.readSize s).2 t := by
  rw [hp, hr]
  exact h

/-- The step of a reading phase reads once and then touches nothing outside the scanner; any other step leaves the inbound
stream. -/
theorem StepTo.reads_cases {s t : State} (h : StepTo s t) :
    (s.resetPending = false ∧ s.scanning = true ∧ SameOutside (srcRead s.phase.readSize s).2 t) ∨
    ((s.scanning = false ∨ s.resetPending = true) ∧ t.taken = s.taken ∧ t.source = s.source ∧
      t.srcReads = s.srcReads) := by
  cases h with
  | reset h => exact .inr ⟨.inr h, rfl, rfl, rfl⟩
  | wait _ hp => exact .inr ⟨.inl (Bool.eq_false_iff.mpr (State.not_scanning_of_idle hp)), rfl, rfl, rfl⟩
  | operation _ hp bs rest r u ns _ _ hx =>
    refine .inr ⟨.inl (Bool.eq_false_iff.mpr (State.not_scanning_of_idle hp)), ?_⟩
    rcases exec_idle_cases r.op { s with requests := rest } u hp hx with ⟨_, rfl, -⟩ | ⟨_, -, -, rfl⟩ | ⟨_, -, rfl, -⟩ <;>
      exact ⟨rfl, rfl, rfl⟩
  | header h hp u hr => exact .inl ⟨h, State.scanning_of_hunt hp, .of_read hp hr (.of_registers _ _ _ _)⟩
  | command h hp k _ u hr => exact .inl ⟨h, State.scanning_of_cmdWait hp, .of_read hp hr (.of_registers _ _ _ _)⟩
  | stray h hp _ _ _ u _ hr _ ht => exact .inl ⟨h, State.scanning_of_hunt hp, .of_read hp hr (.afterAttempt ht)⟩
  | falsePositive h hp _ _ _ u _ hr _ ht =>
    exact .inl ⟨h, State.scanning_of_cmdWait hp, .of_read hp hr (.afterAttempt ht)⟩
  | incomplete h hp k _ _ bs _ u _ hr _ ht =>
    exact .inl ⟨h, State.scanning_of_payload hp,
      .of_read hp hr ((SameOutside.emitIncomplete u bs _).trans (.afterAttempt ht))⟩
  | measured h hp _ bs _ u hr =>
    exact .inl ⟨h, State.scanning_of_payload hp, .of_read hp hr (.trans (.of_registers _ _ bs _) (.evalMeas _))⟩
  | acknowledged h hp _ _ _ u hr =>
    exact .inl ⟨h, State.scanning_of_payload hp, .of_read hp hr (.of_registers _ _ _ _)⟩
  | faulted h hs c u hr => exact .inl ⟨h, hs, .of_read rfl hr (.of_registers _ _ _ _)⟩
  | returned _ hp => exact .inr ⟨.inl (Bool.eq_false_iff.mpr (State.not_scanning_of_done hp)), rfl, rfl, rfl⟩

/-- The step of a reading phase touches nothing outside the scanner but the inbound stream. -/
theorem StepTo.sameOutside_of_scanning {s t : State} (h : StepTo s t) (h0 : s.resetPending = false)
    (hs : s.scanning = true) : SameOutside (srcRead s.phase.readSize s).2 t := by
  rcases h.reads_cases with ⟨-, -, hu⟩ | ⟨hn | hr, -⟩
  · exact hu
  · cases hs.symm.trans hn
  · cases h0.symm.trans hr

theorem AfterAttempt.phase_eq {u t : State} (h : AfterAttempt u t) : t.phase = .hunt ∨ t.phase = .done := by
  obtain ⟨cl, n, ⟨rfl, -⟩ | ⟨rfl, -⟩⟩ := h
  · exact .inl rfl
  · exact .inr rfl

theorem AfterAttempt.res_eq {u t : State} (h : AfterAttempt u t) : t.res = u.res ∨ t.phase = .done := by
  obtain ⟨cl, n, ⟨rfl, -⟩ | ⟨rfl, -⟩⟩ := h
  · exact .inl rfl
  · exact .inr rfl

theorem AfterRead.res_eq {s u : State} {bs : List Byte} (h : AfterRead s u bs) : u.res = s.res := by
  obtain ⟨src, rfl⟩ := h.exists_eq
  rfl

/-- PHASE moves along an arrow (R17). -/
theorem StepTo.phase_mem_successors {s t : State} (h : StepTo s t) (h0 : s.resetPending = false) :
    t.phase ∈ s.phase.successors := by
  cases h with
  | reset h => cases h0.symm.trans h
  | wait _ hp => simp [hp, Phase.successors]
  | operation _ hp bs rest r u ns _ _ hx =>
    rcases exec_idle_cases r.op { s with requests := rest } u hp hx with ⟨_, rfl, -⟩ | ⟨_, -, -, rfl⟩ | ⟨_, -, rfl, -⟩ <;>
      simp [hp, Phase.successors]
  | header _ hp => simp [hp, Phase.successors]
  | command _ hp => simp [hp, Phase.successors]
  | stray _ hp _ _ _ _ _ _ _ ht => rcases ht.phase_eq with e | e <;> simp [hp, e, Phase.successors]
  | falsePositive _ hp _ _ _ _ _ _ _ ht => rcases ht.phase_eq with e | e <;> simp [hp, e, Phase.successors]
  | incomplete _ hp _ _ _ _ _ _ _ _ _ ht => rcases ht.phase_eq with e | e <;> simp [hp, e, Phase.successors]
  | measured _ hp => simp [hp, Phase.successors, evalMeas]
  | acknowledged _ hp => simp [hp, Phase.successors]
  | faulted _ hs => rcases s.scanning_iff.mp hs with hp | hp | hp <;> simp [hp, Phase.successors]
  | returned _ hp => simp [hp, Phase.successors]

/-- A step of a reading phase leaves RES or ends the call. -/
theorem StepTo.res_of_scanning {s t : State} (h : StepTo s t) (h0 : s.resetPending = false) (hs : s.scanning = true) :
    t.res = s.res ∨ t.phase = .done := by
  cases h with
  | reset h => cases h0.symm.trans h
  | wait _ hp => exact absurd hs (State.not_scanning_of_idle hp)
  | operation _ hp => exact absurd hs (State.not_scanning_of_idle hp)
  | header _ _ u _ hu => exact .inl hu.res_eq
  | command _ _ k _ u _ hu => exact .inl hu.res_eq
  | stray _ _ _ _ _ u _ _ hu ht => exact ht.res_eq.imp_left (·.trans hu.res_eq)
  | falsePositive _ _ _ _ _ u _ _ hu ht => exact ht.res_eq.imp_left (·.trans hu.res_eq)
  | incomplete _ _ _ _ _ _ _ u _ _ hu ht => exact ht.res_eq.imp_left (·.trans hu.res_eq)
  | measured => exact .inr rfl
  | acknowledged => exact .inr rfl
  | faulted => exact .inr rfl
  | returned _ hp => exact absurd hs (State.not_scanning_of_done hp)

/-- One read answers at most what is asked for. -/
theorem answerBytes_srcRead_length (n : Nat) (s : State) : (answerBytes (srcRead n s).1).length ≤ n := by
  rcases srcRead_cases n s with ⟨bs, t, h, hl, -⟩ | ⟨c, t, h, -⟩
  · rw [h]
    exact hl
  · rw [h]
    exact Nat.zero_le n

theorem readSize_of_scanning {s : State} (hs : s.scanning = true) :
    s.phase.readSize = if s.phase = .payload then 8 else 1 := by
  rcases s.scanning_iff.mp hs with hp | hp | hp <;> simp [hp, Phase.readSize]

/-- Outside IDLE and the reading phases is DONE. -/
theorem State.done_of_not_scanning {s : State} (hp : s.phase ≠ .idle) (hs : ¬ s.scanning = true) : s.phase = .done := by
  rw [State.scanning_iff] at hs
  cases h : s.phase <;> simp_all

/-! ## The obligations -/

/-- Settles O46: by the ways a step can go on. -/
theorem phaseFollowsTheScanner : Obligations.PhaseFollowsTheScanner := by
  unfold Obligations.PhaseFollowsTheScanner
  exact fun s t h0 h => (step_to s t h).phase_mem_successors h0

/-- Settles O47: a reading step touches nothing outside the scanner but the source, and the step in DONE only returns. -/
theorem callTouchesOnlyItsOwnState : Obligations.CallTouchesOnlyItsOwnState := by
  unfold Obligations.CallTouchesOnlyItsOwnState
  intro s t h0 hp h
  by_cases hs : s.scanning = true
  · have ho := (step_to s t h).sameOutside_of_scanning h0 hs
    exact ⟨ho.bud, ho.outbound, ho.sink, ho.sinkWrites, ho.requests, ho.names, fun _ => ho.results⟩
  · have hd := State.done_of_not_scanning hp hs
    obtain ⟨r, -, rfl⟩ := endCall_next s t (step_done s h0 hd ▸ h)
    exact ⟨rfl, rfl, rfl, rfl, rfl, rfl, fun hn => absurd hd hn⟩

/-- Settles O48: a reading step leaves the stream as its one read does. -/
theorem stepReadsAtMostOnce : Obligations.StepReadsAtMostOnce := by
  unfold Obligations.StepReadsAtMostOnce
  intro s t h
  refine ⟨fun hs h0 => ?_, fun hn => ?_⟩
  · have ho := (step_to s t h).sameOutside_of_scanning h0 hs
    exact ⟨ho.taken, ho.source, ho.srcReads, answerBytes_srcRead_length _ s, readSize_of_scanning hs⟩
  · rcases (step_to s t h).reads_cases with ⟨h0, hs, -⟩ | ⟨-, ht⟩
    · rcases hn with hn | hn
      · cases hs.symm.trans hn
      · cases h0.symm.trans hn
    · exact ht

/-- Settles O49: a read under Prompt takes the first bytes and does not fail, so no step raises TransportFault. -/
theorem promptStreamIsConserved : Obligations.PromptStreamIsConserved := by
  unfold Obligations.PromptStreamIsConserved
  intro s t q hq h
  have hstep := step_to s t h
  refine ⟨?_, fun hs h0 c hres => ?_⟩
  · rcases hstep.reads_cases with ⟨-, -, ho⟩ | ⟨-, htaken, hsource, -⟩
    · rw [srcRead_prompt _ s q hq] at ho
      exact ⟨_, _, (List.take_append_drop s.phase.readSize q).symm, ho.source, ho.taken⟩
    · exact ⟨[], q, rfl, hsource.trans hq, htaken.trans (List.append_nil _).symm⟩
  · rcases hstep.res_of_scanning h0 hs with he | hd
    · simp [he, hres]
    · rcases hstep.scanning_cases h0 hs with ⟨c', hr, -⟩ | ⟨bs, -, hend⟩
      · cases (congrArg Prod.fst (srcRead_prompt _ s q hq)).symm.trans hr
      · exact (hend hd).res_ne_transportError c

/-- Settles O60: a read answers bytes or a failure, and moves the stream only. -/
theorem readAnswersAtMostWhatIsAsked : Obligations.ReadAnswersAtMostWhatIsAsked := by
  unfold Obligations.ReadAnswersAtMostWhatIsAsked
  intro n s
  refine ⟨?_, ⟨rfl, rfl, rfl, rfl, rfl, rfl, rfl⟩, fun q hq => by rw [srcRead_prompt n s q hq]; exact ⟨rfl, rfl⟩⟩
  rcases srcRead_cases n s with ⟨bs, t, h, hl, rfl⟩ | ⟨c, t, h, rfl⟩
  · exact .inl ⟨bs, congrArg Prod.fst h, hl, congrArg (fun p => p.2.taken) h⟩
  · exact .inr ⟨c, congrArg Prod.fst h, congrArg (fun p => p.2.taken) h⟩

end Sys2Proof.Machine
end

section
/-! How calls end (spec/42_scanner.md R96, R97, R109; spec/60_exceptions.md R122, R123): an attempt is at most three steps,
and what follows it is the budget check alone. -/

namespace Sys2Proof.Machine

/-! ## Runs -/

/-- A run of one step or more that goes on begins with a step that goes on. -/
theorem steps_succ_next {n : Nat} {s u : State} (h : steps (n + 1) s = .next u) :
    ∃ t, step s = .next t ∧ steps n t = .next u := by
  rw [steps] at h
  split at h
  next t ht => exact ⟨t, ht, h⟩
  · cases h
  · cases h

/-! ## One attempt -/

/-- `u` is reached from `s` within one attempt, by `k` reads of at most `n` bytes in all: the budget check has not run. -/
structure WithinAttempt (k n : Nat) (s u : State) : Prop where
  bud : u.bud = s.bud
  att : u.att = s.att
  clock : u.clock = s.clock
  clockDraws : u.clockDraws = s.clockDraws
  resetPending : u.resetPending = s.resetPending
  srcReads : u.srcReads = s.srcReads + k
  taken : ∃ bs : List Byte, u.taken = s.taken ++ bs ∧ bs.length ≤ n

theorem WithinAttempt.srcRead {n : Nat} {s u : State} {a : SrcAnswer} (h : srcRead n s = (a, u)) :
    WithinAttempt 1 n s u := by
  obtain rfl : (Machine.srcRead n s).2 = u := congrArg Prod.snd h
  exact ⟨rfl, rfl, rfl, rfl, rfl, rfl, _, rfl, answerBytes_srcRead_length n s⟩

/-- The scanner's other registers do not matter to it. -/
theorem WithinAttempt.withRegisters {k n : Nat} {s u : State} (h : WithinAttempt k n s u) (p : Phase) (cmd : Option Byte)
    (pay : List Byte) (res : Option FrameResult) (diag : List DiagEvent) :
    WithinAttempt k n s { u with phase := p, cmd := cmd, pay := pay, res := res, diag := diag } :=
  ⟨h.bud, h.att, h.clock, h.clockDraws, h.resetPending, h.srcReads, h.taken⟩

theorem WithinAttempt.trans {j k m n : Nat} {s t u : State} (h : WithinAttempt j m s t) (h' : WithinAttempt k n t u) :
    WithinAttempt (k + j) (m + n) s u := by
  obtain ⟨bs, hbs, hl⟩ := h.taken
  obtain ⟨bs', hbs', hl'⟩ := h'.taken
  exact {
    bud := h'.bud.trans h.bud
    att := h'.att.trans h.att
    clock := h'.clock.trans h.clock
    clockDraws := h'.clockDraws.trans h.clockDraws
    resetPending := h'.resetPending.trans h.resetPending
    srcReads := by rw [h'.srcReads, h.srcReads, Nat.add_assoc, Nat.add_comm j]
    taken := ⟨bs ++ bs', by rw [hbs', hbs, List.append_assoc], by simp; omega⟩ }

theorem WithinAttempt.mono {k m n : Nat} {s u : State} (h : WithinAttempt k m s u) (hn : m ≤ n) : WithinAttempt k n s u :=
  { h with taken := h.taken.imp fun _ hb => ⟨hb.1, hb.2.trans hn⟩ }

/-- `k` steps with as many reads, of at most `n` bytes in all, bring the call to its end, or the attempt to its end and the
budget check. -/
def AttemptEnds (k n : Nat) (s : State) : Prop :=
  (∃ t, steps k s = .next t ∧ t.phase = .done ∧ t.res.isSome = true ∧ WithinAttempt k n s t) ∨
  (∃ u, steps k s = endAttempt u ∧ WithinAttempt k n s u)

theorem AttemptEnds.mono {k m n : Nat} {s : State} (h : AttemptEnds k m s) (hn : m ≤ n) : AttemptEnds k n s := by
  rcases h with ⟨t, ht, hd, hr, hw⟩ | ⟨u, hu, hw⟩
  · exact .inl ⟨t, ht, hd, hr, hw.mono hn⟩
  · exact .inr ⟨u, hu, hw.mono hn⟩

/-- One step more in front. -/
theorem AttemptEnds.of_step {k m n : Nat} {s t : State} (hs : step s = .next t) (hw : WithinAttempt 1 m s t)
    (h : AttemptEnds k n t) : AttemptEnds (k + 1) (m + n) s := by
  rcases h with ⟨v, hv, hd, hr, hw'⟩ | ⟨u, hu, hw'⟩
  · exact .inl ⟨v, (steps_succ k s t hs).trans hv, hd, hr, hw.trans hw'⟩
  · exact .inr ⟨u, (steps_succ k s t hs).trans hu, hw.trans hw'⟩

/-- A step that is the end of the attempt. -/
theorem AttemptEnds.of_endAttempt {n : Nat} {s u : State} (hs : step s = endAttempt u) (hw : WithinAttempt 1 n s u) :
    AttemptEnds 1 n s :=
  .inr ⟨u, (steps_one s).trans hs, hw⟩

/-- A step that is the end of the call. -/
theorem AttemptEnds.of_done {n : Nat} {s t : State} (hs : step s = .next t) (hd : t.phase = .done)
    (hr : t.res.isSome = true) (hw : WithinAttempt 1 n s t) : AttemptEnds 1 n s :=
  .inl ⟨t, (steps_one s).trans hs, hd, hr, hw⟩

/-- PAYLOAD ends the attempt or the call. -/
theorem payload_attemptEnds {s : State} {k : Byte} (h0 : s.resetPending = false) (hp : s.phase = .payload)
    (hc : s.cmd = some k) (hk : k = CMD_MEAS ∨ k = CMD_ACK) : AttemptEnds 1 RX_PAYLOAD_LEN s := by
  have hs := step_payload s h0 hp
  rcases payloadStep_cases s k hp hc hk with ⟨bs, u, hr, -, -, e⟩ | ⟨bs, u, hr, -, -, e⟩ | ⟨bs, u, hr, -, e⟩ | ⟨c, u, hr, e⟩
  · rw [evalMeas_eq] at e
    exact .of_done (hs.trans e) rfl rfl ((WithinAttempt.srcRead hr).withRegisters _ _ bs _ _)
  · exact .of_done (hs.trans e) rfl rfl ((WithinAttempt.srcRead hr).withRegisters _ _ bs _ _)
  · exact .of_endAttempt (hs.trans e) ((WithinAttempt.srcRead hr).withRegisters _ _ bs _ _)
  · exact .of_done (hs.trans e) rfl rfl ((WithinAttempt.srcRead hr).withRegisters _ _ _ _ _)

/-- CMDWAIT ends the attempt or the call, or goes on to PAYLOAD. -/
theorem cmdWait_attemptEnds {s : State} (h0 : s.resetPending = false) (hp : s.phase = .cmdWait) :
    ∃ k, 1 ≤ k ∧ k ≤ 2 ∧ AttemptEnds k 9 s := by
  have hs := step_cmdWait s h0 hp
  rcases cmdWaitStep_cases s hp with ⟨k, u, hk, hr, e⟩ | ⟨k, u, -, -, hr, e⟩ | ⟨u, hr, e⟩ | ⟨c, u, hr, e⟩
  · have hw := WithinAttempt.srcRead hr
    exact ⟨2, by omega, by omega, .of_step (hs.trans e) (hw.withRegisters _ _ _ _ _)
      (payload_attemptEnds (s := u.latchCommand k) (hw.resetPending.trans h0) rfl rfl hk)⟩
  · exact ⟨1, by omega, by omega, (AttemptEnds.of_endAttempt (hs.trans e) (.srcRead hr)).mono (by omega)⟩
  · exact ⟨1, by omega, by omega, (AttemptEnds.of_endAttempt (hs.trans e) (.srcRead hr)).mono (by omega)⟩
  · exact ⟨1, by omega, by omega,
      (AttemptEnds.of_done (hs.trans e) rfl rfl ((WithinAttempt.srcRead hr).withRegisters _ _ _ _ _)).mono (by omega)⟩

/-- An attempt is at most three steps and takes at most ten bytes (R109). -/
theorem hunt_attemptEnds {s : State} (h0 : s.resetPending = false) (hp : s.phase = .hunt) :
    ∃ k, 1 ≤ k ∧ k ≤ 3 ∧ AttemptEnds k 10 s := by
  have hs := step_hunt s h0 hp
  rcases huntStep_cases s hp with ⟨u, hr, e⟩ | ⟨b, u, -, hr, e⟩ | ⟨u, hr, e⟩ | ⟨c, u, hr, e⟩
  · have hw := WithinAttempt.srcRead hr
    obtain ⟨k, h1, h2, h⟩ := cmdWait_attemptEnds (s := u.headerMatched) (hw.resetPending.trans h0) rfl
    exact ⟨k + 1, by omega, by omega, .of_step (hs.trans e) (hw.withRegisters _ _ _ _ _) h⟩
  · exact ⟨1, by omega, by omega, (AttemptEnds.of_endAttempt (hs.trans e) (.srcRead hr)).mono (by omega)⟩
  · exact ⟨1, by omega, by omega, (AttemptEnds.of_endAttempt (hs.trans e) (.srcRead hr)).mono (by omega)⟩
  · exact ⟨1, by omega, by omega,
      (AttemptEnds.of_done (hs.trans e) rfl rfl ((WithinAttempt.srcRead hr).withRegisters _ _ _ _ _)).mono (by omega)⟩

/-! ## The draws of the clock -/

/-- The draw that the `k`-th budget check from here answers: a listed one, or past the list a free one (log 5). -/
def State.futureDraw (s : State) (k : Nat) : Bool := (s.clock[k]?).getD (Config.freeExpired (s.clockDraws + k))

theorem WithinAttempt.futureDraw {k n : Nat} {s u : State} (h : WithinAttempt k n s u) (j : Nat) :
    u.futureDraw j = s.futureDraw j := by
  rw [State.futureDraw, State.futureDraw, h.clock, h.clockDraws]

theorem WithinAttempt.drawsClock {k n : Nat} {s u : State} (h : WithinAttempt k n s u) (hd : s.drawsClock) :
    u.drawsClock := by
  rw [State.drawsClock, h.bud]
  exact hd

/-- Where the budget draws the clock, the next draw decides the end of an attempt, and each later one moves up. -/
theorem endAttempt_futureDraw {s : State} (hd : s.drawsClock) :
    ∃ t, endAttempt s = .next t ∧ t.att = s.att + 1 ∧ t.bud = s.bud ∧ t.resetPending = s.resetPending ∧
      (∀ k, t.futureDraw k = s.futureDraw (k + 1)) ∧
      (s.futureDraw 0 = true → t.phase = .done ∧ t.res.isSome = true) ∧ (s.futureDraw 0 = false → t.phase = .hunt) := by
  have hk : ∀ k, s.clockDraws + 1 + k = s.clockDraws + (k + 1) := fun k => by omega
  cases hc : s.clock with
  | nil =>
    have h0 : s.futureDraw 0 = Config.freeExpired s.clockDraws := by simp [State.futureDraw, hc]
    refine ⟨_, endAttempt_free hd hc, ?_⟩
    rw [h0]
    cases Config.freeExpired s.clockDraws
    · exact ⟨rfl, rfl, rfl, fun k => by simp [State.futureDraw, hc, hk], nofun, fun _ => rfl⟩
    · exact ⟨rfl, rfl, rfl, fun k => by simp [State.futureDraw, hc, hk], fun _ => ⟨rfl, rfl⟩, nofun⟩
  | cons b rest =>
    have h0 : s.futureDraw 0 = b := by simp [State.futureDraw, hc]
    refine ⟨_, endAttempt_listed hd hc, ?_⟩
    rw [h0]
    cases b
    · exact ⟨rfl, rfl, rfl, fun k => by simp [State.futureDraw, hc, hk], nofun, fun _ => rfl⟩
    · exact ⟨rfl, rfl, rfl, fun k => by simp [State.futureDraw, hc, hk], fun _ => ⟨rfl, rfl⟩, nofun⟩

/-- A call whose budget draws the clock has ended by the attempt of a true draw, three steps an attempt. -/
theorem call_ends_by_true_draw (k : Nat) (s : State) (h0 : s.resetPending = false) (hp : s.phase = .hunt)
    (hd : s.drawsClock) (hk : s.futureDraw k = true) :
    ∃ (n : Nat) (t : State), n ≤ 3 * (k + 1) ∧ steps n s = .next t ∧ t.phase = .done ∧ t.res.isSome = true ∧
      t.att ≤ s.att + (k + 1) := by
  induction k generalizing s with
  | zero =>
    obtain ⟨m, -, hm, ⟨t, ht, hdone, hres, hw⟩ | ⟨u, hu, hw⟩⟩ := hunt_attemptEnds h0 hp
    · exact ⟨m, t, by omega, ht, hdone, hres, by rw [hw.att]; omega⟩
    · obtain ⟨t, ht, hatt, -, -, -, htrue, -⟩ := endAttempt_futureDraw (hw.drawsClock hd)
      obtain ⟨hdone, hres⟩ := htrue ((hw.futureDraw 0).trans hk)
      exact ⟨m, t, by omega, hu.trans ht, hdone, hres, by rw [hatt, hw.att]⟩
  | succ k ih =>
    obtain ⟨m, -, hm, ⟨t, ht, hdone, hres, hw⟩ | ⟨u, hu, hw⟩⟩ := hunt_attemptEnds h0 hp
    · exact ⟨m, t, by omega, ht, hdone, hres, by rw [hw.att]; omega⟩
    · obtain ⟨t, ht, hatt, hbud, hreset, hnext, htrue, hfalse⟩ := endAttempt_futureDraw (hw.drawsClock hd)
      cases hdraw : u.futureDraw 0 with
      | true =>
        obtain ⟨hdone, hres⟩ := htrue hdraw
        exact ⟨m, t, by omega, hu.trans ht, hdone, hres, by rw [hatt, hw.att]; omega⟩
      | false =>
        have hdt : t.drawsClock := by
          rw [State.drawsClock, hbud]
          exact hw.drawsClock hd
        obtain ⟨n, v, hn, hv, hdone, hres, hle⟩ := ih t (hreset.trans (hw.resetPending.trans h0)) (hfalse hdraw) hdt
          ((hnext k).trans ((hw.futureDraw (k + 1)).trans hk))
        refine ⟨m + n, v, by omega, (steps_add m n s t (hu.trans ht)).trans hv, hdone, hres, hle.trans ?_⟩
        rw [hatt, hw.att]
        omega

/-! ## Unlimited calls -/

/-- A reading step with an Unlimited budget does not end the call with NoFrame (R97). -/
theorem StepTo.res_ne_noFrame {s t : State} (h : StepTo s t) (h0 : s.resetPending = false) (hs : s.scanning = true)
    (hb : s.bud = some .unlimited) (hr : s.res ≠ some .noFrame) : t.res ≠ some .noFrame := by
  rcases h.res_of_scanning h0 hs with he | hd
  · exact he ▸ hr
  · rcases h.scanning_cases h0 hs with ⟨c, -, rfl⟩ | ⟨bs, -, hend⟩
    · simp
    · rcases hend hd with ⟨-, ⟨m, hm⟩ | ha⟩ | ⟨-, -, hu⟩
      · simp [hm]
      · simp [ha]
      · exact absurd hb hu

/-- A reading step stays in the reading phases or ends the call. -/
theorem StepTo.scanning_or_done {s t : State} (h : StepTo s t) (h0 : s.resetPending = false) (hs : s.scanning = true) :
    t.scanning = true ∨ t.phase = .done := by
  have hm := h.phase_mem_successors h0
  rw [State.scanning_iff]
  rcases s.scanning_iff.mp hs with hp | hp | hp <;> rw [hp] at hm <;>
    simp only [Phase.successors, List.mem_cons, List.not_mem_nil, or_false] at hm <;> tauto

/-- Up to the end of an Unlimited call, its result is not NoFrame. -/
theorem unlimited_ne_noFrame (n : Nat) (s t : State) (h0 : s.resetPending = false) (hs : s.scanning = true)
    (hb : s.bud = some .unlimited) (hr : s.res ≠ some .noFrame) (h : steps n s = .next t)
    (hdone : ∀ m u, m < n → steps m s = .next u → u.phase ≠ .done) : t.res ≠ some .noFrame := by
  induction n generalizing s with
  | zero =>
    cases h
    exact hr
  | succ n ih =>
    obtain ⟨u, hu, h⟩ := steps_succ_next h
    have hstep := step_to s u hu
    have hru := hstep.res_ne_noFrame h0 hs hb hr
    cases n with
    | zero =>
      cases h
      exact hru
    | succ n =>
      have ho := hstep.sameOutside_of_scanning h0 hs
      have hsu : u.scanning = true :=
        (hstep.scanning_or_done h0 hs).resolve_right (hdone 1 u (by omega) ((steps_one s).trans hu))
      exact ih u (ho.resetPending.trans h0) hsu (ho.bud.trans hb) hru h
        fun m v hm hv => hdone (m + 1) v (by omega) ((steps_succ m s u hu).trans hv)

/-- HUNT on a stream without a header: the next byte or none is dropped, and the next attempt starts. -/
theorem step_of_silence {s : State} {q : List Byte} (h0 : s.resetPending = false) (hp : s.phase = .hunt)
    (hb : s.bud = some .unlimited) (hq : s.source = .prompt q) (hn : ∀ b, b ∈ q → b ≠ HDR) :
    step s = .next { s with att := s.att + 1, srcReads := s.srcReads + 1, source := .prompt (q.drop 1),
                            taken := s.taken ++ q.take 1 } := by
  cases q with
  | nil =>
    rw [step_hunt_empty s h0 hp hq, endAttempt_unlimited (s := { s with srcReads := s.srcReads + 1 }) hb]
    simp [hp, hq]
  | cons b q =>
    rw [step_hunt_noise b q s h0 hp hq (hn b (.head q)), endAttempt_unlimited (s := { s with
      source := .prompt q, taken := s.taken ++ [b], srcReads := s.srcReads + 1 }) hb]
    simp [hp]

/-! ## The obligations -/

/-- Settles O50: no reading step of the call ends it with NoFrame. -/
theorem unlimitedNeverReturnsNoFrame : Obligations.UnlimitedNeverReturnsNoFrame := by
  unfold Obligations.UnlimitedNeverReturnsNoFrame
  intro n s t h0 _ h hdone
  exact unlimited_ne_noFrame n (s.startCall .unlimited) t h0 rfl rfl nofun h hdone

/-- Settles O51: by induction on the number of steps, the stream shorter by one byte each time until it is empty. -/
theorem unlimitedCallHangsOnSilence : Obligations.UnlimitedCallHangsOnSilence := by
  unfold Obligations.UnlimitedCallHangsOnSilence
  intro n
  induction n with
  | zero =>
    intro q s _ _ _ hq _
    simp [steps, ← hq]
  | succ n ih =>
    intro q s h0 hp hb hq hn
    refine (steps_succ n s _ (step_of_silence h0 hp hb hq hn)).trans (Eq.trans
      (ih (q.drop 1) _ h0 hp hb rfl fun b hm => hn b (List.mem_of_mem_drop hm)) ?_)
    simp [Nat.add_comm n 1, Nat.add_assoc, List.take_add]

/-- Settles O52: after one attempt a Zero budget has expired. -/
theorem zeroBudgetEndsInOneAttempt : Obligations.ZeroBudgetEndsInOneAttempt := by
  unfold Obligations.ZeroBudgetEndsInOneAttempt
  intro s h0
  obtain ⟨k, h1, h3, ⟨t, ht, hd, hr, hw⟩ | ⟨u, hu, hw⟩⟩ := hunt_attemptEnds (s := s.startCall .zero) h0 rfl
  · have hatt : t.att = 0 := hw.att
    have hreads : t.srcReads = s.srcReads + k := hw.srcReads
    exact ⟨k, t, h1, h3, ht, hd, hr, by omega, by omega, hw.taken⟩
  · have hatt : u.att = 0 := hw.att
    have hreads : u.srcReads = s.srcReads + k := hw.srcReads
    exact ⟨k, _, h1, h3, hu.trans (endAttempt_zero hw.bud), rfl, rfl, by simp [hatt], by simp [hreads, h3], hw.taken⟩

/-- Settles O53: the true draw is that of the attempt after the early ones. -/
theorem finiteBudgetEndsWithTheClock : Obligations.FiniteBudgetEndsWithTheClock := by
  unfold Obligations.FiniteBudgetEndsWithTheClock
  intro s d early later h0 hc
  have hk : (s.startCall (.finite d)).futureDraw early.length = true := by simp [State.futureDraw, hc]
  obtain ⟨n, t, hn, ht, hd, hr, ha⟩ :=
    call_ends_by_true_draw early.length (s.startCall (.finite d)) h0 rfl (State.drawsClock_of_finite rfl) hk
  exact ⟨n, t, hn, ht, hd, hr, by simpa using ha⟩

/-- Settles O54: fairness gives a true free draw past the listed ones. -/
theorem fairClockEndsFiniteCall : Obligations.FairClockEndsFiniteCall := by
  unfold Obligations.FairClockEndsFiniteCall
  intro hfair s d h0
  obtain ⟨m, hm, htrue⟩ := hfair (s.clockDraws + s.clock.length)
  have hk : (s.startCall (.finite d)).futureDraw (m - s.clockDraws) = true := by
    have hlen : s.clock.length ≤ m - s.clockDraws := by omega
    have hadd : s.clockDraws + (m - s.clockDraws) = m := by omega
    simp [State.futureDraw, List.getElem?_eq_none hlen, hadd, htrue]
  obtain ⟨n, t, -, ht, hd, hr, -⟩ :=
    call_ends_by_true_draw _ (s.startCall (.finite d)) h0 rfl (State.drawsClock_of_finite rfl) hk
  exact ⟨n, t, ht, hd, hr⟩

end Sys2Proof.Machine
end

section
/-! Frames on a known stream (spec/42_scanner.md R90, R105, R106, R110; spec/70_reset_and_hazards.md R140, R143): noise is
passed byte by byte, a frame takes three steps, a header after a header is lost. -/

namespace Sys2Proof.Machine

/-! ## Noise -/

/-- The budget lets `k` more attempts end without a frame: it is Unlimited, or its next `k` draws are listed and false, or
there are none to come. -/
def State.outlasts (s : State) (k : Nat) : Prop :=
  s.bud = some .unlimited ∨ (s.drawsClock ∧ ∃ later, s.clock = List.replicate k false ++ later) ∨ k = 0

/-- Such a budget lets the attempt end and the next one start, and outlasts the others. -/
theorem endAttempt_of_outlasts {s : State} {k : Nat} (h : s.outlasts (k + 1)) :
    ∃ cl n, endAttempt s = .next { s with att := s.att + 1, phase := .hunt, clock := cl, clockDraws := n } ∧
      { s with att := s.att + 1, phase := .hunt, clock := cl, clockDraws := n }.outlasts k := by
  rcases h with hu | ⟨hd, later, hc⟩ | h
  · exact ⟨s.clock, s.clockDraws, endAttempt_unlimited hu, .inl hu⟩
  · exact ⟨List.replicate k false ++ later, s.clockDraws + 1, endAttempt_listed hd hc, .inr (.inl ⟨hd, later, rfl⟩)⟩
  · cases h

/-- The state with one byte of a known stream read. -/
def State.byteRead (s : State) (b : Byte) (rest : List Byte) : State :=
  { s with source := .prompt rest, taken := s.taken ++ [b], srcReads := s.srcReads + 1 }

/-- Noise is passed byte by byte: it costs attempts, reads and draws, and leaves the other registers. -/
theorem steps_noise (noise rest : List Byte) (s : State) (h0 : s.resetPending = false) (hp : s.phase = .hunt)
    (hn : ∀ c, c ∈ noise → c ≠ HDR) (hq : s.source = .prompt (noise ++ rest)) (hb : s.outlasts noise.length) :
    ∃ cl n, steps noise.length s = .next { s with
      att := s.att + noise.length, srcReads := s.srcReads + noise.length, source := .prompt rest,
      taken := s.taken ++ noise, clock := cl, clockDraws := n } := by
  induction noise generalizing s with
  | nil =>
    have hq' : s.source = .prompt rest := hq
    exact ⟨s.clock, s.clockDraws, by simp [steps, ← hq']⟩
  | cons b noise ih =>
    obtain ⟨cl, n, he, hb'⟩ := endAttempt_of_outlasts (k := noise.length)
      (s := s.byteRead b (noise ++ rest)) hb
    have hs := (step_hunt_noise b (noise ++ rest) s h0 hp hq (hn b (.head noise))).trans he
    obtain ⟨cl', n', ht⟩ := ih { s.byteRead b (noise ++ rest) with
      att := s.att + 1, phase := .hunt, clock := cl, clockDraws := n } h0 rfl (fun c hc => hn c (.tail b hc)) rfl hb'
    refine ⟨cl', n', (steps_succ noise.length s _ hs).trans (ht.trans ?_)⟩
    simp [State.byteRead, hp, Nat.add_comm noise.length 1, Nat.add_assoc]

/-! ## A frame -/

/-- The state with a frame's header and command byte read. -/
def State.commandRead (s : State) (k : Byte) (rest : List Byte) : State :=
  { s with phase := .payload, cmd := some k, source := .prompt rest, taken := s.taken ++ [HDR] ++ [k],
           srcReads := s.srcReads + 1 + 1 }

/-- Header and command byte take two steps. -/
theorem steps_command {s : State} {k : Byte} {rest : List Byte} (h0 : s.resetPending = false) (hp : s.phase = .hunt)
    (hk : k = CMD_MEAS ∨ k = CMD_ACK) (hq : s.source = .prompt (HDR :: k :: rest)) :
    steps 2 s = .next (s.commandRead k rest) :=
  (steps_succ 1 s _ (step_hunt_header (k :: rest) s h0 hp hq)).trans
    ((steps_one _).trans (step_cmdWait_command k hk rest _ h0 rfl rfl))

/-- The state with a whole frame read. -/
def State.frameRead (s : State) (k : Byte) (pay rest : List Byte) : State :=
  { s.commandRead k (pay ++ rest) with
    source := .prompt rest, taken := (s.commandRead k (pay ++ rest)).taken ++ pay,
    srcReads := (s.commandRead k (pay ++ rest)).srcReads + 1, pay := pay }

/-- A measurement frame takes three steps, in which the budget is not looked at (R105). -/
theorem steps_measurement {s : State} {pay rest : List Byte} (h0 : s.resetPending = false) (hp : s.phase = .hunt)
    (hl : pay.length = RX_PAYLOAD_LEN) (hq : s.source = .prompt ([HDR, CMD_MEAS] ++ pay ++ rest)) :
    steps 3 s = .next (evalMeas (s.frameRead CMD_MEAS pay rest)) :=
  (steps_add 2 1 s _ (steps_command h0 hp (.inl rfl) hq)).trans
    ((steps_one _).trans (step_payload_meas pay rest hl (s.commandRead CMD_MEAS (pay ++ rest)) h0 rfl rfl rfl))

/-- So does an acknowledgment frame. -/
theorem steps_acknowledgment {s : State} {pay rest : List Byte} (h0 : s.resetPending = false) (hp : s.phase = .hunt)
    (hl : pay.length = RX_PAYLOAD_LEN) (hq : s.source = .prompt ([HDR, CMD_ACK] ++ pay ++ rest)) :
    steps 3 s = .next ((s.frameRead CMD_ACK pay rest).finishWith .acknowledgment) :=
  (steps_add 2 1 s _ (steps_command h0 hp (.inr rfl) hq)).trans
    ((steps_one _).trans (step_payload_ack pay rest hl (s.commandRead CMD_ACK (pay ++ rest)) h0 rfl rfl rfl))

/-- The events of a measurement are those before it and, where a flag is down, one BadPacket. -/
theorem evalMeas_diag (s : State) :
    (evalMeas s).diag = if ckOk s.pay && tailOk s.pay then s.diag
      else s.diag ++ [.badPacket ([HDR, CMD_MEAS] ++ s.pay) (ckOk s.pay) (tailOk s.pay)] := by
  rw [evalMeas_eq]
  simp only [statusOf_eq_valid_iff, Bool.and_eq_true]

/-- What `evalMeas` leaves of the registers and streams a frame's reading has written. -/
theorem evalMeas_frame (s : State) :
    (evalMeas s).bud = s.bud ∧ (evalMeas s).cmd = s.cmd ∧ (evalMeas s).pay = s.pay ∧ (evalMeas s).att = s.att ∧
      (evalMeas s).source = s.source ∧ (evalMeas s).taken = s.taken ∧ (evalMeas s).clock = s.clock ∧
      (evalMeas s).clockDraws = s.clockDraws := by
  rw [evalMeas_eq]
  exact ⟨rfl, rfl, rfl, rfl, rfl, rfl, rfl, rfl⟩

/-! ## The obligations -/

/-- Settles O55: the noise is passed to a state in HUNT that differs in the attempts, and from there the frame takes its
three steps. -/
theorem scanResynchronises : Obligations.ScanResynchronises := by
  unfold Obligations.ScanResynchronises
  intro noise pay rest b k s h0 hn hl hk hq hb
  have hout : (s.startCall b).outlasts noise.length := by
    rcases hb with rfl | ⟨d, later, rfl, hc⟩ | rfl
    · exact .inl rfl
    · exact .inr (.inl ⟨State.drawsClock_of_finite rfl, later, hc⟩)
    · exact .inr (.inr rfl)
  have hq' : s.source = .prompt (noise ++ ([HDR, k] ++ pay ++ rest)) := hq.trans (by simp [HDR])
  obtain ⟨cl, n, hnoise⟩ := steps_noise noise ([HDR, k] ++ pay ++ rest) (s.startCall b) h0 rfl hn hq' hout
  have htaken : s.taken ++ noise ++ [HDR] ++ [k] ++ pay = s.taken ++ (noise ++ [HDR, k] ++ pay) := by simp
  rcases hk with rfl | rfl
  · have hframe := (steps_add noise.length 3 _ _ hnoise).trans (steps_measurement h0 rfl hl rfl)
    obtain ⟨hbud, hcmd, hpay, hatt, hsource, htaken', -, -⟩ := evalMeas_frame _
    exact ⟨_, hframe, rfl, hbud, hcmd, hpay, hatt.trans (Nat.zero_add _), hsource, htaken'.trans htaken,
      fun _ => ⟨rfl, evalMeas_diag _⟩, fun hk => absurd hk (by decide)⟩
  · have hframe := (steps_add noise.length 3 _ _ hnoise).trans (steps_acknowledgment h0 rfl hl rfl)
    exact ⟨_, hframe, rfl, rfl, rfl, rfl, Nat.zero_add _, rfl, htaken, fun hk => absurd hk (by decide),
      fun _ => ⟨rfl, rfl⟩⟩

/-- Settles O56: the three steps of a frame draw no clock. -/
theorem frameIsReturnedWhateverTheClock : Obligations.FrameIsReturnedWhateverTheClock := by
  unfold Obligations.FrameIsReturnedWhateverTheClock
  intro pay rest s h0 hp hl
  refine ⟨fun hq => ?_, fun hq => ⟨_, steps_acknowledgment h0 hp hl hq, rfl, rfl, rfl, rfl, rfl, rfl⟩⟩
  obtain ⟨-, -, -, hatt, hsource, -, hclock, hdraws⟩ := evalMeas_frame (s.frameRead CMD_MEAS pay rest)
  exact ⟨_, steps_measurement h0 hp hl hq, rfl, rfl, hsource, hatt, hclock, hdraws⟩

/-- Settles O57: the second header is no command byte, so both are a false positive. -/
theorem headerAfterHeaderIsLost : Obligations.HeaderAfterHeaderIsLost := by
  unfold Obligations.HeaderAfterHeaderIsLost
  intro q s h0 hp hb hq
  refine (steps_succ 1 s _ (step_hunt_header (HDR :: q) s h0 hp hq)).trans ((steps_one _).trans
    (Eq.trans (step_cmdWait_falsePos HDR (by decide) (by decide) q _ h0 rfl rfl) (Eq.trans (endAttempt_unlimited hb) ?_)))
  simp [hp, HDR]

end Sys2Proof.Machine
end

section
/-! A call depends on its budget, the ByteSource and the clock alone (spec/70_reset_and_hazards.md R136; spec/10_state.md
R30): two calls that agree on registers and inputs go on in step. -/

namespace Sys2Proof.Machine

/-- Two states of a call that agree on the registers, on what the environment of the call answers, and on whether a reset is
asked for. -/
structure SameCall (s t : State) : Prop where
  phase : s.phase = t.phase
  bud : s.bud = t.bud
  cmd : s.cmd = t.cmd
  pay : s.pay = t.pay
  att : s.att = t.att
  res : s.res = t.res
  diag : s.diag = t.diag
  source : s.source = t.source
  srcReads : s.srcReads = t.srcReads
  clock : s.clock = t.clock
  clockDraws : s.clockDraws = t.clockDraws
  resetPending : s.resetPending = t.resetPending

theorem SameCall.startCall {s t : State} (hi : sameInputs s t) (hr : s.resetPending = t.resetPending) (b : Budget) :
    SameCall (s.startCall b) (t.startCall b) := by
  obtain ⟨hsource, hreads, hclock, hdraws⟩ := hi
  exact ⟨rfl, rfl, rfl, rfl, rfl, rfl, rfl, hsource, hreads, hclock, hdraws, hr⟩

theorem SameCall.sameRegisters {s t : State} (h : SameCall s t) : sameRegisters s t :=
  ⟨h.phase, h.bud, h.cmd, h.pay, h.att, h.res, h.diag⟩

theorem SameCall.sameInputs {s t : State} (h : SameCall s t) : sameInputs s t :=
  ⟨h.source, h.srcReads, h.clock, h.clockDraws⟩

/-! ## The operations of a call keep the agreement -/

theorem SameCall.headerMatched {s t : State} (h : SameCall s t) : SameCall s.headerMatched t.headerMatched :=
  { h with phase := rfl }

theorem SameCall.latchCommand {s t : State} (h : SameCall s t) (k : Byte) :
    SameCall (s.latchCommand k) (t.latchCommand k) :=
  { h with cmd := rfl, phase := rfl }

theorem SameCall.finishWith {s t : State} (h : SameCall s t) (r : FrameResult) :
    SameCall (s.finishWith r) (t.finishWith r) :=
  { h with phase := rfl, res := rfl }

theorem SameCall.withPay {s t : State} (h : SameCall s t) (pay : List Byte) :
    SameCall { s with pay := pay } { t with pay := pay } :=
  { h with pay := rfl }

theorem SameCall.emit {s t : State} (h : SameCall s t) (e : DiagEvent) : SameCall (s.emit e) (t.emit e) :=
  { h with diag := congrArg (· ++ [e]) h.diag }

theorem SameCall.evalMeas {s t : State} (h : SameCall s t) : SameCall (evalMeas s) (evalMeas t) := by
  rw [evalMeas_eq, evalMeas_eq, h.pay, h.diag]
  exact { h with phase := rfl, pay := rfl, res := rfl, diag := rfl }

/-- A read answers the same in both. -/
theorem SameCall.srcRead {s t : State} (h : SameCall s t) (n : Nat) :
    (srcRead n s).1 = (srcRead n t).1 ∧ SameCall (srcRead n s).2 (srcRead n t).2 := by
  have hr : s.source.read s.srcReads n = t.source.read t.srcReads n := by rw [h.source, h.srcReads]
  have ha := congrArg Prod.fst hr
  exact ⟨ha, { h with source := congrArg Prod.snd hr, srcReads := congrArg (· + 1) h.srcReads }⟩

theorem SameCall.drawClock {s t : State} (h : SameCall s t) :
    (drawClock s).1 = (drawClock t).1 ∧ SameCall (drawClock s).2 (drawClock t).2 := by
  cases hc : t.clock with
  | nil =>
    rw [drawClock_free hc, drawClock_free (h.clock.trans hc)]
    exact ⟨congrArg Config.freeExpired h.clockDraws, { h with clockDraws := congrArg (· + 1) h.clockDraws }⟩
  | cons b rest =>
    rw [drawClock_listed hc, drawClock_listed (h.clock.trans hc)]
    exact ⟨rfl, { h with clock := rfl, clockDraws := congrArg (· + 1) h.clockDraws }⟩

/-- So does a budget check. -/
theorem SameCall.expired {s t : State} (h : SameCall s t) :
    (expired s).1 = (expired t).1 ∧ SameCall (expired s).2 (expired t).2 := by
  by_cases hz : t.bud = some .zero
  · rw [expired_zero t hz, expired_zero s (h.bud.trans hz)]
    exact ⟨rfl, h⟩
  · by_cases hu : t.bud = some .unlimited
    · rw [expired_unlimited t hu, expired_unlimited s (h.bud.trans hu)]
      exact ⟨rfl, h⟩
    · rw [expired_draw t hz hu, expired_draw s (h.bud ▸ hz) (h.bud ▸ hu)]
      exact h.drawClock

/-! ## The steps of a call keep the agreement -/

/-- Where the first goes on, so does the second, to a state that agrees with it. -/
def SameNext (x y : Result) : Prop := ∀ u, x = .next u → ∃ v, y = .next v ∧ SameCall u v

theorem SameCall.next {u v : State} (h : SameCall u v) : SameNext (.next u) (.next v) := by
  intro w hw
  cases hw
  exact ⟨v, rfl, h⟩

theorem SameNext.refused (e : Refusal) (y : Result) : SameNext (.refused e) y :=
  fun _ h => by cases h

theorem SameNext.fault (f : Fault) (y : Result) : SameNext (.fault f) y :=
  fun _ h => by cases h

theorem SameNext.ite {x x' y y' : Result} {p : Prop} [Decidable p] (h : SameNext x y) (h' : SameNext x' y') :
    SameNext (if p then x else x') (if p then y else y') := by
  split
  · exact h
  · exact h'

theorem SameCall.endAttempt {s t : State} (h : SameCall s t) : SameNext (endAttempt s) (endAttempt t) := by
  have hs : SameCall { s with att := s.att + 1, phase := .hunt } { t with att := t.att + 1, phase := .hunt } :=
    { h with att := congrArg (· + 1) h.att, phase := rfl }
  obtain ⟨ha, hc⟩ := hs.expired
  simp only [Machine.endAttempt, ha]
  apply SameCall.next
  split
  · exact hc.finishWith .noFrame
  · exact hc

theorem SameCall.inPayload {s t : State} (h : SameCall s t) (k : Byte) (pay : List Byte) {x y : Result}
    (hxy : SameNext x y) : SameNext (inPayload k pay s x) (inPayload k pay t y) := by
  unfold Machine.inPayload
  rw [h.phase, h.cmd]
  refine .ite (.refused _ _) (.ite (.refused _ _) ?_)
  split
  · exact .fault _ _
  · exact .ite hxy (.refused _ _)

/-- An inbound unit does the same to both. -/
theorem SameCall.exec_unit {s t : State} (h : SameCall s t) {i : Instr} (hu : i.isUnit = true) :
    SameNext (exec i s) (exec i t) := by
  cases i with
  | rxfMeas pay =>
    simp only [exec, execRxfMeas]
    exact h.inPayload _ _ (h.withPay pay).evalMeas.next
  | rxfAck pay =>
    simp only [exec, execRxfAck]
    exact h.inPayload _ _ ((h.withPay pay).finishWith _).next
  | rxfFalsePos k =>
    simp only [exec, execRxfFalsePos, h.phase]
    exact .ite (.refused _ _) (.ite (.refused _ _) h.endAttempt)
  | rxNoise b =>
    simp only [exec, execRxNoise, h.phase]
    exact .ite (.refused _ _) (.ite (.refused _ _) h.endAttempt)
  | _ => cases hu

theorem SameCall.runUnit {s t : State} (h : SameCall s t) (bs : List Byte) : SameNext (runUnit bs s) (runUnit bs t) := by
  unfold Machine.runUnit
  cases hd : decodeUnit bs with
  | error e => exact .refused _ _
  | ok i => exact h.exec_unit (encode_of_decodeUnit hd).1

theorem SameCall.huntStep {s t : State} (h : SameCall s t) : SameNext (huntStep s) (huntStep t) := by
  obtain ⟨ha, hc⟩ := h.srcRead 1
  unfold Machine.huntStep
  generalize Machine.srcRead 1 s = r at ha hc
  generalize Machine.srcRead 1 t = r' at ha hc
  obtain ⟨a, u⟩ := r
  obtain ⟨a', v⟩ := r'
  cases ha
  match a with
  | .err c => exact (hc.finishWith _).next
  | .bytes [] => exact hc.endAttempt
  | .bytes (b :: bs) => exact .ite hc.headerMatched.next (hc.runUnit _)

theorem SameCall.cmdWaitStep {s t : State} (h : SameCall s t) : SameNext (cmdWaitStep s) (cmdWaitStep t) := by
  obtain ⟨ha, hc⟩ := h.srcRead 1
  unfold Machine.cmdWaitStep
  generalize Machine.srcRead 1 s = r at ha hc
  generalize Machine.srcRead 1 t = r' at ha hc
  obtain ⟨a, u⟩ := r
  obtain ⟨a', v⟩ := r'
  cases ha
  cases a with
  | err c => exact (hc.finishWith _).next
  | bytes bs => exact .ite (hc.latchCommand _).next (hc.runUnit _)

theorem SameCall.incompletePayload {s t : State} (h : SameCall s t) (k : Byte) :
    SameNext (incompletePayload k s) (incompletePayload k t) := by
  unfold Machine.incompletePayload
  rw [h.pay]
  exact (h.emit _).endAttempt

theorem SameCall.payloadStep {s t : State} (h : SameCall s t) : SameNext (payloadStep s) (payloadStep t) := by
  obtain ⟨ha, hc⟩ := h.srcRead RX_PAYLOAD_LEN
  unfold Machine.payloadStep
  rw [h.cmd]
  cases t.cmd with
  | none => exact .fault _ _
  | some k =>
    refine .ite (.fault _ _) ?_
    generalize Machine.srcRead RX_PAYLOAD_LEN s = r at ha hc
    generalize Machine.srcRead RX_PAYLOAD_LEN t = r' at ha hc
    obtain ⟨a, u⟩ := r
    obtain ⟨a', v⟩ := r'
    cases ha
    cases a with
    | err c => exact (hc.finishWith _).next
    | bytes bs => exact .ite (hc.runUnit _) ((hc.withPay bs).incompletePayload k)

theorem SameCall.endCall {s t : State} (h : SameCall s t) : SameNext (endCall s) (endCall t) := by
  unfold Machine.endCall
  rw [h.res]
  cases t.res with
  | none => exact .fault _ _
  | some r => exact SameCall.next { h with phase := rfl, res := rfl }

/-- A step outside IDLE does the same to both. -/
theorem SameCall.step {s t : State} (h : SameCall s t) (hp : s.phase ≠ .idle) : SameNext (step s) (step t) := by
  cases h0 : t.resetPending with
  | true =>
    rw [step_reset t h0, step_reset s (h.resetPending.trans h0)]
    exact SameCall.next ⟨rfl, rfl, rfl, rfl, rfl, rfl, rfl, h.source, h.srcReads, h.clock, h.clockDraws, rfl⟩
  | false =>
    rw [step_phase t h0, step_phase s (h.resetPending.trans h0), phaseStep, phaseStep, h.phase]
    cases ht : t.phase with
    | idle => exact absurd (h.phase.trans ht) hp
    | hunt => exact h.huntStep
    | cmdWait => exact h.cmdWaitStep
    | payload => exact h.payloadStep
    | done => exact h.endCall

/-- So does a run that stays outside IDLE. -/
theorem SameCall.steps {s t : State} (n : Nat) (h : SameCall s t)
    (hp : ∀ m v, m < n → steps m s = .next v → v.phase ≠ .idle) : SameNext (steps n s) (steps n t) := by
  induction n generalizing s t with
  | zero => exact h.next
  | succ n ih =>
    intro u hu
    obtain ⟨w, hw, hu⟩ := steps_succ_next hu
    obtain ⟨w', hw', hc⟩ := h.step (hp 0 s (Nat.succ_pos n) rfl) w hw
    obtain ⟨v, hv, hcv⟩ := ih hc (fun m v hm hv => hp (m + 1) v (by omega) ((steps_succ m s w hw).trans hv)) u hu
    exact ⟨v, (steps_succ n t w' hw').trans hv, hcv⟩

/-! ## The obligation -/

/-- Settles O58: the start of a call writes every register, and from there the two runs agree step by step. -/
theorem callsAreIndependent : Obligations.CallsAreIndependent := by
  unfold Obligations.CallsAreIndependent
  intro n b s t u hs ht hi hp hu
  obtain ⟨v, hv, hc⟩ := (SameCall.startCall hi (hs.trans ht.symm) b).steps n hp u hu
  exact ⟨v, hv, hc.sameRegisters, hc.sameInputs⟩

end Sys2Proof.Machine
end
